-- ==== Sys2Proof/Word.lean ====
section
/-! DEFINITION. The two word types of bloom_filter_engine: 64-bit registers and 8-bit bytes (00_scope R6, R8). -/
namespace Sys2Proof

/-- A host register, a digest, a bit position, a command word: 64 bits (00_scope R6). -/
abbrev Word := BitVec 64

/-- A byte of BUF, of a stream beat or of a stored filter (00_scope R8, 20_memory R68). -/
abbrev Byte := BitVec 8

end Sys2Proof
end

