-- ==== Sys2Proof/Config.lean ====
section
/-! DEFINITION. What an implementation fixes (the OPEN parameters of 00_scope R6 and 93_implementation_defined P1 to P3)
and the free values of 93_implementation_defined U1 to U4 and of log 17. None of the opaque constants has a body: no proof can see a
value of one. -/
namespace Sys2Proof

/-- The four bytes MAGIC[0..3] of a stored filter, in stream order (00_scope R6, 30_encoding R100). -/
structure Magic where
  b0 : Byte
  b1 : Byte
  b2 : Byte
  b3 : Byte
  deriving DecidableEq, Repr, Inhabited

/-- `MAGIC[0..3]` as the byte sequence ENCODE writes and DECODE compares (30_encoding R100). -/
def Magic.bytes (m : Magic) : List Byte := [m.b0, m.b1, m.b2, m.b3]

/-- OPEN parameter MAGIC (P1): any four bytes. DESIGN CHOICE, log 2, safe: nothing is assumed of them. -/
opaque Config.magic : Magic

/-- OPEN parameter MAX_BUF_BYTES, less one (P3): MAX_BUF_BYTES runs from 1 to 2^61 - 1. DESIGN CHOICE, log 2, safe. -/
opaque Config.maxBufLessOne : Fin 2305843009213693951

/-- OPEN parameter MAX_BUF_BYTES of the machine after reset (00_scope R6): from 1 to 2^61 - 1. -/
def Config.maxBufBytes : Nat := Config.maxBufLessOne.val + 1

/-- OPEN parameter LN (P2): the binary64 natural logarithm of the sizing unit, on bit patterns. P2's bound of one ulp is
not imposed, so every statement holds for every total function. DESIGN CHOICE, log 1, safe. -/
opaque Config.ln : Word → Word

/-- U1: what a read of HASH_ROUNDS, BIT_COUNT, BUF_LEN, INSERTED_COUNT or FAULT_INFO returns while BUSY = 1, one draw per
read (10_state R35). DESIGN CHOICE, log 6, safe. -/
opaque Config.busyRead : Nat → Word

/-- U2: whether the SETBIT of one round of a faulting INSERT took effect, by draw and round (42_filter_engine R193).
DESIGN CHOICE, log 7, safe. -/
opaque Config.setTaken : Nat → Nat → Bool

/-- How many of the beats on the stream a command in progress had already taken when reset cut it off, by draw; no rule says
(70_reset_and_hazards R290, R297, U7). Used modulo the number it could have taken. DESIGN CHOICE, log 17, safe. -/
opaque Config.resetTaken : Nat → Nat

/-- U3 and U4: what BUF's storage holds, from byte 0 up, after a failed DECODE or a reset, one draw per event
(43_codec R236, 10_state R43). DESIGN CHOICE, logs 8 and 9, safe. -/
opaque Config.freeBytes : Nat → List Byte

/-- The OPEN parameters of one machine, fixed for a whole run (93_implementation_defined P1 to P3: "A model takes each
OPEN one as an argument"). They stand in State so that a statement about every state is one about every parameter; no
step changes them. -/
structure Params where
  /-- MAGIC (P1). -/
  magic : Magic
  /-- MAX_BUF_BYTES (P3). -/
  maxBufBytes : Nat
  /-- LN at the arguments listed (P2): pairs of an argument and LN's value there, as bit patterns. Everywhere else LN is
  `Config.ln`. Empty at reset, where LN is open everywhere. -/
  lnTable : List (Word × Word)
  deriving DecidableEq, Repr

/-- The parameter function LN on binary64 bit patterns (00_scope R6, R10). -/
def Params.ln (p : Params) (x : Word) : Word := (p.lnTable.lookup x).getD (Config.ln x)

/-- The parameters of the machine after reset: all three open. -/
def Config.params : Params := { magic := Config.magic, maxBufBytes := Config.maxBufBytes, lnTable := [] }

end Sys2Proof
end

