-- ==== Sys2Proof/Syntax.lean ====
section
/-! DEFINITION. The host's side of the block as syntax: the five commands of spec/opcode_table.json, register accesses
(30_encoding R91), stream beats and responses (R97, R98), and the interactions of 70_reset_and_hazards R301. -/
namespace Sys2Proof

/-- The commands, one constructor per row of spec/opcode_table.json (30_encoding R94). None has an operand in its word. -/
inductive Instr where
  /-- CREATE, OP 0x1 (42_filter_engine R180). -/
  | create
  /-- INSERT, OP 0x2 (42_filter_engine R190). -/
  | insert
  /-- QUERY, OP 0x3 (42_filter_engine R200). -/
  | query
  /-- ENCODE, OP 0x4 (43_codec R220). -/
  | encode
  /-- DECODE, OP 0x5 (43_codec R230). -/
  | decode
  deriving DecidableEq, Repr

/-- An accepted command: a row of the opcode map, or ILLEGAL (42_filter_engine R170, R176). -/
inductive Command where
  | instr (i : Instr)
  | illegal
  deriving DecidableEq, Repr

/-- A host register access `(dir, idx, data)`, format REGACC: dir 1 is a write, 0 a read (30_encoding R91). -/
structure RegAccess where
  dir : BitVec 1
  idx : BitVec 4
  data : Word
  deriving DecidableEq, Repr

/-- An input beat as the wires carry it, `(kind[1:0], data[7:0])` (30_encoding R97). -/
structure InBeat where
  kind : BitVec 2
  data : Byte
  deriving DecidableEq, Repr

/-- What an input beat says: one byte, END or ERR (20_memory R70). -/
inductive Beat where
  | data (b : Byte)
  | endOfPacket
  | err
  deriving DecidableEq, Repr

/-- An output beat `(data[7:0], last)` (30_encoding R98). -/
structure OutBeat where
  data : Byte
  last : Bool
  deriving DecidableEq, Repr

/-- The host's answer to an output beat: `resp` 0 takes it, 1 reports a write failure (30_encoding R98, 20_memory R75). -/
inductive Response where
  | take
  | fail
  deriving DecidableEq, Repr

/-- One host interaction (70_reset_and_hazards R301). -/
inductive HostOp where
  /-- A register read or write (30_encoding R91). -/
  | access (a : RegAccess)
  /-- One input beat is offered (20_memory R70, R73). -/
  | offer (b : InBeat)
  /-- One answer to an output beat (20_memory R75). -/
  | answer (r : Response)
  /-- `rst` is asserted (70_reset_and_hazards R290). -/
  | reset
  deriving DecidableEq, Repr

/-- A host interaction and its place in time: `overlap` says that the host's next interaction comes before the engine
moves again. DESIGN CHOICE, log 4, safe: every interleaving of host and engine is some list of these. -/
structure HostEvent where
  op : HostOp
  overlap : Bool
  deriving DecidableEq, Repr

end Sys2Proof
end

