-- ==== Sys2Proof/WellFormed.lean ====
section
/-! DEFINITION. Checks on raw input: the fields of a command word (30_encoding R93, R95), the form of a packet
(20_memory R71) and the range of the OPEN parameters (00_scope R6). -/
namespace Sys2Proof

/-- A command word's OP field, bits [3:0] (30_encoding R93). -/
abbrev opField (w : Word) : BitVec 4 := w.extractLsb' 0 4

/-- A command word's zero field, bits [63:4] (30_encoding R93). -/
abbrev zeroField (w : Word) : BitVec 60 := w.extractLsb' 4 60

/-- The OP field is a legal value, 0x1 to 0x5 (30_encoding R93). -/
def opLegal (w : Word) : Bool := decide (1 ≤ (opField w).toNat ∧ (opField w).toNat ≤ 5)

/-- The field [63:4] is all zeros (30_encoding R93). -/
def upperZero (w : Word) : Bool := decide (zeroField w = 0#60)

/-- A command word is legal when both fields are (30_encoding R93, R95). -/
def wordLegal (w : Word) : Bool := opLegal w && upperZero w

/-- A command has no operand field, so every term of Instr is well-formed: its word is fixed by its opcode
(30_encoding R94, R96). -/
def Instr.wf : Instr → Bool
  | .create => true
  | .insert => true
  | .query => true
  | .encode => true
  | .decode => true

/-- A packet is DATA beats and then exactly one END or ERR (20_memory R71), on the beats' meanings. -/
def isPacket : List Beat → Bool
  | [] => false
  | [.endOfPacket] => true
  | [.err] => true
  | .data _ :: rest => isPacket rest
  | _ :: _ => false

/-- MAX_BUF_BYTES lies between 1 and 2^61 - 1 (00_scope R6). MAGIC and LN carry no constraint a model must impose. -/
def Params.wf (p : Params) : Bool := decide (1 ≤ p.maxBufBytes ∧ p.maxBufBytes ≤ 2 ^ 61 - 1)

end Sys2Proof
end

