-- ==== Sys2Proof/Decode.lean ====
section
/-! DEFINITION. The command decoder and its encoder (30_encoding R93 to R96), and the reading of an input beat
(R97) and of a host's response bit (R98). -/
namespace Sys2Proof

/-- Why a command word is no command (30_encoding R95); both kinds are ILLEGAL commands. -/
inductive WordReject where
  /-- OP = 0x0 or OP in 0x6 to 0xF. -/
  | reservedOp
  /-- Some bit of [63:4] is set, whatever the OP. -/
  | upperBits
  deriving DecidableEq, Repr

/-- The opcode map (30_encoding R94) on the OP field alone. -/
def opcodeOf (op : BitVec 4) : Option Instr :=
  match op.toNat with
  | 1 => some .create
  | 2 => some .insert
  | 3 => some .query
  | 4 => some .encode
  | 5 => some .decode
  | _ => none

/-- The command decoder, total on every 64-bit word (30_encoding R93 to R96, 42_filter_engine R170). -/
def decode (w : Word) : Except WordReject Instr :=
  if upperZero w then
    match opcodeOf (opField w) with
    | some i => .ok i
    | none => .error .reservedOp
  else .error .upperBits

/-- A command's OP value (30_encoding R94). -/
def opcode : Instr → BitVec 4
  | .create => 0x1#4
  | .insert => 0x2#4
  | .query => 0x3#4
  | .encode => 0x4#4
  | .decode => 0x5#4

/-- A command's word: OP in [3:0], zeros above (30_encoding R93, R94). -/
def encode (i : Instr) : Word := (0#60) ++ opcode i

/-- The decoder on a number whose bits are a command word's, as spec/opcode_table.json numbers them; a number that needs
more than 64 bits is no command word (30_encoding R96). Log 15. -/
def decodeTableWord (nbits w : Nat) : Option Instr :=
  if w % 2 ^ nbits < 2 ^ 64 then
    match decode (BitVec.ofNat 64 (w % 2 ^ nbits)) with
    | .ok i => some i
    | .error _ => none
  else none

/-- What an input beat says (30_encoding R97): kind 00 is DATA, 01 END, 10 ERR, and 11 exactly as ERR; the data of the
last three is ignored. -/
def InBeat.beat (b : InBeat) : Beat :=
  match b.kind.toNat with
  | 0 => .data b.data
  | 1 => .endOfPacket
  | _ => .err

/-- The host's response bit (30_encoding R98): 0 accepts the beat, 1 reports a write failure. -/
def Response.ofBit (b : BitVec 1) : Response := if b = 0#1 then .take else .fail

/-- A DATA beat (30_encoding R97). -/
def InBeat.ofByte (b : Byte) : InBeat := { kind := 0#2, data := b }

/-- An END beat (30_encoding R97). -/
def InBeat.finish : InBeat := { kind := 1#2, data := 0#8 }

/-- An ERR beat (30_encoding R97). -/
def InBeat.failure : InBeat := { kind := 2#2, data := 0#8 }

/-- A word's packet: its DATA beats and an END (20_memory R71, 42_filter_engine R175). -/
def packetOf (w : List Byte) : List InBeat := w.map InBeat.ofByte ++ [InBeat.finish]

end Sys2Proof
end

