-- ==== Sys2Proof/Machine/State.lean ====
section
/-! DEFINITION. The state of bloom_filter_engine as plain data (10_state R20), the state after reset (R43), and the two
reason types of Host.Outcome. -/
namespace Sys2Proof.Machine

/-- BUF as a list of (byte index, byte) cells in one canonical form: indices strictly rising, and no cell 0x00, which
is what an unlisted index reads as (10_state R31, log 9). -/
abbrev Memory := List Host.Cell

/-- Which of the two word commands multi_hash_chain is serving (40_hash_chain R130). -/
inductive WordOp where
  | insert
  | query
  deriving DecidableEq, Repr

/-- What a command does once the terminator of its packet has been taken (42_filter_engine R173, R174). -/
inductive Finish where
  /-- A refused command: Error(code), nothing else changes (R172). -/
  | refuse (code : Byte)
  /-- DECODE's FAIL(code) (43_codec R236). -/
  | fail (code : Byte)
  /-- DECODE's success: K', M' and the body as read (43_codec R234). -/
  | load (k : Byte) (m : Word) (body : List Byte)
  deriving DecidableEq, Repr

/-- The hidden execution state (10_state R38). BUSY is `engine` being other than `idle`. -/
inductive Engine where
  /-- No command: BUSY = 0. -/
  | idle
  /-- A command has been accepted and has done nothing yet (42_filter_engine R170). -/
  | accepted (c : Command)
  /-- INSERT or QUERY takes its word: the running digest and the bytes taken so far (42_filter_engine R190, R200). -/
  | word (op : WordOp) (digest : Word) (taken : Nat)
  /-- INSERT or QUERY is in its rounds: the digest of round `round` and the round counter (40_hash_chain R133). -/
  | rounds (op : WordOp) (digest : Word) (round : Nat)
  /-- DECODE reads its header: the bytes taken so far (43_codec R231). -/
  | header (bytes : List Byte)
  /-- DECODE reads its body: K', M' and the body bytes taken so far (43_codec R234). -/
  | body (k : Byte) (m : Word) (bytes : List Byte)
  /-- The command `op` drains the rest of its packet and then finishes; bytes taken so far (42_filter_engine R173). -/
  | drain (op : Instr) (fin : Finish) (taken : Nat)
  /-- ENCODE offers the output beat at `offset` and waits for the host's answer (43_codec R220). -/
  | sending (offset : Nat)
  deriving DecidableEq, Repr

/-- Reasons a step stops for good: none. Every error and every sticky fault of 60_exceptions R260 is a state of the block
(ERR, FAULTED), so it is a NEXT state, and a hang is a state a step leaves alone (70_reset_and_hazards R296). Nothing
raises a Fault; safe. -/
inductive Fault where
  deriving DecidableEq, Repr

/-- Reasons an instruction has no meaning. -/
inductive Refusal where
  /-- Raised by an arm of `exec` whose instruction is not modelled yet; no arm is left so. Safe. -/
  | notModelled (mnemonic : String)
  deriving DecidableEq, Repr

/-- The whole machine: the block's architectural state (10_state R20), its two streams (20_memory R60), what the host
does and gets (70_reset_and_hazards R301), and the model's own parameters and draw counter. -/
structure State where
  /-- ARG_N (10_state R24). -/
  argN : Word
  /-- ARG_P (10_state R25). -/
  argP : Word
  /-- K, HASH_ROUNDS (10_state R26). -/
  k : Byte
  /-- M, BIT_COUNT (10_state R27). -/
  m : Word
  /-- INSERTED_COUNT (10_state R29). -/
  insertedCount : Word
  /-- STATUS.CFG_VALID (10_state R23). -/
  cfgValid : Bool
  /-- STATUS.FAULTED (10_state R23). -/
  faulted : Bool
  /-- STATUS.RESULT (10_state R23). -/
  result : Bool
  /-- STATUS.ERR (10_state R23). -/
  err : Byte
  /-- STATUS.FAULT_CAUSE (10_state R23). -/
  faultCause : Byte
  /-- STATUS.FAULT_ROUND (10_state R23). -/
  faultRound : Byte
  /-- FAULT_INFO (10_state R32). -/
  faultInfo : Word
  /-- BUF (10_state R31). -/
  buf : Memory
  /-- The hidden execution state (10_state R38). -/
  engine : Engine
  /-- Input beats offered and not yet taken, next first (20_memory R70, R73). -/
  inStream : List InBeat
  /-- The host's answers to coming output beats, next first (20_memory R75, log 5). -/
  answers : List Response
  /-- Output beats the host has taken, first first (20_memory R76). -/
  outLog : List OutBeat
  /-- Values register reads have returned to the host, first first (30_encoding R91). -/
  readLog : List Word
  /-- The host's coming interactions, next first (70_reset_and_hazards R301, log 3). -/
  host : List HostEvent
  /-- The OPEN parameters (00_scope R6). -/
  params : Params
  /-- How many free values have been drawn (log 10). -/
  draws : Nat
  deriving DecidableEq, Repr

/-- The machine right after reset (10_state R43): every register 0, the engine idle, BUF of length 0 (M = 0). The streams,
the host's side and the draw counter start empty (logs 3, 5, 9, 10). -/
def State.reset : State where
  argN := 0#64
  argP := 0#64
  k := 0#8
  m := 0#64
  insertedCount := 0#64
  cfgValid := false
  faulted := false
  result := false
  err := 0x00#8
  faultCause := 0x00#8
  faultRound := 0x00#8
  faultInfo := 0#64
  buf := []
  engine := .idle
  inStream := []
  answers := []
  outLog := []
  readLog := []
  host := []
  params := Config.params
  draws := 0

end Sys2Proof.Machine
end

