-- ==== Sys2Proof/Machine/Ops.lean ====
section
/-! DEFINITION. The named operations over BUF's bytes, over the registers a construction writes, and the three ways a
command ends (42_filter_engine R174), which are all the block has of taking an exception (60_exceptions R267). -/
namespace Sys2Proof.Machine

/-! ### BUF's bytes -/

/-- `MemRead(i, 1)` (00_scope R11); an unlisted byte reads 0x00 (log 9). -/
def Memory.read (a : Nat) : Memory → Byte
  | [] => 0#8
  | (b, v) :: rest => if a = b then v else Memory.read a rest

/-- `MemWrite(i, 1, v)` (00_scope R11), keeping the canonical form. -/
def Memory.write (a : Nat) (v : Byte) : Memory → Memory
  | [] => if v = 0#8 then [] else [(a, v)]
  | (b, w) :: rest =>
    if a < b then (if v = 0#8 then (b, w) :: rest else (a, v) :: (b, w) :: rest)
    else if a = b then (if v = 0#8 then rest else (a, v) :: rest)
    else (b, w) :: Memory.write a v rest

/-- The bytes given, at indices from `base` up. -/
def Memory.ofBytes (base : Nat) : List Byte → Memory
  | [] => []
  | v :: rest => if v = 0#8 then Memory.ofBytes (base + 1) rest else (base, v) :: Memory.ofBytes (base + 1) rest

/-- The canonical form from index `lo` up: indices strictly rising, no 0x00 listed. -/
def Memory.wfFrom (lo : Nat) : Memory → Bool
  | [] => true
  | (a, v) :: rest => decide (lo ≤ a) && decide (v ≠ 0#8) && Memory.wfFrom (a + 1) rest

/-- The canonical form of a memory. -/
def Memory.wf (b : Memory) : Bool := Memory.wfFrom 0 b

/-- Every listed index is below `l`: nothing is stored beyond BUF's L bytes (10_state R31). -/
def Memory.below (l : Nat) (b : Memory) : Bool := b.all fun c => decide (c.1 < l)

/-! ### Registers that are views of other state -/

/-- L = M >> 3 for a bit count M: the length of its bit buffer in bytes (10_state R30). -/
def byteLen (m : Word) : Nat := (m >>> 3).toNat

/-- BUF_LEN's value L (10_state R28). -/
def State.bufLen (s : State) : Nat := byteLen s.m

/-- STATUS.BUSY (10_state R23): from acceptance to completion. -/
def State.busy (s : State) : Bool :=
  match s.engine with
  | .idle => false
  | .accepted _ => true
  | .word _ _ _ => true
  | .rounds _ _ _ => true
  | .header _ => true
  | .body _ _ _ => true
  | .drain _ _ _ => true
  | .sending _ => true

/-! ### The three ways a command ends (42_filter_engine R174) -/

/-- `complete()`: ERR 0x00, RESULT the query's answer, BUSY falls (42_filter_engine R174). -/
def complete (answer : Bool) (s : State) : State := { s with err := 0x00#8, result := answer, engine := .idle }

/-- `raise Error(code)`: ERR the code, RESULT 0, BUSY falls; not sticky (42_filter_engine R174, 60_exceptions R262). -/
def raiseError (code : Byte) (s : State) : State := { s with err := code, result := false, engine := .idle }

/-- `raise Fault(cause, round, pos)`: the sticky fault (60_exceptions R263, R264). -/
def raiseFault (cause : Byte) (round : Nat) (pos : Word) (s : State) : State :=
  { s with
    err := cause, result := false, faulted := true, faultCause := cause
    faultRound := BitVec.ofNat 8 round, faultInfo := pos, engine := .idle }

/-! ### What a construction, a failed DECODE and a reset write -/

/-- A successful CREATE or DECODE: K, M, BUF, INSERTED_COUNT 0, CFG_VALID 1 (42_filter_engine R185, 43_codec R234). -/
def configure (k : Byte) (m : Word) (b : Memory) (s : State) : State :=
  { s with k := k, m := m, buf := b, insertedCount := 0#64, cfgValid := true }

/-- A draw of BUF's unspecified contents (93_implementation_defined U3, U4; logs 8 and 9). -/
def freeBuf (s : State) : Memory := Memory.ofBytes 0 (Config.freeBytes s.draws)

/-- What every DECODE failure does before its Error: no filter is held, and BUF is unspecified (43_codec R236). -/
def unconfigure (s : State) : State :=
  { s with k := 0#8, m := 0#64, insertedCount := 0#64, cfgValid := false, buf := freeBuf s, draws := s.draws + 1 }

/-- Reset of the block (70_reset_and_hazards R290, 10_state R43): every register as after reset, the command in progress
abandoned, BUF unspecified. The streams and what the host has and does are outside the block and stay (log 12); which beats the
abandoned command had taken is settled before (log 17). -/
def resetBlock (s : State) : State :=
  { State.reset with
    buf := freeBuf s
    inStream := s.inStream, answers := s.answers, outLog := s.outLog, readLog := s.readLog
    host := s.host, params := s.params, draws := s.draws + 1 }

/-- Acceptance of a command: BUSY rises, nothing else happens yet (42_filter_engine R170). -/
def accept (c : Command) (s : State) : State := { s with engine := .accepted c }

/-- A command's meaning: a command word written while BUSY = 1 is ignored (10_state R22); otherwise the command is
accepted and the engine runs it until it completes or waits for the host (42_filter_engine R170, log 4). -/
def onAccept (c : Command) (run : State → State) (s : State) : Host.Outcome State Fault Refusal :=
  if s.busy then .next s else .next (run (accept c s))

end Sys2Proof.Machine
end

