-- ==== Sys2Proof/Machine/BitVector.lean ====
section
/-! DEFINITION. bit_vector_controller (41_bit_vector): SETBIT, TESTBIT, CLEARALL, LOADBYTE, READBYTE, the only path to
BUF. The length L is an argument, as the controller reads it from BIT_COUNT (R150). -/
namespace Sys2Proof.Machine

/-- The byte index of a position (20_memory R62). -/
def byteIndex (p : Word) : Nat := (p >>> 3).toNat

/-- The bit offset of a position in its byte, 0 the least significant (20_memory R62). -/
def bitOffset (p : Word) : Nat := (p &&& 7#64).toNat

/-- The range check: the position has a byte of storage (41_bit_vector R151). -/
def inRange (l : Nat) (p : Word) : Bool := decide (byteIndex p < l)

/-- The bit of BUF at a position (20_memory R62). -/
def bitAt (b : Memory) (p : Word) : Bool := (Memory.read (byteIndex p) b).getLsbD (bitOffset p)

/-- SETBIT(p), none for OUT_OF_RANGE (41_bit_vector R152). -/
def setBit (l : Nat) (p : Word) (b : Memory) : Option Memory :=
  if inRange l p then
    some (Memory.write (byteIndex p) (Memory.read (byteIndex p) b ||| (1#8 <<< bitOffset p)) b)
  else none

/-- TESTBIT(p), none for OUT_OF_RANGE (41_bit_vector R153). -/
def testBit (l : Nat) (p : Word) (b : Memory) : Option Bool := if inRange l p then some (bitAt b p) else none

/-- CLEARALL on the L bytes being configured: BUF is that many 0x00 bytes, which in the canonical form lists nothing
(41_bit_vector R154). -/
def clearAll : Memory := []

/-- LOADBYTE(i, v) (41_bit_vector R155). -/
def loadByte (i : Nat) (v : Byte) (b : Memory) : Memory := Memory.write i v b

/-- LOADBYTE of the bytes given, in order, from index 0 on a buffer all zero: the buffer a DECODE builds
(43_codec R234). It is `Memory.ofBytes`; `Laws` shows it equal to the loop of `loadByte`. -/
def loadAll (body : List Byte) : Memory := Memory.ofBytes 0 body

/-- READBYTE(i) (41_bit_vector R156). -/
def readByte (i : Nat) (b : Memory) : Byte := Memory.read i b

/-- SETBIT of each position in order, counting rounds from `i`: BUF after all of them, or the first round whose position
is out of range and that position (42_filter_engine R190, R193). -/
def setAll (l i : Nat) : List Word → Memory → Except (Nat × Word) Memory
  | [], b => .ok b
  | p :: ps, b =>
    match setBit l p b with
    | some b' => setAll l (i + 1) ps b'
    | none => .error (i, p)

/-- U2: what a faulting INSERT may leave in BUF, each in-range round's bit set or not as `taken` says
(42_filter_engine R193, 93_implementation_defined U2). -/
def setSome (l : Nat) (taken : Nat → Bool) (i : Nat) : List Word → Memory → Memory
  | [], b => b
  | p :: ps, b => setSome l taken (i + 1) ps (if taken i then (setBit l p b).getD b else b)

/-- TESTBIT of each position in order with the normative short-circuit, counting rounds from `i`: the answer, or the first
round reached whose position is out of range and that position (42_filter_engine R200, R201). -/
def testAll (l i : Nat) : List Word → Memory → Except (Nat × Word) Bool
  | [], _ => .ok true
  | p :: ps, b =>
    match testBit l p b with
    | some true => testAll l (i + 1) ps b
    | some false => .ok false
    | none => .error (i, p)

end Sys2Proof.Machine
end

