-- ==== Sys2Proof/Machine/Flags.lean ====
section
/-! DEFINITION. STATUS, the block's only flags (10_state R23, R41), and the error codes of 60_exceptions R260. -/
namespace Sys2Proof.Machine

/-- TRUNC_HEADER (60_exceptions R260). -/
def errTruncHeader : Byte := 0x01#8
/-- BAD_MAGIC (60_exceptions R260). -/
def errBadMagic : Byte := 0x02#8
/-- BAD_VERSION (60_exceptions R260). -/
def errBadVersion : Byte := 0x03#8
/-- TRUNC_BODY (60_exceptions R260). -/
def errTruncBody : Byte := 0x04#8
/-- IO_ERROR (60_exceptions R260). -/
def errIo : Byte := 0x05#8
/-- BAD_PARAM (60_exceptions R260). -/
def errBadParam : Byte := 0x10#8
/-- CAPACITY (60_exceptions R260). -/
def errCapacity : Byte := 0x11#8
/-- NOT_CONFIGURED (60_exceptions R260). -/
def errNotConfigured : Byte := 0x12#8
/-- ILLEGAL_CMD (60_exceptions R260). -/
def errIllegal : Byte := 0x13#8
/-- FAULTED (60_exceptions R260). -/
def errFaulted : Byte := 0x14#8
/-- FAULT_ZERO_BITCOUNT (60_exceptions R260). -/
def faultZeroBitCount : Byte := 0x20#8
/-- FAULT_POS_RANGE (60_exceptions R260). -/
def faultPosRange : Byte := 0x21#8

/-- The completion codes of 60_exceptions R260, success first; no command produces any other value. -/
def completionCodes : List Byte :=
  [0x00#8, errTruncHeader, errBadMagic, errBadVersion, errTruncBody, errIo, errBadParam, errCapacity, errNotConfigured,
    errIllegal, errFaulted, faultZeroBitCount, faultPosRange]

/-- STATUS (10_state R23): [0] BUSY, [1] CFG_VALID, [2] FAULTED, [3] RESULT, [7:4] 0, [15:8] ERR, [23:16] FAULT_CAUSE,
[31:24] FAULT_ROUND, [63:32] 0. -/
def State.status (s : State) : Word :=
  (0#32) ++ s.faultRound ++ s.faultCause ++ s.err ++ (0#4) ++ BitVec.ofBool s.result ++ BitVec.ofBool s.faulted ++
    BitVec.ofBool s.cfgValid ++ BitVec.ofBool s.busy

end Sys2Proof.Machine
end

