-- ==== Sys2Proof/Machine/HashChain.lean ====
section
/-! DEFINITION. multi_hash_chain (40_hash_chain): DIGEST, NEXTSEED, CHAIN, POSITION. -/
namespace Sys2Proof.Machine

/-- FNV_OFFSET (00_scope R6). -/
def fnvOffset : Word := 0xcbf29ce484222325#64

/-- FNV_PRIME (00_scope R6). -/
def fnvPrime : Word := 0x00000100000001b3#64

/-- One byte of DIGEST: multiply modulo 2^64, then XOR with the zero-extended byte (40_hash_chain R131). -/
def digestByte (acc : Word) (b : Byte) : Word := (acc * fnvPrime) ^^^ b.setWidth 64

/-- DIGEST (40_hash_chain R131), 64-bit FNV-1. -/
def digest (s : List Byte) : Word := s.foldl digestByte fnvOffset

/-- NEXTSEED (40_hash_chain R132): the eight bytes of a digest, least significant first (20_memory R65). -/
def nextSeed (h : Word) : List Byte := (List.range 8).map fun j => h.extractLsb' (8 * j) 8

/-- The next round's digest (40_hash_chain R133). -/
def nextDigest (h : Word) : Word := digest (nextSeed h)

/-- The `n` digests from `h` on, in round order. -/
def chainFrom (h : Word) : Nat → List Word
  | 0 => []
  | n + 1 => h :: chainFrom (nextDigest h) n

/-- CHAIN(w, K) (40_hash_chain R133). -/
def chain (w : List Byte) (k : Byte) : List Word := chainFrom (digest w) k.toNat

/-- POSITION(h, M), applied only with M not 0 (40_hash_chain R134). -/
def position (m : Word) (h : Word) : Word := h % m

/-- The positions of a word's rounds (40_hash_chain R130). -/
def positions (w : List Byte) (k : Byte) (m : Word) : List Word := (chain w k).map (position m)

end Sys2Proof.Machine
end

