-- ==== Sys2Proof/Machine/Operands.lean ====
section
/-! DEFINITION. Every operand form of the commands: the word or the stored filter a command reads from its input packet
beat by beat (20_memory R70 to R74), the rest of a packet it drains (42_filter_engine R173), and the output beats it
offers (20_memory R75, R76). Each function stops where the command stops reading or has to wait. -/
namespace Sys2Proof.Machine

/-- How the reading of a word from a packet stops. -/
inductive WordRead where
  /-- No beat is left and the packet is not ended: the digest and the bytes taken so far. -/
  | waiting (digest : Word) (taken : Nat)
  /-- END: the word's digest and the beats after the packet. -/
  | complete (digest : Word) (rest : List InBeat)
  /-- ERR: the beats after the packet. -/
  | failed (rest : List InBeat)
  deriving DecidableEq, Repr

/-- The word loop of INSERT and QUERY (42_filter_engine R190, R200). -/
def takeWord (h : Word) (taken : Nat) : List InBeat → WordRead
  | [] => .waiting h taken
  | b :: rest =>
    match b.beat with
    | .data d => takeWord (digestByte h d) (taken + 1) rest
    | .endOfPacket => .complete h rest
    | .err => .failed rest

/-- How the reading of a number of bytes from a packet stops. -/
inductive DataStop where
  /-- All the bytes asked for have been taken. -/
  | filled
  /-- No beat is left. -/
  | waiting
  /-- END came first. -/
  | ended
  /-- ERR came first. -/
  | failed
  deriving DecidableEq, Repr

/-- Up to `n` DATA beats: the bytes, how the reading stopped, and the beats left (43_codec R231, R234). A terminator that
stops the reading is consumed. -/
def takeData (n : Nat) : List InBeat → List Byte × DataStop × List InBeat
  | [] => if n = 0 then ([], .filled, []) else ([], .waiting, [])
  | b :: rest =>
    if n = 0 then ([], .filled, b :: rest)
    else
      match b.beat with
      | .data d => (d :: (takeData (n - 1) rest).1, (takeData (n - 1) rest).2)
      | .endOfPacket => ([], .ended, rest)
      | .err => ([], .failed, rest)

/-- How a DRAIN stops: it waits, having taken some bytes of the packet, or the terminator has been taken. -/
inductive DrainRead where
  | waiting (taken : Nat)
  | ended (rest : List InBeat)
  deriving DecidableEq, Repr

/-- DRAIN (42_filter_engine R173): beats are discarded up to and including the terminator, END or ERR alike. -/
def drainBeats (taken : Nat) : List InBeat → DrainRead
  | [] => .waiting taken
  | b :: rest =>
    match b.beat with
    | .data _ => drainBeats (taken + 1) rest
    | .endOfPacket => .ended rest
    | .err => .ended rest

/-- How the offering of output beats stops. -/
inductive SendStop where
  /-- The final beat has been taken. -/
  | sent
  /-- The host reported a write failure. -/
  | failed
  /-- The beat at this offset is offered and has no answer yet. -/
  | waiting (offset : Nat)
  deriving DecidableEq, Repr

/-- `OutWrite` of the beats at offsets from `j` up to `n - 1`, `last` on the final one, one answer each: the beats taken,
how it stopped, and the answers left (20_memory R75, R76, 43_codec R220, R223). -/
def sendBeats (byteAt : Nat → Byte) (n : Nat) (j : Nat) : List Response → List OutBeat × SendStop × List Response
  | [] => ([], .waiting j, [])
  | .fail :: rest => ([], .failed, rest)
  | .take :: rest =>
    let b : OutBeat := { data := byteAt j, last := decide (j + 1 = n) }
    if n ≤ j + 1 then ([b], .sent, rest)
    else (b :: (sendBeats byteAt n (j + 1) rest).1, (sendBeats byteAt n (j + 1) rest).2)

end Sys2Proof.Machine
end

