-- ==== Sys2Proof/Machine/Acceptance.lean ====
section
/-! DEFINITION. What every command shares (42_filter_engine section 1): the pre-checks (R172), the drain of a packet
(R173), and how a command that waited for its terminator finishes. -/
namespace Sys2Proof.Machine

/-- The commands that read one input packet: INSERT, QUERY, DECODE (20_memory R72, 30_encoding R94). -/
def readsPacket : Instr → Bool
  | .create => false
  | .insert => true
  | .query => true
  | .encode => false
  | .decode => true

/-- The commands that need a configured filter: INSERT, QUERY, ENCODE (42_filter_engine R172). -/
def needsFilter : Instr → Bool
  | .create => false
  | .insert => true
  | .query => true
  | .encode => true
  | .decode => false

/-- The pre-checks in their order, with the code of the refusal (42_filter_engine R172, 60_exceptions R265). -/
def refusal (i : Instr) (s : State) : Option Byte :=
  if s.faulted then some errFaulted
  else if needsFilter i && !s.cfgValid then some errNotConfigured
  else none

/-- The end of a command whose packet's terminator has been taken (42_filter_engine R174, 43_codec R234, R236). -/
def finishPacket (fin : Finish) (s : State) : State :=
  match fin with
  | .refuse code => raiseError code s
  | .fail code => raiseError code (unconfigure s)
  | .load k m body => complete false (configure k m (loadAll body) s)

/-- DRAIN, then the command's end; it waits while the packet is not ended (42_filter_engine R173). -/
def drainRun (op : Instr) (fin : Finish) (taken : Nat) (s : State) : State :=
  match drainBeats taken s.inStream with
  | .waiting n => { s with inStream := [], engine := .drain op fin n }
  | .ended rest => finishPacket fin { s with inStream := rest }

/-- A command's pre-checks and then its own work; a refused command that reads a packet drains it first
(42_filter_engine R172). -/
def withChecks (i : Instr) (work : State → State) (s : State) : State :=
  match refusal i s with
  | some code => if readsPacket i then drainRun i (.refuse code) 0 s else raiseError code s
  | none => work s

end Sys2Proof.Machine
end

