-- ==== Sys2Proof/Machine/Codec.lean ====
section
/-! DEFINITION. bloom_codec (43_codec): the stored filter's bytes (30_encoding R99 to R105), ENCODE and DECODE. -/
namespace Sys2Proof.Machine

/-! ### The stored filter -/

/-- HEADER_LEN (00_scope R6). -/
def headerLen : Nat := 16

/-- VERSION, stored as the 16-bit big-endian value 0x0001 (00_scope R6, 30_encoding R101). -/
def version : BitVec 16 := 0x0001#16

/-- The bytes of a 64-bit value, most significant first (30_encoding R103, 20_memory R64). -/
def be64Bytes (m : Word) : List Byte := (List.range 8).map fun j => m.extractLsb' (56 - 8 * j) 8

/-- The value of a byte sequence read most significant byte first (20_memory R64), as a number. -/
def beNat (bs : List Byte) : Nat := bs.foldl (fun acc b => acc * 256 + b.toNat) 0

/-- The 16 header bytes of ENCODE (43_codec R221): magic, version, K widened to two bytes, M big-endian. -/
def headerBytes (s : State) : List Byte :=
  s.params.magic.bytes ++ [version.extractLsb' 8 8, version.extractLsb' 0 8] ++ [0x00#8, s.k] ++ be64Bytes s.m

/-- The byte of the stored filter at an offset: the header, then BUF in index order (43_codec R220, R222). -/
def storedByte (s : State) (j : Nat) : Byte :=
  if j < headerLen then (headerBytes s).getD j 0#8 else readByte (j - headerLen) s.buf

/-- The stored filter's length 16 + L (30_encoding R105). -/
def storedLen (s : State) : Nat := headerLen + s.bufLen

/-- The stored filter of a state's K, M and BUF (30_encoding R99). -/
def storedFilter (s : State) : List Byte := (List.range (storedLen s)).map (storedByte s)

/-- The output beats of a complete ENCODE: `last` on the final one only (20_memory R76). -/
def storedBeats (s : State) : List OutBeat :=
  (List.range (storedLen s)).map fun j => { data := storedByte s j, last := decide (j + 1 = storedLen s) }

/-- The version field of a header (30_encoding R101). -/
def headerVersion (hdr : List Byte) : BitVec 16 := BitVec.ofNat 16 (beNat ((hdr.drop 4).take 2))

/-- K of a header: the low byte of the hashRounds field; the high byte is ignored (30_encoding R102). -/
def headerK (hdr : List Byte) : Byte := hdr.getD 7 0#8

/-- M of a header (30_encoding R103). -/
def headerM (hdr : List Byte) : Word := BitVec.ofNat 64 (beNat ((hdr.drop 8).take 8))

/-! ### ENCODE -/

/-- ENCODE's beats from offset `j` on; it waits while a beat has no answer (43_codec R220, R223). -/
def sendRun (j : Nat) (s : State) : State :=
  let r := sendBeats (storedByte s) (storedLen s) j s.answers
  let t := { s with outLog := s.outLog ++ r.1, answers := r.2.2 }
  match r.2.1 with
  | .sent => complete false t
  | .failed => raiseError errIo t
  | .waiting j' => { t with engine := .sending j' }

/-- ENCODE from its pre-checks on. -/
def encodeRun (s : State) : State := withChecks .encode (sendRun 0) s

/-- ENCODE (43_codec R220 to R226). -/
def execEncode (s : State) : Host.Outcome State Fault Refusal := onAccept (.instr .encode) encodeRun s

/-- The output beat the block offers and waits with (20_memory R75). -/
def State.offered (s : State) : Option OutBeat :=
  match s.engine with
  | .sending j => some { data := storedByte s j, last := decide (j + 1 = storedLen s) }
  | .idle => none
  | .accepted _ => none
  | .word _ _ _ => none
  | .rounds _ _ _ => none
  | .header _ => none
  | .body _ _ _ => none
  | .drain _ _ _ => none

/-! ### DECODE -/

/-- DECODE's FAIL(code) where the packet's terminator has been taken (43_codec R230, R236). -/
def failDecode (code : Byte) (s : State) : State := finishPacket (.fail code) s

/-- DECODE's body, `got` read so far: the rest of the L' bytes, then the drain of trailing beats and success; TRUNC_BODY at
END, IO_ERROR at ERR (43_codec R234, R235). -/
def bodyRun (k : Byte) (m : Word) (got : List Byte) (s : State) : State :=
  let r := takeData (byteLen m - got.length) s.inStream
  let t := { s with inStream := r.2.2 }
  match r.2.1 with
  | .filled => drainRun .decode (.load k m (got ++ r.1)) (headerLen + byteLen m) t
  | .waiting => { t with engine := .body k m (got ++ r.1) }
  | .ended => failDecode errTruncBody t
  | .failed => failDecode errIo t

/-- DECODE's checks of a complete header, in order: magic, version, capacity; then the body (43_codec R232, R233). A
failing check drains the packet first. -/
def validateHeader (hdr : List Byte) (s : State) : State :=
  if hdr.take 4 ≠ s.params.magic.bytes then drainRun .decode (.fail errBadMagic) headerLen s
  else if headerVersion hdr ≠ version then drainRun .decode (.fail errBadVersion) headerLen s
  else if s.params.maxBufBytes < byteLen (headerM hdr) then drainRun .decode (.fail errCapacity) headerLen s
  else bodyRun (headerK hdr) (headerM hdr) [] s

/-- DECODE's header, `got` read so far: exactly 16 bytes before anything is checked; TRUNC_HEADER at END, IO_ERROR at ERR
(43_codec R231). -/
def headerRun (got : List Byte) (s : State) : State :=
  let r := takeData (headerLen - got.length) s.inStream
  let t := { s with inStream := r.2.2 }
  match r.2.1 with
  | .filled => validateHeader (got ++ r.1) t
  | .waiting => { t with engine := .header (got ++ r.1) }
  | .ended => failDecode errTruncHeader t
  | .failed => failDecode errIo t

/-- DECODE from its pre-check on. -/
def decodeRun (s : State) : State := withChecks .decode (headerRun []) s

/-- DECODE (43_codec R230 to R240). -/
def execDecode (s : State) : Host.Outcome State Fault Refusal := onAccept (.instr .decode) decodeRun s

end Sys2Proof.Machine
end

