-- ==== Sys2Proof/Machine/Float.lean ====
section
/-! DEFINITION. The binary64 arithmetic of CREATE (00_scope R10, 42_filter_engine R183): values read from bit patterns,
negation, multiplication and division rounded to nearest, ties to even, the IEEE comparisons, and truncation. Only values
are modelled: no rule of the block reads a computed bit pattern, so a NaN has no payload here (log 13). -/
namespace Sys2Proof.Machine

/-- A binary64 value. `fin neg m e` is (-1)^neg * m * 2^e; the two zeros are `fin neg 0 e`. -/
inductive F64 where
  | nan
  | inf (neg : Bool)
  | fin (neg : Bool) (mant : Nat) (exp : Int)
  deriving DecidableEq, Repr

/-- `F64(bits)`: the value with that bit pattern; sign [63], biased exponent [62:52], fraction [51:0]
(00_scope R10, 30_encoding R106). -/
def F64.ofBits (w : Word) : F64 :=
  let neg := decide (w.extractLsb' 63 1 = 1#1)
  let biased := (w.extractLsb' 52 11).toNat
  let frac := (w.extractLsb' 0 52).toNat
  if biased = 2047 then (if frac = 0 then .inf neg else .nan)
  else if biased = 0 then .fin neg frac (-1074)
  else .fin neg (2 ^ 52 + frac) ((biased : Int) - 1075)

/-- The integer nearest to num/den, ties to the even one. -/
def nearestEven (num den : Nat) : Nat :=
  let q := num / den
  let r := num % den
  if den < 2 * r ∨ (2 * r = den ∧ q % 2 = 1) then q + 1 else q

/-- num / (den * 2^e) as a fraction of two naturals. -/
def scaledFraction (num den : Nat) (e : Int) : Nat × Nat := (num * 2 ^ (-e).toNat, den * 2 ^ e.toNat)

/-- The exponent at which the positive rational num/den has a significand of 53 bits, or the least exponent -1074. -/
def quotExponent (num den : Nat) : Int :=
  let e := (num.log2 : Int) - (den.log2 : Int) - 52
  let f := scaledFraction num den e
  max (if f.1 / f.2 < 2 ^ 52 then e - 1 else e) (-1074)

/-- A finite value unless its exponent is above the largest, where rounding overflows to infinity. -/
def F64.pack (neg : Bool) (mant : Nat) (exp : Int) : F64 := if 971 < exp then .inf neg else .fin neg mant exp

/-- The binary64 value nearest to the rational num/den (den not 0), ties to even, with the sign given (00_scope R10). -/
def F64.roundQuot (neg : Bool) (num den : Nat) : F64 :=
  if num = 0 then .fin neg 0 (-1074)
  else
    let e := quotExponent num den
    let f := scaledFraction num den e
    let q := nearestEven f.1 f.2
    if q = 2 ^ 53 then .pack neg (2 ^ 52) (e + 1) else .pack neg q e

/-- `neg(a)` (00_scope R10). -/
def F64.neg : F64 → F64
  | .nan => .nan
  | .inf s => .inf (!s)
  | .fin s m e => .fin (!s) m e

/-- `a (*) b` (00_scope R10). -/
def F64.mul : F64 → F64 → F64
  | .nan, _ => .nan
  | _, .nan => .nan
  | .inf s, .inf t => .inf (s != t)
  | .inf s, .fin t m _ => if m = 0 then .nan else .inf (s != t)
  | .fin s m _, .inf t => if m = 0 then .nan else .inf (s != t)
  | .fin s m e, .fin t n f => .roundQuot (s != t) (m * n * 2 ^ (e + f).toNat) (2 ^ (-(e + f)).toNat)

/-- `a (/) b` (00_scope R10). -/
def F64.div : F64 → F64 → F64
  | .nan, _ => .nan
  | _, .nan => .nan
  | .inf _, .inf _ => .nan
  | .inf s, .fin t _ _ => .inf (s != t)
  | .fin s _ _, .inf t => .fin (s != t) 0 (-1074)
  | .fin s m e, .fin t n f =>
    if n = 0 then (if m = 0 then .nan else .inf (s != t))
    else .roundQuot (s != t) (m * 2 ^ (e - f).toNat) (n * 2 ^ (-(e - f)).toNat)

/-- A finite value's numerator over 2^g, for g at most its exponent. -/
def signedMant (neg : Bool) (m : Nat) (e g : Int) : Int :=
  let a : Int := (m * 2 ^ (e - g).toNat : Nat)
  if neg then -a else a

/-- IEEE `<`, false when either operand is NaN (00_scope R10). -/
def F64.lt : F64 → F64 → Bool
  | .nan, _ => false
  | _, .nan => false
  | .inf s, .inf t => s && !t
  | .inf s, .fin _ _ _ => s
  | .fin _ _ _, .inf t => !t
  | .fin s m e, .fin t n f => decide (signedMant s m e (min e f) < signedMant t n f (min e f))

/-- Whether a value is NaN. -/
def F64.isNan : F64 → Bool
  | .nan => true
  | .inf _ => false
  | .fin _ _ _ => false

/-- IEEE `<=`, false when either operand is NaN (00_scope R10). -/
def F64.le (a b : F64) : Bool := !a.isNan && !b.isNan && !b.lt a

/-- `trunc_to_int`: the fractional part is discarded (00_scope R10). The rules apply it to finite values that are not
below zero; the sign of a zero is dropped. -/
def F64.truncToNat : F64 → Nat
  | .nan => 0
  | .inf _ => 0
  | .fin _ m e => if 0 ≤ e then m * 2 ^ e.toNat else m / 2 ^ (-e).toNat

/-- The bit pattern of 2.0, LN's argument for LN2 (42_filter_engine R181). -/
def twoBits : Word := 0x4000000000000000#64

/-- 0.0. -/
def F64.zero : F64 := .fin false 0 (-1074)

/-- 1.0. -/
def F64.one : F64 := .fin false 1 0

/-- 256.0, the first value that does not fit K (42_filter_engine R181). -/
def F64.twoPow8 : F64 := .fin false 1 8

/-- 18446744073709551616.0 = 2^64, the first value that does not fit M (42_filter_engine R181). -/
def F64.twoPow64 : F64 := .fin false 1 64

/-- bitCount_f = ((-n) (*) LN(p)) (/) (LN2 (*) LN2), left to right as written (42_filter_engine R183). -/
def bitCountF (ln : Word → Word) (argN argP : Word) : F64 :=
  let ln2 := F64.ofBits (ln twoBits)
  ((F64.ofBits argN).neg.mul (F64.ofBits (ln argP))).div (ln2.mul ln2)

/-- hashRounds_f = (bitCount_f (/) n) (*) LN2 (42_filter_engine R183). -/
def hashRoundsF (ln : Word → Word) (argN argP : Word) : F64 :=
  ((bitCountF ln argN argP).div (F64.ofBits argN)).mul (F64.ofBits (ln twoBits))

/-- CREATE's precondition n > 0 and 0 < p < 1, false for a NaN (42_filter_engine R181, R182). -/
def argsInRange (argN argP : Word) : Bool :=
  F64.zero.lt (F64.ofBits argN) && F64.zero.lt (F64.ofBits argP) && (F64.ofBits argP).lt F64.one

/-- The sizes K' and M' of a CREATE, or none for BAD_PARAM (42_filter_engine R181 to R183). -/
def sizing (ln : Word → Word) (argN argP : Word) : Option (Byte × Word) :=
  if argsInRange argN argP then
    let bf := bitCountF ln argN argP
    let hf := hashRoundsF ln argN argP
    if F64.zero.le bf && bf.lt F64.twoPow64 && F64.zero.le hf && hf.lt F64.twoPow8 then
      some (BitVec.ofNat 8 hf.truncToNat, BitVec.ofNat 64 bf.truncToNat)
    else none
  else none

end Sys2Proof.Machine
end

