-- ==== Sys2Proof/Machine/Filter.lean ====
section
/-! DEFINITION. The filter engine's commands (42_filter_engine): CREATE, INSERT, QUERY, and ILLEGAL. -/
namespace Sys2Proof.Machine

/-! ### CREATE -/

/-- CREATE's own work: BAD_PARAM, then CAPACITY, else a new filter of L' zero bytes (42_filter_engine R181, R184, R185). -/
def createWork (s : State) : State :=
  match sizing s.params.ln s.argN s.argP with
  | none => raiseError errBadParam s
  | some (k, m) =>
    if s.params.maxBufBytes < byteLen m then raiseError errCapacity s
    else complete false (configure k m clearAll s)

/-- CREATE from its pre-check on. -/
def createRun (s : State) : State := withChecks .create createWork s

/-- CREATE (42_filter_engine R180 to R187). -/
def execCreate (s : State) : Host.Outcome State Fault Refusal := onAccept (.instr .create) createRun s

/-! ### INSERT and QUERY -/

/-- The positions of the rounds from round `i` on, whose digest is `h` (40_hash_chain R133, R134). -/
def roundPositions (s : State) (h : Word) (i : Nat) : List Word :=
  (chainFrom h (s.k.toNat - i)).map (position s.m)

/-- INSERT's rounds (42_filter_engine R190 to R193). On a POS_RANGE fault BUF is what U2 allows (log 7). -/
def insertRounds (h : Word) (i : Nat) (s : State) : State :=
  match setAll s.bufLen i (roundPositions s h i) s.buf with
  | .ok b => complete false { s with buf := b, insertedCount := s.insertedCount + 1#64 }
  | .error (j, p) =>
    raiseFault faultPosRange j p
      { s with
        buf := setSome s.bufLen (Config.setTaken s.draws) i (roundPositions s h i) s.buf
        draws := s.draws + 1 }

/-- QUERY's rounds with the normative short-circuit (42_filter_engine R200 to R202). -/
def queryRounds (h : Word) (i : Nat) (s : State) : State :=
  match testAll s.bufLen i (roundPositions s h i) s.buf with
  | .ok answer => complete answer s
  | .error (j, p) => raiseFault faultPosRange j p s

/-- The rounds of a word command, in `Engine.rounds`: with K at least 1 and M = 0 the ZERO_BITCOUNT fault first
(42_filter_engine R191, R202). -/
def roundsRun (op : WordOp) (h : Word) (i : Nat) (s : State) : State :=
  if s.k ≠ 0#8 ∧ s.m = 0#64 then raiseFault faultZeroBitCount 0 0#64 s
  else
    match op with
    | .insert => insertRounds h i s
    | .query => queryRounds h i s

/-- The word loop, then the rounds (42_filter_engine R190, R200). No round starts before END is taken (40_hash_chain
R136); an ERR packet is IO_ERROR. -/
def wordRun (op : WordOp) (h : Word) (taken : Nat) (s : State) : State :=
  match takeWord h taken s.inStream with
  | .waiting h' n => { s with inStream := [], engine := .word op h' n }
  | .complete h' rest => roundsRun op h' 0 { s with inStream := rest, engine := .rounds op h' 0 }
  | .failed rest => raiseError errIo { s with inStream := rest }

/-- INSERT from its pre-checks on. -/
def insertRun (s : State) : State := withChecks .insert (wordRun .insert fnvOffset 0) s

/-- INSERT (42_filter_engine R190 to R195). -/
def execInsert (s : State) : Host.Outcome State Fault Refusal := onAccept (.instr .insert) insertRun s

/-- QUERY from its pre-checks on. -/
def queryRun (s : State) : State := withChecks .query (wordRun .query fnvOffset 0) s

/-- QUERY (42_filter_engine R200 to R204). -/
def execQuery (s : State) : Host.Outcome State Fault Refusal := onAccept (.instr .query) queryRun s

/-! ### ILLEGAL -/

/-- ILLEGAL's own work; it runs before the FAULTED check (42_filter_engine R176, 60_exceptions R265). -/
def illegalRun (s : State) : State := raiseError errIllegal s

/-- ILLEGAL (42_filter_engine R176): any command word outside the opcode map. -/
def execIllegal (s : State) : Host.Outcome State Fault Refusal := onAccept .illegal illegalRun s

end Sys2Proof.Machine
end

