-- ==== Sys2Proof/Machine/Engine.lean ====
section
/-! DEFINITION. The engine's next move from any hidden state (10_state R38), and the views of that state the rules name:
the current opcode, the packet flag, and the codec's two state machines (43_codec R226, R237). -/
namespace Sys2Proof.Machine

/-- An accepted command's work. -/
def commandRun (c : Command) (s : State) : State :=
  match c with
  | .instr .create => createRun s
  | .instr .insert => insertRun s
  | .instr .query => queryRun s
  | .instr .encode => encodeRun s
  | .instr .decode => decodeRun s
  | .illegal => illegalRun s

/-- The engine runs its current command from where it stands until it completes or waits for the host; an idle engine
does nothing (00_scope R15, 20_memory R70, R75). It takes every beat it needs in one move: that the host's next interaction comes
before or after the move is log 4 (DESIGN CHOICE), and where a reset cuts the move off is log 17 (`cutInput`). -/
def resume (s : State) : State :=
  match s.engine with
  | .idle => s
  | .accepted c => commandRun c s
  | .word op h n => wordRun op h n s
  | .rounds op h i => roundsRun op h i s
  | .header got => headerRun got s
  | .body k m got => bodyRun k m got s
  | .drain op fin n => drainRun op fin n s
  | .sending j => sendRun j s

/-- The current opcode (10_state R38). -/
def Engine.opcode : Engine → Option Command
  | .idle => none
  | .accepted c => some c
  | .word .insert _ _ => some (.instr .insert)
  | .word .query _ _ => some (.instr .query)
  | .rounds .insert _ _ => some (.instr .insert)
  | .rounds .query _ _ => some (.instr .query)
  | .header _ => some (.instr .decode)
  | .body _ _ _ => some (.instr .decode)
  | .drain op _ _ => some (.instr op)
  | .sending _ => some (.instr .encode)

/-- The bytes consumed so far in the current packet (10_state R38). -/
def Engine.taken : Engine → Nat
  | .idle => 0
  | .accepted _ => 0
  | .word _ _ n => n
  | .rounds _ _ _ => 0
  | .header bytes => bytes.length
  | .body _ _ bytes => headerLen + bytes.length
  | .drain _ _ n => n
  | .sending _ => 0

/-- The input stream is inside a packet: some of the current packet's beats have been taken and its terminator has not
(10_state R38, R43). -/
def State.inPacket (s : State) : Bool := decide (0 < s.engine.taken)

/-- The codec's states (43_codec R226, R237). ENCODE's BodyWritten and DECODE's Complete are reached in the very step that
completes the command and discards the state (10_state R35, R38): `State.codecReached` names them. DEDUCED, log 16. -/
inductive CodecState where
  | uninitialized
  | headerWritten
  | bodyWritten
  | headerValidated
  | bodyRead
  | complete
  deriving DecidableEq, Repr

/-- ENCODE's state when the host has taken the `offset` beats below that offset, with a body of `l` bytes
(43_codec R226). -/
def encodeState (offset l : Nat) : CodecState :=
  if offset < headerLen then .uninitialized
  else if offset < headerLen + l then .headerWritten
  else .bodyWritten

/-- The codec's current state (43_codec R226, R237): DECODE is Uninitialized until its header is validated, HeaderValidated
through the body, and BodyRead while trailing beats are drained. The drain of a refused DECODE, or of one whose header failed a
check, comes before HeaderValidated, so it is Uninitialized until completion discards the state (10_state R38). None while the
engine is idle or runs another command. -/
def State.codecState (s : State) : Option CodecState :=
  match s.engine with
  | .accepted (.instr .encode) => some .uninitialized
  | .sending j => some (encodeState j s.bufLen)
  | .accepted (.instr .decode) => some .uninitialized
  | .header _ => some .uninitialized
  | .body _ _ _ => some .headerValidated
  | .drain .decode (.refuse _) _ => some .uninitialized
  | .drain .decode (.fail _) _ => some .uninitialized
  | .drain .decode (.load _ _ _) _ => some .bodyRead
  | .idle => none
  | .accepted _ => none
  | .word _ _ _ => none
  | .rounds _ _ _ => none
  | .drain .create _ _ => none
  | .drain .insert _ _ => none
  | .drain .query _ _ => none
  | .drain .encode _ _ => none

/-- The codec state a command reaches when it completes with ERR = 0x00: BodyWritten for ENCODE once the host has taken the
final beat (43_codec R226), Complete for DECODE once the terminator is consumed and the registers are written (R237). -/
def finalCodecState : Command → Option CodecState
  | .instr .create => none
  | .instr .insert => none
  | .instr .query => none
  | .instr .encode => some .bodyWritten
  | .instr .decode => some .complete
  | .illegal => none

/-- The codec state the engine's next move reaches: where the command still runs after it, the current one; where the move
completes the command, the state reached before completion discards it, and none after a failure, which ends the command
(43_codec R226, R236, R237). -/
def State.codecReached (s : State) : Option CodecState :=
  if (resume s).busy then (resume s).codecState
  else if (resume s).err = 0x00#8 then s.engine.opcode.bind finalCodecState
  else none

end Sys2Proof.Machine
end

