-- ==== Sys2Proof/Machine/Port.lean ====
section
/-! DEFINITION. The host's interactions with the block (70_reset_and_hazards R301): the register port (30_encoding R91,
R92), the two streams, and reset. -/
namespace Sys2Proof.Machine

/-- What a register read returns while BUSY = 0 (30_encoding R92, 10_state R21). -/
def readReg (s : State) (idx : BitVec 4) : Word :=
  match idx.toNat with
  | 1 => s.status
  | 2 => s.argN
  | 3 => s.argP
  | 4 => s.k.setWidth 64
  | 5 => s.m
  | 6 => s.m >>> 3
  | 7 => s.insertedCount
  | 8 => s.faultInfo
  | _ => 0#64

/-- HASH_ROUNDS, BIT_COUNT, BUF_LEN, INSERTED_COUNT, FAULT_INFO: unspecified while BUSY = 1 (10_state R35). -/
def unstable (idx : BitVec 4) : Bool := decide (4 ≤ idx.toNat ∧ idx.toNat ≤ 8)

/-- A host read: the value goes to the host, and no state of the block changes (10_state R34). While BUSY = 1 a read of an
unstable register draws a free value (U1, log 6). -/
def hostRead (idx : BitVec 4) (s : State) : State :=
  if s.busy && unstable idx then
    { s with readLog := s.readLog ++ [Config.busyRead s.draws], draws := s.draws + 1 }
  else { s with readLog := s.readLog ++ [readReg s idx] }

/-- A host write other than to CMD: ARG_N and ARG_P store while BUSY = 0, and every other write is ignored (10_state R24,
R25, R33 to R35). -/
def hostWrite (idx : BitVec 4) (data : Word) (s : State) : State :=
  if s.busy then s
  else
    match idx.toNat with
    | 2 => { s with argN := data }
    | 3 => { s with argP := data }
    | _ => s

/-- The engine's move after a host interaction, unless the host's next one comes first (DESIGN CHOICE, log 4). A reset that
comes first finds the command with any number of its waiting beats taken (log 17, `cutInput`). -/
def settle (overlap : Bool) (s : State) : State := if overlap then s else resume s

/-- A host write to CMD (10_state R22, 42_filter_engine R170): ignored while BUSY = 1; else the word is decoded and the
command accepted, and the engine runs it unless the host's next interaction comes first. -/
def commandWrite (overlap : Bool) (w : Word) (s : State) : Host.Outcome State Fault Refusal :=
  if s.busy then .next (settle overlap s)
  else
    match decode w with
    | .ok i => if overlap then .next (accept (.instr i) s) else exec i s
    | .error _ => if overlap then .next (accept .illegal s) else execIllegal s

/-- One register access (30_encoding R91): dir 1 writes, dir 0 reads; index 0 is CMD. -/
def registerAccess (overlap : Bool) (a : RegAccess) (s : State) : Host.Outcome State Fault Refusal :=
  if a.dir = 0#1 then .next (settle overlap (hostRead a.idx s))
  else if a.idx = 0#4 then commandWrite overlap a.data s
  else .next (settle overlap (hostWrite a.idx a.data s))

/-- What a reset leaves of the beats that wait on the stream: the command it cuts off has taken some number of those the engine's
next move would take, a free number, since the rules give no timing (20_memory R73, 70_reset_and_hazards R290, R297). An idle
block has taken none. DESIGN CHOICE, log 17, safe. -/
def cutInput (s : State) : State :=
  { s with
    inStream := s.inStream.drop
      (Config.resetTaken s.draws % (s.inStream.length - (resume s).inStream.length + 1)) }

/-- One host interaction (70_reset_and_hazards R301). -/
def hostTurn (ev : HostEvent) (s : State) : Host.Outcome State Fault Refusal :=
  match ev.op with
  | .access a => registerAccess ev.overlap a s
  | .offer b => .next (settle ev.overlap { s with inStream := s.inStream ++ [b] })
  | .answer r => .next (settle ev.overlap { s with answers := s.answers ++ [r] })
  | .reset => .next (settle ev.overlap (resetBlock (cutInput s)))

/-- A command word written to CMD with the engine running it at once. -/
def cmdEvent (w : Word) : HostEvent := { op := .access { dir := 1#1, idx := 0#4, data := w }, overlap := false }

end Sys2Proof.Machine
end

