-- ==== Sys2Proof/Machine/Step.lean ====
section
/-! DEFINITION. One step of the machine: the host's next interaction, or, when none is left, the engine's move. -/
namespace Sys2Proof.Machine

/-- One step (00_scope R15, 20_memory R80). With no host interaction left the engine moves as far as it can, and an idle or
waiting block stays as it is (70_reset_and_hazards R296; log 11). `Machine/Run.lean` tells a run's end from the hang. -/
def step (s : State) : Host.Outcome State Fault Refusal :=
  match s.host with
  | [] => .next (resume s)
  | ev :: rest => hostTurn ev { s with host := rest }

/-- `s` with a write of that command word to CMD as the host's next interaction and the engine free to accept it
(log 3). -/
def State.withFetchWord (s : State) (nbits w : Nat) : State :=
  { s with engine := .idle, host := cmdEvent (BitVec.ofNat 64 (w % 2 ^ nbits)) :: s.host }

end Sys2Proof.Machine
end

