-- ==== Sys2Proof/Machine/Run.lean ====
section
/-! DEFINITION. The end of a run, its outcome, and the hang (70_reset_and_hazards R296, R302). -/
namespace Sys2Proof.Machine

/-- A write to CMD, whatever its word (30_encoding R91, R92). -/
def writesCmd : HostOp → Bool
  | .access a => decide (a.dir = 1#1 ∧ a.idx = 0#4)
  | .offer _ => false
  | .answer _ => false
  | .reset => false

/-- The run has ended: BUSY = 0, the host makes no further CMD write, and no stream beat is pending (70_reset_and_hazards R302).
An input beat is pending when it is offered and not taken; an output beat only while an ENCODE, and so BUSY, waits for its
answer. A faulted block that the host never resets has ended too. DEDUCED, log 18. -/
def State.ended (s : State) : Bool :=
  !s.busy && s.host.all (fun ev => !writesCmd ev.op) && s.inStream.isEmpty && s.offered.isNone

/-- The hang: the host does nothing more, BUSY = 1, and the engine cannot move (70_reset_and_hazards R296, R302, U8). A run that
stops so has not ended. -/
def State.hung (s : State) : Bool := s.busy && s.host.isEmpty && decide (resume s = s)

/-- A run's outcome: the register state, by index, the BUF state, its L bytes, and the output beats (70_reset_and_hazards R302).
FAULTED is part of it, in STATUS. -/
structure RunOutcome where
  registers : List Word
  buf : List Byte
  output : List OutBeat
  deriving DecidableEq, Repr

/-- The outcome of a run that has ended, none for one that has not (70_reset_and_hazards R302). -/
def State.outcome (s : State) : Option RunOutcome :=
  if s.ended then
    some
      { registers := (List.range 16).map fun i => readReg s (BitVec.ofNat 4 i)
        buf := (List.range s.bufLen).map fun i => readByte i s.buf
        output := s.outLog }
  else none

end Sys2Proof.Machine
end

