-- ==== Sys2Proof/Machine/Script.lean ====
section
/-! DEFINITION. The host script of 30_encoding R109 and its pseudo-operations (R110), expanded into host interactions. -/
namespace Sys2Proof.Machine

/-- The named registers (30_encoding R92). -/
inductive RegName where
  | cmd
  | status
  | argN
  | argP
  | hashRounds
  | bitCount
  | bufLen
  | insertedCount
  | faultInfo
  deriving DecidableEq, Repr

/-- A register's index (30_encoding R92). -/
def regIndex : RegName → BitVec 4
  | .cmd => 0#4
  | .status => 1#4
  | .argN => 2#4
  | .argP => 3#4
  | .hashRounds => 4#4
  | .bitCount => 5#4
  | .bufLen => 6#4
  | .insertedCount => 7#4
  | .faultInfo => 8#4

/-- A script's base operations (30_encoding R109). RECV names the number of beats it accepts, which R109 leaves to the
beat with `last`; WAIT is one read of STATUS, since a command that needs no more of the host is complete before the host's
next interaction. DESIGN CHOICE, log 14, safe. -/
inductive ScriptOp where
  | wr (reg : RegName) (imm : Word)
  | rd (reg : RegName)
  | cmd (i : Instr)
  | cmdw (imm : Word)
  | sendEnd (bytes : List Byte)
  | sendErr (bytes : List Byte)
  | recv (n : Nat)
  | recvFail (n : Nat)
  | wait
  | reset
  deriving DecidableEq, Repr

/-- A host interaction after which the engine moves. -/
def plainEvent (op : HostOp) : HostEvent := { op := op, overlap := false }

/-- The REGACC triple of a register write (30_encoding R91). -/
def writeEvent (idx : BitVec 4) (imm : Word) : HostEvent :=
  plainEvent (.access { dir := 1#1, idx := idx, data := imm })

/-- The REGACC triple of a register read (30_encoding R91). -/
def readEvent (idx : BitVec 4) : HostEvent := plainEvent (.access { dir := 0#1, idx := idx, data := 0#64 })

/-- The interactions of one script operation (30_encoding R109). -/
def expandOp : ScriptOp → List HostEvent
  | .wr reg imm => [writeEvent (regIndex reg) imm]
  | .rd reg => [readEvent (regIndex reg)]
  | .cmd i => [writeEvent 0#4 (encode i)]
  | .cmdw imm => [writeEvent 0#4 imm]
  | .sendEnd bytes => (packetOf bytes).map fun b => plainEvent (.offer b)
  | .sendErr bytes => (bytes.map InBeat.ofByte ++ [InBeat.failure]).map fun b => plainEvent (.offer b)
  | .recv n => List.replicate n (plainEvent (.answer .take))
  | .recvFail n => List.replicate n (plainEvent (.answer .take)) ++ [plainEvent (.answer .fail)]
  | .wait => [readEvent (regIndex .status)]
  | .reset => [plainEvent .reset]

/-- The interactions of a script, one operation after another. -/
def expand (ops : List ScriptOp) : List HostEvent := ops.flatMap expandOp

/-- `CREATE <n>, <p>`, on the operands' binary64 patterns (30_encoding R110). -/
def scriptCreate (n p : Word) : List ScriptOp := [.wr .argN n, .wr .argP p, .cmd .create, .wait]

/-- `INSERT <bytes>` (30_encoding R110). -/
def scriptInsert (bytes : List Byte) : List ScriptOp := [.cmd .insert, .sendEnd bytes, .wait]

/-- `QUERY <bytes>` (30_encoding R110). -/
def scriptQuery (bytes : List Byte) : List ScriptOp := [.cmd .query, .sendEnd bytes, .wait, .rd .status]

/-- `ENCODE`, taking `n` beats (30_encoding R110). -/
def scriptEncode (n : Nat) : List ScriptOp := [.cmd .encode, .recv n, .wait]

/-- `DECODE <bytes>` (30_encoding R110). -/
def scriptDecode (bytes : List Byte) : List ScriptOp := [.cmd .decode, .sendEnd bytes, .wait]

end Sys2Proof.Machine
end

