-- ==== Sys2Proof/Safety.lean ====
section
/-! DEFINITION. What statements about the block are said in: when a command may run, what the input stream offers, the
invariant of the machine, and the interactions that leave a filter in place. -/
namespace Sys2Proof.Machine

/-- The engine is idle and no sticky fault is held: CREATE and DECODE run (42_filter_engine R172). -/
structure State.Ready (s : State) : Prop where
  idle : s.engine = .idle
  unfaulted : s.faulted = false

/-- A filter is configured as well: INSERT, QUERY and ENCODE run (42_filter_engine R172). -/
structure State.Usable (s : State) : Prop extends State.Ready s where
  configured : s.cfgValid = true

/-- The stream offers a packet with these DATA bytes and this terminator, and then `rest` (20_memory R71). Any kind of
beat that means the same is allowed (30_encoding R97). -/
def OffersPacket (beats : List InBeat) (bytes : List Byte) (term : Beat) (rest : List InBeat) : Prop :=
  ∃ ds e, beats = ds ++ e :: rest ∧ ds.map InBeat.beat = bytes.map Beat.data ∧ e.beat = term ∧
    (term = .endOfPacket ∨ term = .err)

/-- The stream offers DATA bytes only: the packet is not ended yet. -/
def OffersOpen (beats : List InBeat) (bytes : List Byte) : Prop := beats.map InBeat.beat = bytes.map Beat.data

/-- What the hidden execution state requires of the rest (10_state R38): each sub-state is entered only past the checks
before it. -/
def EngineOk (s : State) : Prop :=
  match s.engine with
  | .idle => True
  | .accepted _ => True
  | .word _ _ _ => s.faulted = false ∧ s.cfgValid = true
  | .rounds _ _ i => s.faulted = false ∧ s.cfgValid = true ∧ i ≤ s.k.toNat
  | .header bytes => s.faulted = false ∧ bytes.length < headerLen
  | .body _ m bytes => s.faulted = false ∧ bytes.length < byteLen m ∧ byteLen m ≤ s.params.maxBufBytes
  | .drain op fin _ =>
    readsPacket op = true ∧
      match fin with
      | .refuse code => code = errFaulted ∨ code = errNotConfigured
      | .fail code =>
        s.faulted = false ∧ op = .decode ∧ (code = errBadMagic ∨ code = errBadVersion ∨ code = errCapacity)
      | .load _ m body =>
        s.faulted = false ∧ op = .decode ∧ body.length = byteLen m ∧ byteLen m ≤ s.params.maxBufBytes
  | .sending j => s.faulted = false ∧ s.cfgValid = true ∧ j < storedLen s

/-- The invariant of the machine. -/
structure Inv (s : State) : Prop where
  /-- BUF is in canonical form. -/
  bufWf : Memory.wf s.buf = true
  /-- The OPEN parameters are in range (00_scope R6). -/
  paramsWf : s.params.wf = true
  /-- ERR is one of the codes of 60_exceptions R260. -/
  errListed : s.err ∈ completionCodes
  /-- RESULT is 1 only after a command that completed with ERR = 0x00 (10_state R23). -/
  resultClean : s.result = true → s.err = 0x00#8
  /-- While FAULTED = 0 the fault fields read 0 (10_state R23, R32). -/
  noFault : s.faulted = false → s.faultCause = 0x00#8 ∧ s.faultRound = 0x00#8 ∧ s.faultInfo = 0#64
  /-- What a held fault records (60_exceptions R264, 10_state R32). -/
  fault : s.faulted = true → s.cfgValid = true ∧
    ((s.faultCause = faultZeroBitCount ∧ s.faultRound = 0x00#8 ∧ s.faultInfo = 0#64 ∧ s.k ≠ 0#8 ∧ s.m = 0#64) ∨
      (s.faultCause = faultPosRange ∧ s.faultRound.toNat < s.k.toNat ∧ 8 * s.bufLen ≤ s.faultInfo.toNat ∧
        s.faultInfo.toNat < s.m.toNat))
  /-- A configured filter has L bytes and L fits the storage (10_state R31, R36). -/
  filter : s.cfgValid = true → s.bufLen ≤ s.params.maxBufBytes ∧ Memory.below s.bufLen s.buf = true
  /-- With no filter the registers of one read 0 (10_state R43, 43_codec R236). -/
  noFilter : s.cfgValid = false → s.k = 0#8 ∧ s.m = 0#64 ∧ s.insertedCount = 0#64
  /-- The hidden execution state fits. -/
  engineOk : EngineOk s

/-- The word's rounds all have storage, and every bit is 1: what INSERT leaves and QUERY tests (42_filter_engine R205). -/
structure Holds (w : List Byte) (s : State) : Prop where
  configured : s.cfgValid = true
  stored : ∀ p ∈ positions w s.k s.m, inRange s.bufLen p = true
  allSet : ∀ p ∈ positions w s.k s.m, bitAt s.buf p = true

/-- A host interaction that neither resets the block nor starts a CREATE or a DECODE (10_state R42). -/
def KeepsFilter (ev : HostEvent) : Prop :=
  match ev.op with
  | .access a => ¬ (a.dir = 1#1 ∧ a.idx = 0#4 ∧ (a.data = encode .create ∨ a.data = encode .decode))
  | .offer _ => True
  | .answer _ => True
  | .reset => False

/-- The state after a step that answered one. -/
def nextOf (o : Host.Outcome State Fault Refusal) : Option State :=
  match o with
  | .next t => some t
  | .fault _ => none
  | .refused _ => none

end Sys2Proof.Machine
end

