-- ==== Sys2Proof/Certificates/Slice0/Obligations.lean ====
section
/-! DEFINITION. The statements for the provers, each from the numbered rules of spec/. A statement about a next state gives
that state in full: every field not named keeps its value. -/

open Sys2Proof Sys2Proof.Machine

/-! ### Reset and the whole machine -/

/-- 10_state R43: every register after reset, no command, no packet; every register reads 0. -/
def Obligations.ResetClearsEveryRegister : Prop :=
  State.reset.busy = false ∧ State.reset.cfgValid = false ∧ State.reset.faulted = false ∧ State.reset.result = false ∧
  State.reset.err = 0x00#8 ∧ State.reset.faultCause = 0x00#8 ∧ State.reset.faultRound = 0x00#8 ∧
  State.reset.argN = 0#64 ∧ State.reset.argP = 0#64 ∧ State.reset.k = 0#8 ∧ State.reset.m = 0#64 ∧
  State.reset.bufLen = 0 ∧ State.reset.insertedCount = 0#64 ∧ State.reset.faultInfo = 0#64 ∧
  State.reset.engine = .idle ∧ State.reset.inPacket = false ∧ ∀ idx, readReg State.reset idx = 0#64

/-- 70_reset_and_hazards R290: asserting `rst` in any state, a command in progress or not, gives the state of R43. The
host's side stays, BUF's contents are free, and of the beats on the stream some number of those the command cut off would have
taken next is gone: none where the engine is idle (logs 9, 12 and 17 are the model's). -/
def Obligations.ResetInteractionGivesResetState : Prop :=
  ∀ (s : State) (o : Bool) (rest : List HostEvent), s.host = { op := .reset, overlap := o } :: rest →
    ∃ (b : Memory) (d n : Nat), n ≤ s.inStream.length - (resume { s with host := rest }).inStream.length ∧
      (s.engine = .idle → n = 0) ∧ step s = .next { State.reset with
      buf := b, draws := d, inStream := s.inStream.drop n, answers := s.answers, outLog := s.outLog, readLog := s.readLog
      host := rest, params := s.params }

/-- The invariant holds after reset. -/
def Obligations.InvariantAfterReset : Prop := Inv State.reset

/-- Every step keeps the invariant: BUF canonical and within L bytes, the codes and the fault fields as 10_state R23, R32,
R36 and 60_exceptions R260, R264 say, and the hidden state only where the checks before it let it be. The OPEN parameters are
fixed for a whole run (00_scope R6). -/
def Obligations.StepKeepsInvariant : Prop :=
  ∀ s t : State, Inv s → step s = .next t → Inv t ∧ t.params = s.params

/-- A step runs the decoded command (10_state R22, 42_filter_engine R170): a legal word written to CMD of an idle block is `exec` of
its command on the state with that host interaction taken, and `exec` is the engine's move from acceptance. The last two clauses
are the model's choice: with `overlap` the host's next interaction comes first, so the step only accepts the command and leaves it
to run at the engine's next move (log 4); and the host's fetch helper stands for loading a program, one CMD write that the very
next step runs (log 3). -/
def Obligations.StepRunsDecodedCommand : Prop :=
  (∀ (s : State) (w : Word) (i : Instr) (rest : List HostEvent), s.engine = .idle → s.host = cmdEvent w :: rest →
    decode w = .ok i → step s = exec i { s with host := rest }) ∧
  (∀ (s : State) (i : Instr), s.engine = .idle → exec i s = .next (resume (accept (.instr i) s))) ∧
  (∀ (s : State) (w : Word) (i : Instr) (rest : List HostEvent), s.engine = .idle →
    s.host = { op := .access { dir := 1#1, idx := 0#4, data := w }, overlap := true } :: rest →
    decode w = .ok i → step s = .next (accept (.instr i) { s with host := rest })) ∧
  (∀ (s : State) (i : Instr), step (s.withFetchWord 64 (encode i).toNat) = exec i { s with engine := .idle })

/-- 30_encoding R95, 42_filter_engine R170, R176: an OP of 0x0 or 0x6 to 0xF, or any bit of [63:4], makes an ILLEGAL command, also
in a faulted block; only ERR and RESULT change. Where the host's next interaction comes first (`overlap`, log 4), the command is
accepted, BUSY = 1 as R170 says, and the engine's next move from any state so reached ends it in the same way: that the move can
come later is the model's choice (log 4). -/
def Obligations.IllegalWordReportsOnly : Prop :=
  (∀ (s : State) (w : Word) (rest : List HostEvent), s.engine = .idle →
    ((opField w = 0#4 ∨ 6 ≤ (opField w).toNat) ∨ zeroField w ≠ 0#60) →
    (s.host = cmdEvent w :: rest → step s = .next { s with host := rest, err := 0x13#8, result := false }) ∧
    (s.host = { op := .access { dir := 1#1, idx := 0#4, data := w }, overlap := true } :: rest →
      step s = .next (accept .illegal { s with host := rest }))) ∧
  (∀ s : State, s.engine = .accepted .illegal →
    s.busy = true ∧ resume s = { s with err := 0x13#8, result := false, engine := .idle })

/-- 10_state R23: while BUSY = 1 the STATUS fields other than BUSY keep the values they had; R35: a command's register writes take
effect in the step in which BUSY falls, so the registers keep theirs too; and no write to ARG_N or ARG_P takes effect. That BUF
keeps its bytes as well is no rule: it is the model's own order of effects within a command (log 8, DEDUCED: DECODE writes BUF only
at its end). -/
def Obligations.BusyHoldsRegisters : Prop :=
  ∀ s t : State, s.busy = true → step s = .next t → t.busy = true →
    t.cfgValid = s.cfgValid ∧ t.faulted = s.faulted ∧ t.result = s.result ∧ t.err = s.err ∧
    t.faultCause = s.faultCause ∧ t.faultRound = s.faultRound ∧ t.faultInfo = s.faultInfo ∧
    t.argN = s.argN ∧ t.argP = s.argP ∧ t.k = s.k ∧ t.m = s.m ∧ t.insertedCount = s.insertedCount ∧ t.buf = s.buf

/-- 60_exceptions R263: while FAULTED = 1 no interaction but reset changes FAULTED, the fault fields, or the filter's
registers and BUF. -/
def Obligations.OnlyResetClearsFault : Prop :=
  ∀ s t : State, Inv s → s.faulted = true → (∀ ev rest, s.host = ev :: rest → ev.op ≠ .reset) → step s = .next t →
    t.faulted = true ∧ t.faultCause = s.faultCause ∧ t.faultRound = s.faultRound ∧ t.faultInfo = s.faultInfo ∧
    t.cfgValid = s.cfgValid ∧ t.k = s.k ∧ t.m = s.m ∧ t.insertedCount = s.insertedCount ∧ t.buf = s.buf

/-! ### The register port -/

/-- 10_state R22: CMD presents a word to the decoder while BUSY = 0, ignores it while BUSY = 1, and reads 0. With `overlap`
the command decoded is accepted (42_filter_engine R170), and runs at the engine's next move: that is the model's choice (log 4). -/
def Obligations.CmdRegister : Prop :=
  ∀ (s : State) (w : Word) (o : Bool) (rest : List HostEvent),
    (s.busy = false → s.host = cmdEvent w :: rest →
      step s = match decode w with
        | .ok i => exec i { s with host := rest }
        | .error _ => execIllegal { s with host := rest }) ∧
    (s.busy = false → s.host = { op := .access { dir := 1#1, idx := 0#4, data := w }, overlap := true } :: rest →
      step s = match decode w with
        | .ok i => .next (accept (.instr i) { s with host := rest })
        | .error _ => .next (accept .illegal { s with host := rest })) ∧
    (s.busy = true → s.host = { op := .access { dir := 1#1, idx := 0#4, data := w }, overlap := o } :: rest →
      step s = .next (settle o { s with host := rest })) ∧
    (s.host = { op := .access { dir := 0#1, idx := 0#4, data := w }, overlap := o } :: rest →
      step s = .next (settle o { s with host := rest, readLog := s.readLog ++ [0#64] }))

/-- 10_state R33: indices 9 to 15 read 0 and ignore writes, busy or not. `settle` is the engine's own move after the host's
interaction (log 4). -/
def Obligations.ReservedRegisters : Prop :=
  ∀ (s : State) (idx : BitVec 4) (data : Word) (o : Bool) (rest : List HostEvent), 9 ≤ idx.toNat →
    (s.host = { op := .access { dir := 0#1, idx := idx, data := data }, overlap := o } :: rest →
      step s = .next (settle o { s with host := rest, readLog := s.readLog ++ [0#64] })) ∧
    (s.host = { op := .access { dir := 1#1, idx := idx, data := data }, overlap := o } :: rest →
      step s = .next (settle o { s with host := rest }))

/-- 10_state R34: a write to STATUS, HASH_ROUNDS, BIT_COUNT, BUF_LEN, INSERTED_COUNT or FAULT_INFO is ignored, and a read of
any register changes no state of the block (the model records the value read and may draw a free one). -/
def Obligations.ReadOnlyRegisters : Prop :=
  ∀ (s : State) (idx : BitVec 4) (data : Word) (o : Bool) (rest : List HostEvent),
    ((idx.toNat = 1 ∨ (4 ≤ idx.toNat ∧ idx.toNat ≤ 8)) →
      s.host = { op := .access { dir := 1#1, idx := idx, data := data }, overlap := o } :: rest →
      step s = .next (settle o { s with host := rest })) ∧
    (s.host = { op := .access { dir := 0#1, idx := idx, data := data }, overlap := o } :: rest →
      ∃ (v : Word) (d : Nat),
        step s = .next (settle o { s with host := rest, readLog := s.readLog ++ [v], draws := d }))

/-- 10_state R24 and R25: ARG_N and ARG_P store a write while BUSY = 0, ignore it while BUSY = 1, read as stored at any time,
and no move of the engine writes them. -/
def Obligations.OperandRegisters : Prop :=
  (∀ (s : State) (data : Word) (o : Bool) (rest : List HostEvent), s.busy = false →
    (s.host = { op := .access { dir := 1#1, idx := 2#4, data := data }, overlap := o } :: rest →
      step s = .next { s with host := rest, argN := data }) ∧
    (s.host = { op := .access { dir := 1#1, idx := 3#4, data := data }, overlap := o } :: rest →
      step s = .next { s with host := rest, argP := data })) ∧
  (∀ (s : State) (idx : BitVec 4) (data : Word) (o : Bool) (rest : List HostEvent), s.busy = true →
    idx = 2#4 ∨ idx = 3#4 →
    s.host = { op := .access { dir := 1#1, idx := idx, data := data }, overlap := o } :: rest →
    step s = .next (settle o { s with host := rest })) ∧
  (∀ (s : State) (idx : BitVec 4) (data : Word) (o : Bool) (rest : List HostEvent), idx = 2#4 ∨ idx = 3#4 →
    s.host = { op := .access { dir := 0#1, idx := idx, data := data }, overlap := o } :: rest →
    step s = .next (settle o
      { s with host := rest, readLog := s.readLog ++ [if idx = 2#4 then s.argN else s.argP] })) ∧
  (∀ s : State, (resume s).argN = s.argN ∧ (resume s).argP = s.argP)

/-- 30_encoding R92, the read column, while BUSY = 0; and 10_state R35: a read of STATUS at any time, BUSY = 1 included, returns the
current fields, BUSY among them. -/
def Obligations.ReadMapWhenIdle : Prop :=
  (∀ (s : State) (idx : BitVec 4) (data : Word) (o : Bool) (rest : List HostEvent), s.busy = false →
    s.host = { op := .access { dir := 0#1, idx := idx, data := data }, overlap := o } :: rest →
    step s = .next { s with host := rest, readLog := s.readLog ++
      [if idx = 1#4 then s.status else if idx = 2#4 then s.argN else if idx = 3#4 then s.argP
        else if idx = 4#4 then s.k.setWidth 64 else if idx = 5#4 then s.m else if idx = 6#4 then s.m >>> 3
        else if idx = 7#4 then s.insertedCount else if idx = 8#4 then s.faultInfo else 0#64] }) ∧
  (∀ (s : State) (data : Word) (o : Bool) (rest : List HostEvent),
    s.host = { op := .access { dir := 0#1, idx := 1#4, data := data }, overlap := o } :: rest →
    step s = .next (settle o { s with host := rest, readLog := s.readLog ++ [s.status] }) ∧
    s.status.getLsbD 0 = s.busy)

/-- 30_encoding R107: where each field of STATUS stands. -/
def Obligations.StatusFields : Prop :=
  ∀ s : State,
    s.status.getLsbD 0 = s.busy ∧ s.status.getLsbD 1 = s.cfgValid ∧ s.status.getLsbD 2 = s.faulted ∧
    s.status.getLsbD 3 = s.result ∧ s.status.extractLsb' 8 8 = s.err ∧ s.status.extractLsb' 16 8 = s.faultCause ∧
    s.status.extractLsb' 24 8 = s.faultRound ∧ s.status.extractLsb' 4 4 = 0#4 ∧ s.status.extractLsb' 32 32 = 0#32

/-! ### Encodings and the sub-blocks' operations -/

/-- 30_encoding R94: a word selects a command exactly when it equals that command's word, all 64 bits compared. -/
def Obligations.DecodeExactlyTheOpcodeMap : Prop :=
  ∀ (w : Word) (i : Instr), decode w = .ok i ↔
    w = (match i with
      | .create => 0x0000000000000001#64
      | .insert => 0x0000000000000002#64
      | .query => 0x0000000000000003#64
      | .encode => 0x0000000000000004#64
      | .decode => 0x0000000000000005#64)

/-- Decode of encode gives every command back, and encode of decode gives every legal word back. -/
def Obligations.DecodeAndEncodeAgree : Prop :=
  (∀ i : Instr, decode (encode i) = .ok i) ∧ ∀ (w : Word) (i : Instr), decode w = .ok i → encode i = w

/-- A few words of 30_encoding R94 and R95 decode to what they stand for. -/
def Obligations.DecodeSanityWords : Prop :=
  decode 0x0000000000000001#64 = .ok .create ∧ decode 0x0000000000000004#64 = .ok .encode ∧
  decode 0x0000000000000005#64 = .ok .decode ∧ decode 0x0000000000000006#64 = .error .reservedOp ∧
  decode 0x0000000000000011#64 = .error .upperBits ∧ decode 0x8000000000000003#64 = .error .upperBits

/-- 40_hash_chain R131: DIGEST starts at FNV_OFFSET, and each byte multiplies and then XORs. -/
def Obligations.DigestMultipliesThenXors : Prop :=
  digest [] = 0xcbf29ce484222325#64 ∧
  (∀ (s : List Byte) (b : Byte), digest (s ++ [b]) = (digest s * 0x00000100000001b3#64) ^^^ b.setWidth 64)

/-- 40_hash_chain R132: NEXTSEED is the digest's eight bytes, least significant first; none is dropped. -/
def Obligations.NextSeedIsLittleEndian : Prop :=
  ∀ h : Word,
    nextSeed h = [h.extractLsb' 0 8, h.extractLsb' 8 8, h.extractLsb' 16 8, h.extractLsb' 24 8, h.extractLsb' 32 8,
      h.extractLsb' 40 8, h.extractLsb' 48 8, h.extractLsb' 56 8] ∧
    beNat (nextSeed h).reverse = h.toNat

/-- 40_hash_chain R133: CHAIN's digests, K of them, each the digest of the seed of the one before. -/
def Obligations.ChainFollowsTheSeeds : Prop :=
  ∀ (w : List Byte) (k : Byte), (chain w k).length = k.toNat ∧ (k ≠ 0#8 → (chain w k)[0]? = some (digest w)) ∧
    ∀ (i : Nat) (h : Word), (chain w k)[i]? = some h → i + 1 < k.toNat →
      (chain w k)[i + 1]? = some (digest (nextSeed h))

/-- 40_hash_chain R134: a position lies below M, is 0 for M = 1, and for M = 2^j is the digest's low j bits. -/
def Obligations.PositionReducesModM : Prop :=
  ∀ (m h : Word), m ≠ 0#64 → (position m h).toNat < m.toNat ∧ (position m h).toNat = h.toNat % m.toNat ∧
    position 1#64 h = 0#64 ∧ ∀ j < 64, position (1#64 <<< j) h = h &&& ((1#64 <<< j) - 1#64)

/-- 41_bit_vector R152 and R153 with 20_memory R62: SETBIT of a position in range sets that bit and no other, keeps the
canonical form and is idempotent; SETBIT and TESTBIT answer OUT_OF_RANGE exactly beyond L, and TESTBIT reads bit p & 7 of byte
p >> 3. -/
def Obligations.SetBitSetsOneBit : Prop :=
  (∀ (l : Nat) (p : Word) (b b' : Memory), Memory.wf b = true → setBit l p b = some b' →
    Memory.wf b' = true ∧ (∀ q : Word, bitAt b' q = (bitAt b q || decide (q = p))) ∧ setBit l p b' = some b') ∧
  (∀ (l : Nat) (p : Word) (b : Memory), (setBit l p b = none ↔ l ≤ (p >>> 3).toNat) ∧
    (testBit l p b = none ↔ l ≤ (p >>> 3).toNat)) ∧
  (∀ (l : Nat) (p : Word) (b : Memory), (p >>> 3).toNat < l →
    testBit l p b = some ((Memory.read (p >>> 3).toNat b).getLsbD (p &&& 7#64).toNat))

/-- 10_state R37: BUF covers 8L positions of M; the few above have byte index L. -/
def Obligations.BufferCoversEightLPositions : Prop :=
  ∀ m : Word, 8 * byteLen m ≤ m.toNat ∧ m.toNat < 8 * byteLen m + 8 ∧ (8 * byteLen m = m.toNat ↔ m.toNat % 8 = 0) ∧
    ∀ p : Word, 8 * byteLen m ≤ p.toNat → p.toNat < m.toNat → byteIndex p = byteLen m ∧ inRange (byteLen m) p = false

/-- 30_encoding R103: M in the header is big-endian and reads back. -/
def Obligations.HeaderBitCountRoundTrip : Prop :=
  ∀ m : Word, beNat (be64Bytes m) = m.toNat ∧ ∀ j < 8, (be64Bytes m)[j]? = some (m.extractLsb' (56 - 8 * j) 8)

/-! ### Binary64 -/

/-- 00_scope R10: rounding to nearest, ties to even. A finite result is the canonical one (53 bits, or the least exponent), its
distance from num/den is at most half the gap to its neighbour on that side, and a tie has an even significand; an infinite result
only from 2^1024 less half a unit up. The gap is one unit, but half a unit below 2^52 units above the least exponent. -/
def Obligations.RoundToNearestEven : Prop :=
  ∀ (neg : Bool) (num den : Nat), 0 < den →
    F64.roundQuot neg num den ≠ .nan ∧
    (∀ s, F64.roundQuot neg num den = .inf s → s = neg ∧ (2 ^ 54 - 1) * 2 ^ 970 * den ≤ num) ∧
    (∀ s m e, F64.roundQuot neg num den = .fin s m e →
      s = neg ∧ m < 2 ^ 53 ∧ -1074 ≤ e ∧ e ≤ 971 ∧ (m < 2 ^ 52 → e = -1074) ∧
      2 * (scaledFraction num den e).1 ≤ (2 * m + 1) * (scaledFraction num den e).2 ∧
      2 * m * (scaledFraction num den e).2 ≤ 2 * (scaledFraction num den e).1 + (scaledFraction num den e).2 ∧
      (m = 2 ^ 52 → -1074 < e →
        4 * m * (scaledFraction num den e).2 ≤ 4 * (scaledFraction num den e).1 + (scaledFraction num den e).2) ∧
      (2 * (scaledFraction num den e).1 = (2 * m + 1) * (scaledFraction num den e).2 ∨
          2 * m * (scaledFraction num den e).2 = 2 * (scaledFraction num den e).1 + (scaledFraction num den e).2 →
        m % 2 = 0))

/-- 42_filter_engine R182 on bit patterns: CREATE's precondition holds exactly for a positive n that is no NaN and a p
strictly between 0 and 1. -/
def Obligations.OperandRangeOnBits : Prop :=
  ∀ n p : Word, argsInRange n p = true ↔
    (0 < n.toNat ∧ n.toNat ≤ 0x7FF0000000000000) ∧ (0 < p.toNat ∧ p.toNat < 0x3FF0000000000000)

/-- 10_state R30: when the sizes convert, K' and M' are the truncated estimates and L' = M' >> 3 is the floor of
bitCount_f (/) 8. -/
def Obligations.LengthIsFloorOfEstimate : Prop :=
  ∀ (ln : Word → Word) (n p : Word) (k : Byte) (m : Word), sizing ln n p = some (k, m) →
    k.toNat = (hashRoundsF ln n p).truncToNat ∧ m.toNat = (bitCountF ln n p).truncToNat ∧
    byteLen m = ((bitCountF ln n p).div (.fin false 1 3)).truncToNat

/-! ### CREATE -/

/-- 42_filter_engine R181, R185: CREATE with sizes that convert and fit builds a filter of L' zero bytes. -/
def Obligations.CreateBuildsEmptyFilter : Prop :=
  ∀ (s : State) (k : Byte) (m : Word), s.Ready → sizing s.params.ln s.argN s.argP = some (k, m) →
    byteLen m ≤ s.params.maxBufBytes →
    ∃ b : Memory, exec .create s = .next { s with
      k := k, m := m, buf := b, insertedCount := 0#64, cfgValid := true, err := 0x00#8, result := false } ∧
      ∀ i, Memory.read i b = 0#8

/-- 42_filter_engine R182: a failed precondition, or a size that is NaN, negative or out of range, is BAD_PARAM, and nothing
else changes. -/
def Obligations.CreateRejectsBadParam : Prop :=
  ∀ s : State, s.Ready →
    (F64.zero.lt (F64.ofBits s.argN) = false ∨ F64.zero.lt (F64.ofBits s.argP) = false ∨
      (F64.ofBits s.argP).lt F64.one = false ∨
      F64.zero.le (bitCountF s.params.ln s.argN s.argP) = false ∨
      (bitCountF s.params.ln s.argN s.argP).lt F64.twoPow64 = false ∨
      F64.zero.le (hashRoundsF s.params.ln s.argN s.argP) = false ∨
      (hashRoundsF s.params.ln s.argN s.argP).lt F64.twoPow8 = false) →
    exec .create s = .next { s with err := 0x10#8, result := false }

/-- 42_filter_engine R184: a buffer longer than MAX_BUF_BYTES is CAPACITY, and nothing else changes. -/
def Obligations.CreateRejectsOverCapacity : Prop :=
  ∀ (s : State) (k : Byte) (m : Word), s.Ready → sizing s.params.ln s.argN s.argP = some (k, m) →
    s.params.maxBufBytes < byteLen m → exec .create s = .next { s with err := 0x11#8, result := false }

/-- 42_filter_engine R187 with 93_implementation_defined P2: CREATE(10, 0.1) gives K = 3, M = 47 for every LN whose values at
2.0 and 0.1 are within two units of the correctly rounded ones. -/
def Obligations.CreateTenTenthSizes : Prop :=
  ∀ s : State, Inv s → s.Ready → s.argN = 0x4024000000000000#64 → s.argP = 0x3FB999999999999A#64 → 5 ≤ s.params.maxBufBytes →
    0x3FE62E42FEFA39ED ≤ (s.params.ln twoBits).toNat → (s.params.ln twoBits).toNat ≤ 0x3FE62E42FEFA39F1 →
    0xC0026BB1BBB55513 ≤ (s.params.ln s.argP).toNat → (s.params.ln s.argP).toNat ≤ 0xC0026BB1BBB55517 →
    ∃ t, exec .create s = .next t ∧ t.k = 3#8 ∧ t.m = 47#64 ∧ t.bufLen = 5 ∧ t.cfgValid = true ∧
      t.insertedCount = 0#64 ∧ t.status = 0x0000000000000002#64

/-- What CREATE leaves alone in every case: the operand registers, the fault registers, the streams and the host's side;
when it reports an error, every byte of BUF and every register of the filter as well. -/
def Obligations.CreateFrame : Prop :=
  ∀ s t : State, exec .create s = .next t →
    t.argN = s.argN ∧ t.argP = s.argP ∧ t.faulted = s.faulted ∧ t.faultCause = s.faultCause ∧
    t.faultRound = s.faultRound ∧ t.faultInfo = s.faultInfo ∧ t.inStream = s.inStream ∧ t.answers = s.answers ∧
    t.outLog = s.outLog ∧ t.readLog = s.readLog ∧ t.host = s.host ∧ t.params = s.params ∧ t.draws = s.draws ∧
    (t.err ≠ 0x00#8 → t.k = s.k ∧ t.m = s.m ∧ t.insertedCount = s.insertedCount ∧ t.cfgValid = s.cfgValid ∧
      ∀ a, Memory.read a t.buf = Memory.read a s.buf)

/-! ### INSERT -/

/-- 42_filter_engine R192: an INSERT whose positions all have storage sets exactly those bits and counts one. K = 0 and the
empty word are among the cases. -/
def Obligations.InsertSetsItsPositions : Prop :=
  ∀ (s : State) (w : List Byte) (rest : List InBeat), s.Usable → Memory.wf s.buf = true →
    OffersPacket s.inStream w .endOfPacket rest → (∀ p ∈ positions w s.k s.m, inRange s.bufLen p = true) →
    ∃ b : Memory, exec .insert s = .next { s with
      inStream := rest, buf := b, insertedCount := s.insertedCount + 1#64, err := 0x00#8, result := false } ∧
      ∀ q : Word, bitAt b q = (bitAt s.buf q || decide (q ∈ positions w s.k s.m))

/-- 42_filter_engine R191: K at least 1 and M = 0 is the fault ZERO_BITCOUNT, after the packet and before any round. -/
def Obligations.InsertZeroBitCount : Prop :=
  ∀ (s : State) (w : List Byte) (rest : List InBeat), s.Usable → OffersPacket s.inStream w .endOfPacket rest →
    s.k ≠ 0#8 → s.m = 0#64 →
    exec .insert s = .next { s with
      inStream := rest, err := 0x20#8, result := false, faulted := true, faultCause := 0x20#8, faultRound := 0x00#8
      faultInfo := 0#64 }

/-- 42_filter_engine R193: the lowest round whose position has no storage is the fault POS_RANGE with that round and
position; such a position exists only beyond 8L with M no multiple of 8. BUF's bits are free between what they were and what the
in-range rounds set (U2). -/
def Obligations.InsertPosRange : Prop :=
  ∀ (s : State) (w : List Byte) (rest : List InBeat) (i : Nat) (p : Word), s.Usable → Memory.wf s.buf = true →
    OffersPacket s.inStream w .endOfPacket rest → s.m ≠ 0#64 →
    (positions w s.k s.m)[i]? = some p → inRange s.bufLen p = false →
    (∀ j < i, ∀ q, (positions w s.k s.m)[j]? = some q → inRange s.bufLen q = true) →
    s.m.toNat % 8 ≠ 0 ∧ 8 * s.bufLen ≤ p.toNat ∧
    ∃ (b : Memory) (d : Nat), exec .insert s = .next { s with
      inStream := rest, buf := b, draws := d, err := 0x21#8, result := false, faulted := true, faultCause := 0x21#8
      faultRound := BitVec.ofNat 8 i, faultInfo := p } ∧
      ∀ q : Word, (bitAt s.buf q = true → bitAt b q = true) ∧
        (bitAt b q = true → bitAt s.buf q = true ∨ (q ∈ positions w s.k s.m ∧ inRange s.bufLen q = true))

/-- What INSERT leaves alone in every case: the operand registers, K, M, CFG_VALID, the output side and the host's side; the
fault fields unless it raises a fault; while its packet is not ended, the rest as well; and every byte of BUF that is not the byte
of one of the word's positions. -/
def Obligations.InsertFrame : Prop :=
  (∀ s t : State, exec .insert s = .next t →
    t.argN = s.argN ∧ t.argP = s.argP ∧ t.k = s.k ∧ t.m = s.m ∧ t.cfgValid = s.cfgValid ∧ t.answers = s.answers ∧
    t.outLog = s.outLog ∧ t.readLog = s.readLog ∧ t.host = s.host ∧ t.params = s.params ∧
    (t.err ≠ 0x20#8 → t.err ≠ 0x21#8 → t.faulted = s.faulted ∧ t.faultCause = s.faultCause ∧
      t.faultRound = s.faultRound ∧ t.faultInfo = s.faultInfo) ∧
    (t.busy = true → t.insertedCount = s.insertedCount ∧ t.err = s.err ∧ t.result = s.result ∧ t.draws = s.draws ∧
      t.buf = s.buf)) ∧
  (∀ (s t : State) (w : List Byte) (term : Beat) (rest : List InBeat), OffersPacket s.inStream w term rest →
    exec .insert s = .next t → ∀ a, (∀ p ∈ positions w s.k s.m, a ≠ byteIndex p) →
    Memory.read a t.buf = Memory.read a s.buf)

/-! ### QUERY -/

/-- 42_filter_engine R200, R203: a QUERY whose positions all have storage and are all set answers RESULT = 1; with K = 0 every
word does. -/
def Obligations.QueryAnswersOne : Prop :=
  ∀ (s : State) (w : List Byte) (rest : List InBeat), s.Usable → OffersPacket s.inStream w .endOfPacket rest →
    (∀ p ∈ positions w s.k s.m, inRange s.bufLen p = true ∧ bitAt s.buf p = true) →
    exec .query s = .next { s with inStream := rest, err := 0x00#8, result := true }

/-- 42_filter_engine R201: the first round whose bit is 0 ends a QUERY with RESULT = 0, whatever the later rounds are, also when
one of them has no storage. -/
def Obligations.QueryShortCircuits : Prop :=
  ∀ (s : State) (w : List Byte) (rest : List InBeat) (i : Nat) (p : Word), s.Usable →
    OffersPacket s.inStream w .endOfPacket rest → (positions w s.k s.m)[i]? = some p → inRange s.bufLen p = true →
    bitAt s.buf p = false →
    (∀ j < i, ∀ q, (positions w s.k s.m)[j]? = some q → inRange s.bufLen q = true ∧ bitAt s.buf q = true) →
    exec .query s = .next { s with inStream := rest, err := 0x00#8, result := false }

/-- 42_filter_engine R202: QUERY's two faults. BUF is unchanged in both. -/
def Obligations.QueryFaults : Prop :=
  (∀ (s : State) (w : List Byte) (rest : List InBeat), s.Usable → OffersPacket s.inStream w .endOfPacket rest →
    s.k ≠ 0#8 → s.m = 0#64 →
    exec .query s = .next { s with
      inStream := rest, err := 0x20#8, result := false, faulted := true, faultCause := 0x20#8, faultRound := 0x00#8
      faultInfo := 0#64 }) ∧
  (∀ (s : State) (w : List Byte) (rest : List InBeat) (i : Nat) (p : Word), s.Usable →
    OffersPacket s.inStream w .endOfPacket rest → s.m ≠ 0#64 → (positions w s.k s.m)[i]? = some p →
    inRange s.bufLen p = false →
    (∀ j < i, ∀ q, (positions w s.k s.m)[j]? = some q → inRange s.bufLen q = true ∧ bitAt s.buf q = true) →
    exec .query s = .next { s with
      inStream := rest, err := 0x21#8, result := false, faulted := true, faultCause := 0x21#8
      faultRound := BitVec.ofNat 8 i, faultInfo := p })

/-- What QUERY leaves alone in every case: everything but STATUS, FAULT_INFO, the engine and the input stream; every byte of
BUF. -/
def Obligations.QueryFrame : Prop :=
  ∀ s t : State, exec .query s = .next t →
    t.argN = s.argN ∧ t.argP = s.argP ∧ t.k = s.k ∧ t.m = s.m ∧ t.insertedCount = s.insertedCount ∧
    t.cfgValid = s.cfgValid ∧ t.buf = s.buf ∧ t.answers = s.answers ∧ t.outLog = s.outLog ∧ t.readLog = s.readLog ∧
    t.host = s.host ∧ t.params = s.params ∧ t.draws = s.draws ∧
    (∀ a, Memory.read a t.buf = Memory.read a s.buf) ∧
    (t.err ≠ 0x20#8 → t.err ≠ 0x21#8 → t.faulted = s.faulted ∧ t.faultCause = s.faultCause ∧
      t.faultRound = s.faultRound ∧ t.faultInfo = s.faultInfo)

/-- 40_hash_chain R135, 43_codec R241: two blocks that hold the same K, M and BUF answer the same QUERY with the same ERR and
RESULT, whatever else they hold. -/
def Obligations.QueryDependsOnFilterOnly : Prop :=
  ∀ s u t v : State, s.Usable → u.Usable → s.k = u.k → s.m = u.m → s.buf = u.buf → s.inStream = u.inStream →
    exec .query s = .next t → exec .query u = .next v →
    t.busy = v.busy ∧ t.inStream = v.inStream ∧ t.buf = v.buf ∧ t.faulted = v.faulted ∧
    (t.busy = false → t.err = v.err ∧ t.result = v.result)

/-- 42_filter_engine R190, R200: a word packet that ends in ERR is IO_ERROR for INSERT and for QUERY, and nothing else
changes. -/
def Obligations.WordPacketError : Prop :=
  ∀ (i : Instr) (s : State) (w : List Byte) (rest : List InBeat), i = .insert ∨ i = .query → s.Usable →
    OffersPacket s.inStream w .err rest →
    exec i s = .next { s with inStream := rest, err := 0x05#8, result := false }

/-! ### ENCODE -/

/-- 43_codec R220 with 20_memory R76: an ENCODE whose beats are all taken delivers the stored filter, `last` on the final beat
only, and changes nothing else but ERR and RESULT. The codec reaches BodyWritten (43_codec R226; log 16). -/
def Obligations.EncodeDeliversStoredFilter : Prop :=
  ∀ (s : State) (as : List Response), s.Usable →
    s.answers = List.replicate (16 + s.bufLen) Response.take ++ as →
    ∃ beats : List OutBeat,
      exec .encode s = .next { s with answers := as, outLog := s.outLog ++ beats, err := 0x00#8, result := false } ∧
      beats.map OutBeat.data = storedFilter s ∧
      (∀ j b, beats[j]? = some b → (b.last = true ↔ j = 15 + s.bufLen)) ∧
      (accept (.instr .encode) s).codecReached = some .bodyWritten

/-- 43_codec R221, R222 with 30_encoding R99 and R104: the stored filter's bytes. -/
def Obligations.StoredFilterLayout : Prop :=
  ∀ s : State, storedFilter s =
    [s.params.magic.b0, s.params.magic.b1, s.params.magic.b2, s.params.magic.b3, 0x00#8, 0x01#8, 0x00#8, s.k,
      s.m.extractLsb' 56 8, s.m.extractLsb' 48 8, s.m.extractLsb' 40 8, s.m.extractLsb' 32 8, s.m.extractLsb' 24 8,
      s.m.extractLsb' 16 8, s.m.extractLsb' 8 8, s.m.extractLsb' 0 8] ++
    (List.range (s.m >>> 3).toNat).map fun i => Memory.read i s.buf

/-- 43_codec R223: at the first write failure ENCODE stops with IO_ERROR; the beats taken before it stand, and the rest of the
state is unchanged. -/
def Obligations.EncodeWriteFailure : Prop :=
  ∀ (s : State) (n : Nat) (as : List Response), s.Usable → n < 16 + s.bufLen →
    s.answers = List.replicate n Response.take ++ Response.fail :: as →
    exec .encode s = .next { s with
      answers := as, outLog := s.outLog ++ (storedBeats s).take n, err := 0x05#8, result := false }

/-- 20_memory R75 with 43_codec R226: with fewer answers than beats ENCODE stays busy, offering the next beat. -/
def Obligations.EncodeWaitsForAnswers : Prop :=
  ∀ (s : State) (n : Nat), s.Usable → n < 16 + s.bufLen → s.answers = List.replicate n Response.take →
    ∃ t, exec .encode s = .next t ∧
      t = { s with answers := [], outLog := s.outLog ++ (storedBeats s).take n, engine := .sending n } ∧
      t.busy = true ∧ t.offered = (storedBeats s)[n]? ∧
      t.codecState = some (if n < 16 then .uninitialized else .headerWritten)

/-- What ENCODE leaves alone in every case: everything but ERR, RESULT, the engine, the host's answers and the beats
delivered; every byte of BUF. -/
def Obligations.EncodeFrame : Prop :=
  ∀ s t : State, exec .encode s = .next t →
    t = { s with err := t.err, result := t.result, engine := t.engine, answers := t.answers, outLog := t.outLog } ∧
    (∀ a, Memory.read a t.buf = Memory.read a s.buf) ∧ ∃ beats, t.outLog = s.outLog ++ beats

/-! ### DECODE -/

/-- 43_codec R234, R235 with 30_encoding R102, R103: a packet with the magic, version 1, a bitCount that fits and a whole body
loads K (byte 6 ignored), M and the body; what follows the body, and the terminator, are consumed and ignored. ENCODE of the
loaded filter then gives the same bytes back, with byte 6 as 0x00 (R241). The codec reaches Complete (R237; log 16). -/
def Obligations.DecodeLoadsFilter : Prop :=
  ∀ (s : State) (b6 k : Byte) (m : Word) (body extra : List Byte) (term : Beat) (rest : List InBeat), s.Ready →
    body.length = byteLen m → byteLen m ≤ s.params.maxBufBytes →
    OffersPacket s.inStream (s.params.magic.bytes ++ [0x00#8, 0x01#8, b6, k] ++ be64Bytes m ++ body ++ extra) term rest →
    ∃ b : Memory,
      exec .decode s = .next { s with
        inStream := rest, k := k, m := m, buf := b, insertedCount := 0#64, cfgValid := true, err := 0x00#8
        result := false } ∧
      (∀ i, Memory.read i b = body.getD i 0x00#8) ∧
      storedFilter { s with k := k, m := m, buf := b } =
        s.params.magic.bytes ++ [0x00#8, 0x01#8, 0x00#8, k] ++ be64Bytes m ++ body ∧
      (accept (.instr .decode) s).codecReached = some .complete

/-- 43_codec R231: fewer than 16 bytes fail with TRUNC_HEADER at END and IO_ERROR at ERR, whatever the bytes are. -/
def Obligations.DecodeShortHeader : Prop :=
  ∀ (s : State) (bytes : List Byte) (term : Beat) (rest : List InBeat), s.Ready → bytes.length < 16 →
    OffersPacket s.inStream bytes term rest →
    ∃ (b : Memory) (d : Nat), exec .decode s = .next { s with
      inStream := rest, k := 0#8, m := 0#64, insertedCount := 0#64, cfgValid := false, buf := b, draws := d
      err := if term = .endOfPacket then 0x01#8 else 0x05#8, result := false }

/-- 43_codec R232 and R233: with a whole header, the magic is checked first, then the version, then the capacity; each failure
drains the packet and reports its own code. -/
def Obligations.DecodeRejectsHeader : Prop :=
  ∀ (s : State) (hdr more : List Byte) (term : Beat) (rest : List InBeat), s.Ready → hdr.length = 16 →
    OffersPacket s.inStream (hdr ++ more) term rest →
    ∀ code : Byte,
      (hdr.take 4 ≠ s.params.magic.bytes ∧ code = 0x02#8) ∨
      (hdr.take 4 = s.params.magic.bytes ∧ (hdr.drop 4).take 2 ≠ [0x00#8, 0x01#8] ∧ code = 0x03#8) ∨
      (hdr.take 4 = s.params.magic.bytes ∧ (hdr.drop 4).take 2 = [0x00#8, 0x01#8] ∧
        s.params.maxBufBytes < beNat (hdr.drop 8) / 8 ∧ code = 0x11#8) →
    ∃ (b : Memory) (d : Nat), exec .decode s = .next { s with
      inStream := rest, k := 0#8, m := 0#64, insertedCount := 0#64, cfgValid := false, buf := b, draws := d, err := code
      result := false }

/-- 43_codec R234: a valid header and a body cut short fail with TRUNC_BODY at END and IO_ERROR at ERR. -/
def Obligations.DecodeShortBody : Prop :=
  ∀ (s : State) (b6 k : Byte) (m : Word) (body : List Byte) (term : Beat) (rest : List InBeat), s.Ready →
    body.length < byteLen m → byteLen m ≤ s.params.maxBufBytes →
    OffersPacket s.inStream (s.params.magic.bytes ++ [0x00#8, 0x01#8, b6, k] ++ be64Bytes m ++ body) term rest →
    ∃ (b : Memory) (d : Nat), exec .decode s = .next { s with
      inStream := rest, k := 0#8, m := 0#64, insertedCount := 0#64, cfgValid := false, buf := b, draws := d
      err := if term = .endOfPacket then 0x04#8 else 0x05#8, result := false }

/-- 43_codec R236: every DECODE failure unconfigures the block and is no sticky fault, with one of its six codes; a DECODE
refused because FAULTED = 1 changes only ERR and RESULT (and takes its packet). -/
def Obligations.DecodeFailureUnconfigures : Prop :=
  (∀ s t : State, s.Ready → exec .decode s = .next t → t.busy = false → t.err ≠ 0x00#8 →
    t.cfgValid = false ∧ t.k = 0#8 ∧ t.m = 0#64 ∧ t.insertedCount = 0#64 ∧ t.result = false ∧ t.faulted = false ∧
    t.err ∈ [0x01#8, 0x02#8, 0x03#8, 0x04#8, 0x05#8, 0x11#8]) ∧
  (∀ s t : State, s.engine = .idle → s.faulted = true → exec .decode s = .next t → t.busy = false →
    t = { s with inStream := t.inStream, err := 0x14#8, result := false })

/-- What DECODE leaves alone in every case: the operand registers, the fault registers, the output side and the host's side;
while it is busy, and in a faulted block, the filter's registers and every byte of BUF as well. A DECODE that completes replaces
all of BUF, or leaves it free (U3). That BUF is not written while DECODE is busy is the model's order (log 8, DEDUCED). -/
def Obligations.DecodeFrame : Prop :=
  ∀ s t : State, exec .decode s = .next t →
    t.argN = s.argN ∧ t.argP = s.argP ∧ t.faulted = s.faulted ∧ t.faultCause = s.faultCause ∧
    t.faultRound = s.faultRound ∧ t.faultInfo = s.faultInfo ∧ t.answers = s.answers ∧ t.outLog = s.outLog ∧
    t.readLog = s.readLog ∧ t.host = s.host ∧ t.params = s.params ∧
    (t.busy = true → t.k = s.k ∧ t.m = s.m ∧ t.insertedCount = s.insertedCount ∧ t.cfgValid = s.cfgValid ∧
      t.err = s.err ∧ t.result = s.result ∧ t.draws = s.draws ∧ ∀ a, Memory.read a t.buf = Memory.read a s.buf) ∧
    (s.faulted = true → t.k = s.k ∧ t.m = s.m ∧ t.insertedCount = s.insertedCount ∧ t.cfgValid = s.cfgValid ∧
      t.draws = s.draws ∧ ∀ a, Memory.read a t.buf = Memory.read a s.buf)

/-! ### All commands -/

/-- 42_filter_engine R172: a faulted block refuses every command with FAULTED; an unconfigured one refuses INSERT, QUERY and
ENCODE with NOT_CONFIGURED. The packet of INSERT, QUERY and DECODE is taken; CREATE and ENCODE need none (70_reset_and_hazards
R295) and leave any stream as it is. Only ERR and RESULT change. -/
def Obligations.RefusedCommands : Prop :=
  (∀ (s : State) (i : Instr) (bytes : List Byte) (term : Beat) (rest : List InBeat), i = .insert ∨ i = .query ∨ i = .decode →
    s.engine = .idle → OffersPacket s.inStream bytes term rest →
    (s.faulted = true → exec i s = .next { s with inStream := rest, err := 0x14#8, result := false }) ∧
    (s.faulted = false → s.cfgValid = false → i ≠ .decode →
      exec i s = .next { s with inStream := rest, err := 0x12#8, result := false })) ∧
  (∀ (s : State) (i : Instr), i = .create ∨ i = .encode → s.engine = .idle →
    (s.faulted = true → exec i s = .next { s with err := 0x14#8, result := false }) ∧
    (s.faulted = false → s.cfgValid = false → i = .encode →
      exec i s = .next { s with err := 0x12#8, result := false }))

/-- 20_memory R72: INSERT, QUERY and DECODE consume exactly one whole packet whatever their outcome, and complete only after
its terminator; CREATE and ENCODE consume no beat; only ENCODE delivers any. That the packet flag of 10_state R38 is 1 exactly if a
byte of the packet has been taken is the model's reading (log 16, DEDUCED). -/
def Obligations.ExactlyOnePacket : Prop :=
  (∀ (i : Instr) (s : State) (bytes : List Byte) (term : Beat) (rest : List InBeat),
    i = .insert ∨ i = .query ∨ i = .decode → s.engine = .idle → OffersPacket s.inStream bytes term rest →
    ∃ t, exec i s = .next t ∧ t.inStream = rest ∧ t.busy = false ∧ t.inPacket = false) ∧
  (∀ (i : Instr) (s : State) (bytes : List Byte), i = .insert ∨ i = .query ∨ i = .decode → s.engine = .idle →
    OffersOpen s.inStream bytes →
    ∃ t, exec i s = .next t ∧ t.inStream = [] ∧ t.busy = true ∧ (t.inPacket = true ↔ bytes ≠ [])) ∧
  (∀ (i : Instr) (s t : State), i = .create ∨ i = .encode → exec i s = .next t → t.inStream = s.inStream) ∧
  (∀ (i : Instr) (s t : State), i ≠ .encode → exec i s = .next t → t.outLog = s.outLog ∧ t.answers = s.answers)

/-- 20_memory R73: a packet's beats may come before or after the CMD write. Beats offered after the command has taken the
earlier ones lead, on the engine's next move, to the very state the command reaches with all of them waiting. R75: an output beat
is answered after it is offered. Answers that come while ENCODE waits lead to the very state ENCODE reaches with all of them ready
(log 5). -/
def Obligations.LateBeatsSameResult : Prop :=
  (∀ (i : Instr) (s t u : State) (early : List Byte) (more : List InBeat), i = .insert ∨ i = .query ∨ i = .decode →
    s.engine = .idle → OffersOpen s.inStream early → exec i s = .next t →
    exec i { s with inStream := s.inStream ++ more } = .next u → resume { t with inStream := more } = u) ∧
  (∀ (s t u : State) (more : List Response), s.engine = .idle → exec .encode s = .next t → t.busy = true →
    exec .encode { s with answers := s.answers ++ more } = .next u →
    t.answers = [] ∧ resume { t with answers := more } = u)

/-- 30_encoding R110 with 20_memory R73: the script `INSERT <bytes>`, whose beats follow the command one by one and whose WAIT
reads STATUS, ends in the state of the one command with its packet waiting, with that STATUS read. 70_reset_and_hazards R302: with
nothing after it, that run has ended, and its outcome holds the registers, BUF and the output beats. R296: without the END it has
not ended: it is the hang, which every further step leaves as it is. The model's readings in this: WAIT is one read (log 14), what
counts as pending and as the outcome's output (log 18, DEDUCED), a waiting block stays as it is (log 11, DEDUCED). -/
def Obligations.InsertScriptRunsInsert : Prop :=
  (∀ (s t : State) (bytes : List Byte) (rest : List HostEvent), s.engine = .idle → s.inStream = [] →
    s.host = expand (scriptInsert bytes) ++ rest →
    exec .insert { s with host := rest, inStream := packetOf bytes } = .next t →
    Sys2Proof.core.run (bytes.length + 3) s = .next { t with readLog := t.readLog ++ [t.status] }) ∧
  (∀ (s : State) (bytes : List Byte), s.engine = .idle → s.inStream = [] → s.host = expand (scriptInsert bytes) →
    ∃ u, Sys2Proof.core.run (bytes.length + 3) s = .next u ∧ u.ended = true ∧ u.hung = false ∧
      ∃ r, u.outcome = some r ∧ r.registers[1]? = some u.status ∧ r.buf.length = u.bufLen ∧ r.output = s.outLog) ∧
  (∀ (s : State) (bytes : List Byte), s.engine = .idle → s.inStream = [] →
    s.host = writeEvent 0#4 (encode .insert) :: bytes.map (fun b => plainEvent (.offer (InBeat.ofByte b))) →
    ∃ u, Sys2Proof.core.run (bytes.length + 1) s = .next u ∧ u.hung = true ∧ u.ended = false ∧ u.outcome = none ∧
      step u = .next u)

/-- 42_filter_engine R206: INSERT, QUERY and ENCODE never change a bit of BUF from 1 to 0, also when they err, fault, are
refused or wait. -/
def Obligations.MonotonicBitGrowth : Prop :=
  ∀ (i : Instr) (s t : State), i = .insert ∨ i = .query ∨ i = .encode → Memory.wf s.buf = true → exec i s = .next t →
    ∀ p : Word, bitAt s.buf p = true → bitAt t.buf p = true

/-- 42_filter_engine R205: no false negatives. After an INSERT that completed with ERR = 0x00, any run of host interactions
without a reset, a CREATE or a DECODE that ends idle and unfaulted lets a QUERY of the word complete with ERR = 0x00 and
RESULT = 1. -/
def Obligations.NoFalseNegatives : Prop :=
  ∀ (s t u : State) (w : List Byte) (rest rest' : List InBeat) (n : Nat), Inv s → s.Usable →
    OffersPacket s.inStream w .endOfPacket rest → exec .insert s = .next t → t.err = 0x00#8 →
    (∀ ev ∈ t.host, KeepsFilter ev) → Sys2Proof.core.run n t = .next u → u.engine = .idle → u.faulted = false →
    OffersPacket u.inStream w .endOfPacket rest' →
    ∃ v, exec .query u = .next v ∧ v.err = 0x00#8 ∧ v.result = true

/-- 43_codec R241: round-trip fidelity. What an ENCODE delivers, offered as one packet to a block with the same parameters, is
decoded to the same K, M and BUF, with INSERTED_COUNT = 0. -/
def Obligations.EncodeDecodeRoundTrip : Prop :=
  ∀ (s t u : State) (as : List Response) (beats : List OutBeat) (rest : List InBeat), Inv s → s.Usable →
    s.answers = List.replicate (16 + s.bufLen) Response.take ++ as → exec .encode s = .next t →
    t.outLog = s.outLog ++ beats → u.Ready → u.params = s.params →
    OffersPacket u.inStream (beats.map OutBeat.data) .endOfPacket rest →
    exec .decode u = .next { u with
      inStream := rest, k := s.k, m := s.m, buf := s.buf, insertedCount := 0#64, cfgValid := true, err := 0x00#8
      result := false }
end

