-- ==== Sys2Proof/Laws/Memory.lean ====
section
/-! SUPPORT. BUF's bytes: read after write, the canonical form is kept by every operation and by reset, and canonical
memories with equal bytes are equal; then the bit operations of 41_bit_vector over them. -/
namespace Sys2Proof.Machine

/-! ### Canonical form -/

theorem wfFrom_mono {lo lo' : Nat} (h : lo' ≤ lo) {b : Memory} (hb : Memory.wfFrom lo b = true) :
    Memory.wfFrom lo' b = true := by
  cases b with
  | nil => rfl
  | cons c r =>
    simp only [Memory.wfFrom, Bool.and_eq_true, decide_eq_true_eq] at hb ⊢
    exact ⟨⟨Nat.le_trans h hb.1.1, hb.1.2⟩, hb.2⟩

theorem read_eq_zero_of_lt {lo a : Nat} (h : a < lo) {b : Memory} (hb : Memory.wfFrom lo b = true) :
    Memory.read a b = 0#8 := by
  induction b generalizing lo with
  | nil => rfl
  | cons c r ih =>
    simp only [Memory.wfFrom, Bool.and_eq_true, decide_eq_true_eq] at hb
    have hne : a ≠ c.1 := by omega
    simp only [Memory.read, if_neg hne]
    exact ih (by omega) hb.2

theorem wfFrom_write {lo a : Nat} (h : lo ≤ a) (v : Byte) {b : Memory} (hb : Memory.wfFrom lo b = true) :
    Memory.wfFrom lo (Memory.write a v b) = true := by
  induction b generalizing lo with
  | nil =>
    by_cases hv : v = 0#8
    · simp [Memory.write, hv, Memory.wfFrom]
    · simp [Memory.write, hv, Memory.wfFrom, h]
  | cons c r ih =>
    obtain ⟨b, w⟩ := c
    simp only [Memory.wfFrom, Bool.and_eq_true, decide_eq_true_eq] at hb
    obtain ⟨⟨h1, h2⟩, h3⟩ := hb
    simp only [Memory.write]
    split
    · split
      · simp [Memory.wfFrom, *]
      · simp [Memory.wfFrom, *]
    · split
      · split
        · exact wfFrom_mono (by omega) h3
        · simp_all [Memory.wfFrom]
      · simp only [Memory.wfFrom, Bool.and_eq_true, decide_eq_true_eq]
        exact ⟨⟨h1, h2⟩, ih (by omega) h3⟩

/-- A byte written reads back. -/
theorem read_write_same {lo : Nat} (a : Nat) (v : Byte) {b : Memory} (hb : Memory.wfFrom lo b = true) :
    Memory.read a (Memory.write a v b) = v := by
  induction b generalizing lo with
  | nil => by_cases hv : v = 0#8 <;> simp [Memory.write, hv, Memory.read]
  | cons c r ih =>
    obtain ⟨b, w⟩ := c
    simp only [Memory.wfFrom, Bool.and_eq_true, decide_eq_true_eq] at hb
    obtain ⟨⟨h1, h2⟩, h3⟩ := hb
    simp only [Memory.write]
    split
    · split
      · next hlt hv =>
        rw [hv]
        have : Memory.wfFrom b ((b, w) :: r) = true := by simp [Memory.wfFrom, h2, h3]
        exact read_eq_zero_of_lt hlt this
      · simp [Memory.read]
    · split
      · next hnlt heq =>
        split
        · next hv => rw [hv]; exact read_eq_zero_of_lt (by omega) h3
        · simp [Memory.read]
      · next hnlt hne =>
        simp only [Memory.read, if_neg hne]
        exact ih h3

/-- A write leaves every other byte as it was. -/
theorem read_write_other {a c : Nat} (h : c ≠ a) (v : Byte) (b : Memory) :
    Memory.read c (Memory.write a v b) = Memory.read c b := by
  induction b with
  | nil => by_cases hv : v = 0#8 <;> simp [Memory.write, hv, Memory.read, h]
  | cons d r ih =>
    obtain ⟨b, w⟩ := d
    simp only [Memory.write]
    split
    · split
      · rfl
      · simp [Memory.read, h]
    · split
      · next _ heq =>
        have hb : c ≠ b := by omega
        split <;> simp [Memory.read, h, hb]
      · simp only [Memory.read, ih]

theorem wfFrom_ofBytes (base : Nat) (bs : List Byte) : Memory.wfFrom base (Memory.ofBytes base bs) = true := by
  induction bs generalizing base with
  | nil => rfl
  | cons v r ih =>
    simp only [Memory.ofBytes]
    split
    · exact wfFrom_mono (by omega) (ih (base + 1))
    · simp only [Memory.wfFrom, Bool.and_eq_true, decide_eq_true_eq]
      exact ⟨⟨Nat.le_refl _, by assumption⟩, ih (base + 1)⟩

/-- The bytes of `ofBytes` read back, and every index beyond them reads 0x00. -/
theorem read_ofBytes (base i : Nat) (bs : List Byte) :
    Memory.read (base + i) (Memory.ofBytes base bs) = bs.getD i 0#8 := by
  induction bs generalizing base i with
  | nil => simp [Memory.ofBytes, Memory.read]
  | cons v r ih =>
    simp only [Memory.ofBytes]
    cases i with
    | zero =>
      split
      · next hv => simpa [hv] using read_eq_zero_of_lt (Nat.lt_succ_self base) (wfFrom_ofBytes (base + 1) r)
      · simp [Memory.read]
    | succ i =>
      have e : base + (i + 1) = base + 1 + i := by omega
      split
      · rw [e, ih]; simp
      · have hne : base + 1 + i ≠ base := by omega
        rw [e]; simp only [Memory.read, if_neg hne, ih]; simp

theorem below_ofBytes (base : Nat) (bs : List Byte) :
    Memory.below (base + bs.length) (Memory.ofBytes base bs) = true := by
  induction bs generalizing base with
  | nil => rfl
  | cons v r ih =>
    have h := ih (base + 1)
    have e : base + 1 + r.length = base + (v :: r).length := by simp; omega
    rw [e] at h
    simp only [Memory.ofBytes]
    split
    · exact h
    · simp only [Memory.below, List.all_cons, Bool.and_eq_true, decide_eq_true_eq]
      exact ⟨by simp, h⟩

theorem below_cons (l : Nat) (c : Host.Cell) (r : Memory) :
    Memory.below l (c :: r) = true ↔ c.1 < l ∧ Memory.below l r = true := by
  unfold Memory.below
  rw [List.all_cons, Bool.and_eq_true, decide_eq_true_eq]

theorem below_write {l a : Nat} (h : a < l) (v : Byte) {b : Memory} (hb : Memory.below l b = true) :
    Memory.below l (Memory.write a v b) = true := by
  induction b with
  | nil => by_cases hv : v = 0#8 <;> simp [Memory.write, hv, Memory.below, h]
  | cons c r ih =>
    obtain ⟨b, w⟩ := c
    have hc := (below_cons l (b, w) r).1 hb
    simp only [Memory.write]
    split
    · split
      · exact hb
      · exact (below_cons _ _ _).2 ⟨h, hb⟩
    · split
      · split
        · exact hc.2
        · exact (below_cons _ _ _).2 ⟨h, hc.2⟩
      · exact (below_cons _ _ _).2 ⟨hc.1, ih hc.2⟩

/-- An index beyond every listed cell reads 0x00. -/
theorem read_of_below {l a : Nat} (h : l ≤ a) {b : Memory} (hb : Memory.below l b = true) : Memory.read a b = 0#8 := by
  induction b with
  | nil => rfl
  | cons c r ih =>
    simp only [Memory.below, List.all_cons, Bool.and_eq_true, decide_eq_true_eq] at hb
    have hne : a ≠ c.1 := by omega
    simp only [Memory.read, if_neg hne]
    exact ih hb.2

/-- Canonical memories with equal bytes are equal data. -/
theorem Memory.ext_read {lo : Nat} {b c : Memory} (hb : Memory.wfFrom lo b = true) (hc : Memory.wfFrom lo c = true)
    (h : ∀ a, Memory.read a b = Memory.read a c) : b = c := by
  induction b generalizing lo c with
  | nil =>
    cases c with
    | nil => rfl
    | cons d r =>
      have h1 := h d.1
      simp only [Memory.wfFrom, Bool.and_eq_true, decide_eq_true_eq] at hc
      simp [Memory.read] at h1
      exact absurd h1.symm hc.1.2
  | cons d r ih =>
    obtain ⟨a, v⟩ := d
    simp only [Memory.wfFrom, Bool.and_eq_true, decide_eq_true_eq] at hb
    cases c with
    | nil =>
      have h1 := h a
      simp [Memory.read] at h1
      exact absurd h1 hb.1.2
    | cons d' r' =>
      obtain ⟨a', v'⟩ := d'
      simp only [Memory.wfFrom, Bool.and_eq_true, decide_eq_true_eq] at hc
      have haa : a = a' := by
        rcases Nat.lt_trichotomy a a' with hlt | heq | hgt
        · have h1 := h a
          have h0 : Memory.read a ((a', v') :: r') = 0#8 :=
            read_eq_zero_of_lt (lo := a') hlt (by simp [Memory.wfFrom, hc.1.2, hc.2])
          rw [h0] at h1
          simp [Memory.read] at h1
          exact absurd h1 hb.1.2
        · exact heq
        · have h1 := h a'
          have h0 : Memory.read a' ((a, v) :: r) = 0#8 :=
            read_eq_zero_of_lt (lo := a) hgt (by simp [Memory.wfFrom, hb.1.2, hb.2])
          rw [h0] at h1
          simp [Memory.read] at h1
          exact absurd h1.symm hc.1.2
      subst haa
      have hv : v = v' := by simpa [Memory.read] using h a
      subst hv
      have hr : r = r' := by
        apply ih hb.2 hc.2
        intro x
        by_cases hx : x = a
        · subst hx
          rw [read_eq_zero_of_lt (Nat.lt_succ_self x) hb.2, read_eq_zero_of_lt (Nat.lt_succ_self x) hc.2]
        · simpa [Memory.read, hx] using h x
      rw [hr]

/-! ### Every operation keeps the canonical form -/

theorem wf_write (a : Nat) (v : Byte) {b : Memory} (hb : Memory.wf b = true) : Memory.wf (Memory.write a v b) = true :=
  wfFrom_write (Nat.zero_le a) v hb

theorem wf_ofBytes (bs : List Byte) : Memory.wf (Memory.ofBytes 0 bs) = true := wfFrom_ofBytes 0 bs

theorem wf_clearAll : Memory.wf clearAll = true := rfl

theorem wf_loadByte (i : Nat) (v : Byte) {b : Memory} (hb : Memory.wf b = true) : Memory.wf (loadByte i v b) = true :=
  wf_write i v hb

theorem wf_loadAll (bs : List Byte) : Memory.wf (loadAll bs) = true := wf_ofBytes bs

theorem wf_freeBuf (s : State) : Memory.wf (freeBuf s) = true := wf_ofBytes _

theorem wf_reset : Memory.wf State.reset.buf = true := rfl

/-! ### Bits -/

/-- SETBIT answers a buffer exactly for a position in range. -/
theorem setBit_eq_none (l : Nat) (p : Word) (b : Memory) : setBit l p b = none ↔ inRange l p = false := by
  simp [setBit]

theorem setBit_of_inRange {l : Nat} {p : Word} (h : inRange l p = true) (b : Memory) :
    setBit l p b = some (Memory.write (byteIndex p) (Memory.read (byteIndex p) b ||| (1#8 <<< bitOffset p)) b) := by
  simp [setBit, h]

theorem testBit_of_inRange {l : Nat} {p : Word} (h : inRange l p = true) (b : Memory) :
    testBit l p b = some (bitAt b p) := by
  simp [testBit, h]

theorem testBit_of_not_inRange {l : Nat} {p : Word} (h : inRange l p = false) (b : Memory) : testBit l p b = none := by
  simp [testBit, h]

theorem wf_setBit {l : Nat} {p : Word} {b b' : Memory} (hb : Memory.wf b = true) (h : setBit l p b = some b') :
    Memory.wf b' = true := by
  simp only [setBit, Option.ite_none_right_eq_some, Option.some.injEq] at h
  exact h.2 ▸ wf_write _ _ hb

theorem below_setBit {l : Nat} {p : Word} {b b' : Memory} (hb : Memory.below l b = true) (h : setBit l p b = some b') :
    Memory.below l b' = true := by
  simp only [setBit, inRange, decide_eq_true_eq, Option.ite_none_right_eq_some, Option.some.injEq] at h
  exact h.2 ▸ below_write h.1 _ hb

/-- SETBIT writes one byte only. -/
theorem read_setBit_other {l a : Nat} {p : Word} {b b' : Memory} (ha : a ≠ byteIndex p) (h : setBit l p b = some b') :
    Memory.read a b' = Memory.read a b := by
  simp only [setBit, Option.ite_none_right_eq_some, Option.some.injEq] at h
  exact h.2 ▸ read_write_other ha _ b

theorem wf_setAll {l i : Nat} {ps : List Word} {b b' : Memory} (hb : Memory.wf b = true) (h : setAll l i ps b = .ok b') :
    Memory.wf b' = true := by
  induction ps generalizing i b with
  | nil => simp only [setAll, Except.ok.injEq] at h; exact h ▸ hb
  | cons p ps ih =>
    simp only [setAll] at h
    split at h
    · next b1 h1 => exact ih (wf_setBit hb h1) h
    · cases h

theorem below_setAll {l i : Nat} {ps : List Word} {b b' : Memory} (hb : Memory.below l b = true)
    (h : setAll l i ps b = .ok b') : Memory.below l b' = true := by
  induction ps generalizing i b with
  | nil => simp only [setAll, Except.ok.injEq] at h; exact h ▸ hb
  | cons p ps ih =>
    simp only [setAll] at h
    split at h
    · next b1 h1 => exact ih (below_setBit hb h1) h
    · cases h

theorem wf_setSome {l : Nat} {taken : Nat → Bool} {i : Nat} {ps : List Word} {b : Memory} (hb : Memory.wf b = true) :
    Memory.wf (setSome l taken i ps b) = true := by
  induction ps generalizing i b with
  | nil => exact hb
  | cons p ps ih =>
    simp only [setSome]
    apply ih
    split
    · cases h : setBit l p b with
      | none => exact hb
      | some b' => exact wf_setBit hb h
    · exact hb

theorem below_setSome {l : Nat} {taken : Nat → Bool} {i : Nat} {ps : List Word} {b : Memory}
    (hb : Memory.below l b = true) : Memory.below l (setSome l taken i ps b) = true := by
  induction ps generalizing i b with
  | nil => exact hb
  | cons p ps ih =>
    simp only [setSome]
    apply ih
    split
    · cases h : setBit l p b with
      | none => exact hb
      | some b' => exact below_setBit hb h
    · exact hb

/-- `setAll` answers a buffer exactly when every position is in range; on an error it names the first that is not. -/
theorem setAll_ok_iff (l i : Nat) (ps : List Word) (b : Memory) :
    (∃ b', setAll l i ps b = .ok b') ↔ ∀ p ∈ ps, inRange l p = true := by
  induction ps generalizing i b with
  | nil => simp [setAll]
  | cons p ps ih =>
    by_cases hp : inRange l p = true
    · simp only [setAll, setBit_of_inRange hp, List.mem_cons, forall_eq_or_imp, hp, true_and]
      exact ih _ _
    · simp only [Bool.not_eq_true] at hp
      simp [setAll, (setBit_eq_none l p b).2 hp, hp]

/-- The bytes of a loaded body, and 0x00 beyond. -/
theorem read_loadAll (bs : List Byte) (a : Nat) : Memory.read a (loadAll bs) = bs.getD a 0#8 := by
  have h := read_ofBytes 0 a bs
  rwa [Nat.zero_add] at h

/-- The loop `for i: LOADBYTE(i, body[i])` of 43_codec R230, from byte `base` on. -/
def loadLoop (base : Nat) : List Byte → Memory → Memory
  | [], b => b
  | v :: rest, b => loadLoop (base + 1) rest (loadByte base v b)

theorem wf_loadLoop (base : Nat) (bs : List Byte) {b : Memory} (hb : Memory.wf b = true) :
    Memory.wf (loadLoop base bs b) = true := by
  induction bs generalizing base b with
  | nil => exact hb
  | cons v r ih => exact ih _ (wf_loadByte base v hb)

theorem read_loadLoop (base a : Nat) (bs : List Byte) {b : Memory} (hb : Memory.wf b = true) :
    Memory.read a (loadLoop base bs b) = if base ≤ a then bs.getD (a - base) (Memory.read a b) else Memory.read a b := by
  induction bs generalizing base b with
  | nil => simp [loadLoop]
  | cons v r ih =>
    simp only [loadLoop]
    rw [ih _ (wf_loadByte base v hb)]
    rcases Nat.lt_trichotomy a base with h | h | h
    · rw [if_neg (by omega), if_neg (by omega), loadByte, read_write_other (by omega)]
    · subst h
      rw [if_neg (by omega), if_pos (Nat.le_refl _), loadByte, read_write_same a v hb]
      simp
    · have e : a - base = a - (base + 1) + 1 := by omega
      rw [if_pos (by omega), if_pos (by omega), loadByte, read_write_other (by omega), e]
      simp

/-- The buffer a DECODE builds is that of the LOADBYTE loop over a buffer all zero (43_codec R230, R234). -/
theorem loadAll_eq_loop (bs : List Byte) : loadAll bs = loadLoop 0 bs clearAll := by
  apply Memory.ext_read (wf_loadAll bs) (wf_loadLoop 0 bs wf_clearAll)
  intro a
  rw [read_loadAll, read_loadLoop 0 a bs wf_clearAll]
  simp [clearAll, Memory.read]

end Sys2Proof.Machine
end

