-- ==== Sys2Proof/Laws/State.lean ====
section
/-! SUPPORT. What each named update of State does to each field, and BUSY in each engine state: no later proof unfolds an
update. -/
namespace Sys2Proof.Machine

/-! ### complete -/

@[simp] theorem complete_argN (r : Bool) (s : State) : (complete r s).argN = s.argN := rfl
@[simp] theorem complete_argP (r : Bool) (s : State) : (complete r s).argP = s.argP := rfl
@[simp] theorem complete_k (r : Bool) (s : State) : (complete r s).k = s.k := rfl
@[simp] theorem complete_m (r : Bool) (s : State) : (complete r s).m = s.m := rfl
@[simp] theorem complete_insertedCount (r : Bool) (s : State) : (complete r s).insertedCount = s.insertedCount := rfl
@[simp] theorem complete_cfgValid (r : Bool) (s : State) : (complete r s).cfgValid = s.cfgValid := rfl
@[simp] theorem complete_faulted (r : Bool) (s : State) : (complete r s).faulted = s.faulted := rfl
@[simp] theorem complete_result (r : Bool) (s : State) : (complete r s).result = r := rfl
@[simp] theorem complete_err (r : Bool) (s : State) : (complete r s).err = 0x00#8 := rfl
@[simp] theorem complete_faultCause (r : Bool) (s : State) : (complete r s).faultCause = s.faultCause := rfl
@[simp] theorem complete_faultRound (r : Bool) (s : State) : (complete r s).faultRound = s.faultRound := rfl
@[simp] theorem complete_faultInfo (r : Bool) (s : State) : (complete r s).faultInfo = s.faultInfo := rfl
@[simp] theorem complete_buf (r : Bool) (s : State) : (complete r s).buf = s.buf := rfl
@[simp] theorem complete_engine (r : Bool) (s : State) : (complete r s).engine = .idle := rfl
@[simp] theorem complete_inStream (r : Bool) (s : State) : (complete r s).inStream = s.inStream := rfl
@[simp] theorem complete_answers (r : Bool) (s : State) : (complete r s).answers = s.answers := rfl
@[simp] theorem complete_outLog (r : Bool) (s : State) : (complete r s).outLog = s.outLog := rfl
@[simp] theorem complete_readLog (r : Bool) (s : State) : (complete r s).readLog = s.readLog := rfl
@[simp] theorem complete_host (r : Bool) (s : State) : (complete r s).host = s.host := rfl
@[simp] theorem complete_params (r : Bool) (s : State) : (complete r s).params = s.params := rfl
@[simp] theorem complete_draws (r : Bool) (s : State) : (complete r s).draws = s.draws := rfl

/-! ### raiseError -/

@[simp] theorem raiseError_argN (c : Byte) (s : State) : (raiseError c s).argN = s.argN := rfl
@[simp] theorem raiseError_argP (c : Byte) (s : State) : (raiseError c s).argP = s.argP := rfl
@[simp] theorem raiseError_k (c : Byte) (s : State) : (raiseError c s).k = s.k := rfl
@[simp] theorem raiseError_m (c : Byte) (s : State) : (raiseError c s).m = s.m := rfl
@[simp] theorem raiseError_insertedCount (c : Byte) (s : State) : (raiseError c s).insertedCount = s.insertedCount := rfl
@[simp] theorem raiseError_cfgValid (c : Byte) (s : State) : (raiseError c s).cfgValid = s.cfgValid := rfl
@[simp] theorem raiseError_faulted (c : Byte) (s : State) : (raiseError c s).faulted = s.faulted := rfl
@[simp] theorem raiseError_result (c : Byte) (s : State) : (raiseError c s).result = false := rfl
@[simp] theorem raiseError_err (c : Byte) (s : State) : (raiseError c s).err = c := rfl
@[simp] theorem raiseError_faultCause (c : Byte) (s : State) : (raiseError c s).faultCause = s.faultCause := rfl
@[simp] theorem raiseError_faultRound (c : Byte) (s : State) : (raiseError c s).faultRound = s.faultRound := rfl
@[simp] theorem raiseError_faultInfo (c : Byte) (s : State) : (raiseError c s).faultInfo = s.faultInfo := rfl
@[simp] theorem raiseError_buf (c : Byte) (s : State) : (raiseError c s).buf = s.buf := rfl
@[simp] theorem raiseError_engine (c : Byte) (s : State) : (raiseError c s).engine = .idle := rfl
@[simp] theorem raiseError_inStream (c : Byte) (s : State) : (raiseError c s).inStream = s.inStream := rfl
@[simp] theorem raiseError_answers (c : Byte) (s : State) : (raiseError c s).answers = s.answers := rfl
@[simp] theorem raiseError_outLog (c : Byte) (s : State) : (raiseError c s).outLog = s.outLog := rfl
@[simp] theorem raiseError_readLog (c : Byte) (s : State) : (raiseError c s).readLog = s.readLog := rfl
@[simp] theorem raiseError_host (c : Byte) (s : State) : (raiseError c s).host = s.host := rfl
@[simp] theorem raiseError_params (c : Byte) (s : State) : (raiseError c s).params = s.params := rfl
@[simp] theorem raiseError_draws (c : Byte) (s : State) : (raiseError c s).draws = s.draws := rfl

/-! ### raiseFault -/

@[simp] theorem raiseFault_argN (c : Byte) (i : Nat) (p : Word) (s : State) : (raiseFault c i p s).argN = s.argN := rfl
@[simp] theorem raiseFault_argP (c : Byte) (i : Nat) (p : Word) (s : State) : (raiseFault c i p s).argP = s.argP := rfl
@[simp] theorem raiseFault_k (c : Byte) (i : Nat) (p : Word) (s : State) : (raiseFault c i p s).k = s.k := rfl
@[simp] theorem raiseFault_m (c : Byte) (i : Nat) (p : Word) (s : State) : (raiseFault c i p s).m = s.m := rfl
@[simp] theorem raiseFault_insertedCount (c : Byte) (i : Nat) (p : Word) (s : State) : (raiseFault c i p s).insertedCount = s.insertedCount := rfl
@[simp] theorem raiseFault_cfgValid (c : Byte) (i : Nat) (p : Word) (s : State) : (raiseFault c i p s).cfgValid = s.cfgValid := rfl
@[simp] theorem raiseFault_faulted (c : Byte) (i : Nat) (p : Word) (s : State) : (raiseFault c i p s).faulted = true := rfl
@[simp] theorem raiseFault_result (c : Byte) (i : Nat) (p : Word) (s : State) : (raiseFault c i p s).result = false := rfl
@[simp] theorem raiseFault_err (c : Byte) (i : Nat) (p : Word) (s : State) : (raiseFault c i p s).err = c := rfl
@[simp] theorem raiseFault_faultCause (c : Byte) (i : Nat) (p : Word) (s : State) : (raiseFault c i p s).faultCause = c := rfl
@[simp] theorem raiseFault_faultRound (c : Byte) (i : Nat) (p : Word) (s : State) : (raiseFault c i p s).faultRound = BitVec.ofNat 8 i := rfl
@[simp] theorem raiseFault_faultInfo (c : Byte) (i : Nat) (p : Word) (s : State) : (raiseFault c i p s).faultInfo = p := rfl
@[simp] theorem raiseFault_buf (c : Byte) (i : Nat) (p : Word) (s : State) : (raiseFault c i p s).buf = s.buf := rfl
@[simp] theorem raiseFault_engine (c : Byte) (i : Nat) (p : Word) (s : State) : (raiseFault c i p s).engine = .idle := rfl
@[simp] theorem raiseFault_inStream (c : Byte) (i : Nat) (p : Word) (s : State) : (raiseFault c i p s).inStream = s.inStream := rfl
@[simp] theorem raiseFault_answers (c : Byte) (i : Nat) (p : Word) (s : State) : (raiseFault c i p s).answers = s.answers := rfl
@[simp] theorem raiseFault_outLog (c : Byte) (i : Nat) (p : Word) (s : State) : (raiseFault c i p s).outLog = s.outLog := rfl
@[simp] theorem raiseFault_readLog (c : Byte) (i : Nat) (p : Word) (s : State) : (raiseFault c i p s).readLog = s.readLog := rfl
@[simp] theorem raiseFault_host (c : Byte) (i : Nat) (p : Word) (s : State) : (raiseFault c i p s).host = s.host := rfl
@[simp] theorem raiseFault_params (c : Byte) (i : Nat) (p : Word) (s : State) : (raiseFault c i p s).params = s.params := rfl
@[simp] theorem raiseFault_draws (c : Byte) (i : Nat) (p : Word) (s : State) : (raiseFault c i p s).draws = s.draws := rfl

/-! ### configure -/

@[simp] theorem configure_argN (k : Byte) (m : Word) (b : Memory) (s : State) : (configure k m b s).argN = s.argN := rfl
@[simp] theorem configure_argP (k : Byte) (m : Word) (b : Memory) (s : State) : (configure k m b s).argP = s.argP := rfl
@[simp] theorem configure_k (k : Byte) (m : Word) (b : Memory) (s : State) : (configure k m b s).k = k := rfl
@[simp] theorem configure_m (k : Byte) (m : Word) (b : Memory) (s : State) : (configure k m b s).m = m := rfl
@[simp] theorem configure_insertedCount (k : Byte) (m : Word) (b : Memory) (s : State) : (configure k m b s).insertedCount = 0#64 := rfl
@[simp] theorem configure_cfgValid (k : Byte) (m : Word) (b : Memory) (s : State) : (configure k m b s).cfgValid = true := rfl
@[simp] theorem configure_faulted (k : Byte) (m : Word) (b : Memory) (s : State) : (configure k m b s).faulted = s.faulted := rfl
@[simp] theorem configure_result (k : Byte) (m : Word) (b : Memory) (s : State) : (configure k m b s).result = s.result := rfl
@[simp] theorem configure_err (k : Byte) (m : Word) (b : Memory) (s : State) : (configure k m b s).err = s.err := rfl
@[simp] theorem configure_faultCause (k : Byte) (m : Word) (b : Memory) (s : State) : (configure k m b s).faultCause = s.faultCause := rfl
@[simp] theorem configure_faultRound (k : Byte) (m : Word) (b : Memory) (s : State) : (configure k m b s).faultRound = s.faultRound := rfl
@[simp] theorem configure_faultInfo (k : Byte) (m : Word) (b : Memory) (s : State) : (configure k m b s).faultInfo = s.faultInfo := rfl
@[simp] theorem configure_buf (k : Byte) (m : Word) (b : Memory) (s : State) : (configure k m b s).buf = b := rfl
@[simp] theorem configure_engine (k : Byte) (m : Word) (b : Memory) (s : State) : (configure k m b s).engine = s.engine := rfl
@[simp] theorem configure_inStream (k : Byte) (m : Word) (b : Memory) (s : State) : (configure k m b s).inStream = s.inStream := rfl
@[simp] theorem configure_answers (k : Byte) (m : Word) (b : Memory) (s : State) : (configure k m b s).answers = s.answers := rfl
@[simp] theorem configure_outLog (k : Byte) (m : Word) (b : Memory) (s : State) : (configure k m b s).outLog = s.outLog := rfl
@[simp] theorem configure_readLog (k : Byte) (m : Word) (b : Memory) (s : State) : (configure k m b s).readLog = s.readLog := rfl
@[simp] theorem configure_host (k : Byte) (m : Word) (b : Memory) (s : State) : (configure k m b s).host = s.host := rfl
@[simp] theorem configure_params (k : Byte) (m : Word) (b : Memory) (s : State) : (configure k m b s).params = s.params := rfl
@[simp] theorem configure_draws (k : Byte) (m : Word) (b : Memory) (s : State) : (configure k m b s).draws = s.draws := rfl

/-! ### unconfigure -/

@[simp] theorem unconfigure_argN (s : State) : (unconfigure s).argN = s.argN := rfl
@[simp] theorem unconfigure_argP (s : State) : (unconfigure s).argP = s.argP := rfl
@[simp] theorem unconfigure_k (s : State) : (unconfigure s).k = 0#8 := rfl
@[simp] theorem unconfigure_m (s : State) : (unconfigure s).m = 0#64 := rfl
@[simp] theorem unconfigure_insertedCount (s : State) : (unconfigure s).insertedCount = 0#64 := rfl
@[simp] theorem unconfigure_cfgValid (s : State) : (unconfigure s).cfgValid = false := rfl
@[simp] theorem unconfigure_faulted (s : State) : (unconfigure s).faulted = s.faulted := rfl
@[simp] theorem unconfigure_result (s : State) : (unconfigure s).result = s.result := rfl
@[simp] theorem unconfigure_err (s : State) : (unconfigure s).err = s.err := rfl
@[simp] theorem unconfigure_faultCause (s : State) : (unconfigure s).faultCause = s.faultCause := rfl
@[simp] theorem unconfigure_faultRound (s : State) : (unconfigure s).faultRound = s.faultRound := rfl
@[simp] theorem unconfigure_faultInfo (s : State) : (unconfigure s).faultInfo = s.faultInfo := rfl
@[simp] theorem unconfigure_buf (s : State) : (unconfigure s).buf = freeBuf s := rfl
@[simp] theorem unconfigure_engine (s : State) : (unconfigure s).engine = s.engine := rfl
@[simp] theorem unconfigure_inStream (s : State) : (unconfigure s).inStream = s.inStream := rfl
@[simp] theorem unconfigure_answers (s : State) : (unconfigure s).answers = s.answers := rfl
@[simp] theorem unconfigure_outLog (s : State) : (unconfigure s).outLog = s.outLog := rfl
@[simp] theorem unconfigure_readLog (s : State) : (unconfigure s).readLog = s.readLog := rfl
@[simp] theorem unconfigure_host (s : State) : (unconfigure s).host = s.host := rfl
@[simp] theorem unconfigure_params (s : State) : (unconfigure s).params = s.params := rfl
@[simp] theorem unconfigure_draws (s : State) : (unconfigure s).draws = s.draws + 1 := rfl

/-! ### accept -/

@[simp] theorem accept_argN (c : Command) (s : State) : (accept c s).argN = s.argN := rfl
@[simp] theorem accept_argP (c : Command) (s : State) : (accept c s).argP = s.argP := rfl
@[simp] theorem accept_k (c : Command) (s : State) : (accept c s).k = s.k := rfl
@[simp] theorem accept_m (c : Command) (s : State) : (accept c s).m = s.m := rfl
@[simp] theorem accept_insertedCount (c : Command) (s : State) : (accept c s).insertedCount = s.insertedCount := rfl
@[simp] theorem accept_cfgValid (c : Command) (s : State) : (accept c s).cfgValid = s.cfgValid := rfl
@[simp] theorem accept_faulted (c : Command) (s : State) : (accept c s).faulted = s.faulted := rfl
@[simp] theorem accept_result (c : Command) (s : State) : (accept c s).result = s.result := rfl
@[simp] theorem accept_err (c : Command) (s : State) : (accept c s).err = s.err := rfl
@[simp] theorem accept_faultCause (c : Command) (s : State) : (accept c s).faultCause = s.faultCause := rfl
@[simp] theorem accept_faultRound (c : Command) (s : State) : (accept c s).faultRound = s.faultRound := rfl
@[simp] theorem accept_faultInfo (c : Command) (s : State) : (accept c s).faultInfo = s.faultInfo := rfl
@[simp] theorem accept_buf (c : Command) (s : State) : (accept c s).buf = s.buf := rfl
@[simp] theorem accept_engine (c : Command) (s : State) : (accept c s).engine = .accepted c := rfl
@[simp] theorem accept_inStream (c : Command) (s : State) : (accept c s).inStream = s.inStream := rfl
@[simp] theorem accept_answers (c : Command) (s : State) : (accept c s).answers = s.answers := rfl
@[simp] theorem accept_outLog (c : Command) (s : State) : (accept c s).outLog = s.outLog := rfl
@[simp] theorem accept_readLog (c : Command) (s : State) : (accept c s).readLog = s.readLog := rfl
@[simp] theorem accept_host (c : Command) (s : State) : (accept c s).host = s.host := rfl
@[simp] theorem accept_params (c : Command) (s : State) : (accept c s).params = s.params := rfl
@[simp] theorem accept_draws (c : Command) (s : State) : (accept c s).draws = s.draws := rfl

/-! ### resetBlock -/

@[simp] theorem resetBlock_argN (s : State) : (resetBlock s).argN = 0#64 := rfl
@[simp] theorem resetBlock_argP (s : State) : (resetBlock s).argP = 0#64 := rfl
@[simp] theorem resetBlock_k (s : State) : (resetBlock s).k = 0#8 := rfl
@[simp] theorem resetBlock_m (s : State) : (resetBlock s).m = 0#64 := rfl
@[simp] theorem resetBlock_insertedCount (s : State) : (resetBlock s).insertedCount = 0#64 := rfl
@[simp] theorem resetBlock_cfgValid (s : State) : (resetBlock s).cfgValid = false := rfl
@[simp] theorem resetBlock_faulted (s : State) : (resetBlock s).faulted = false := rfl
@[simp] theorem resetBlock_result (s : State) : (resetBlock s).result = false := rfl
@[simp] theorem resetBlock_err (s : State) : (resetBlock s).err = 0x00#8 := rfl
@[simp] theorem resetBlock_faultCause (s : State) : (resetBlock s).faultCause = 0x00#8 := rfl
@[simp] theorem resetBlock_faultRound (s : State) : (resetBlock s).faultRound = 0x00#8 := rfl
@[simp] theorem resetBlock_faultInfo (s : State) : (resetBlock s).faultInfo = 0#64 := rfl
@[simp] theorem resetBlock_buf (s : State) : (resetBlock s).buf = freeBuf s := rfl
@[simp] theorem resetBlock_engine (s : State) : (resetBlock s).engine = .idle := rfl
@[simp] theorem resetBlock_inStream (s : State) : (resetBlock s).inStream = s.inStream := rfl
@[simp] theorem resetBlock_answers (s : State) : (resetBlock s).answers = s.answers := rfl
@[simp] theorem resetBlock_outLog (s : State) : (resetBlock s).outLog = s.outLog := rfl
@[simp] theorem resetBlock_readLog (s : State) : (resetBlock s).readLog = s.readLog := rfl
@[simp] theorem resetBlock_host (s : State) : (resetBlock s).host = s.host := rfl
@[simp] theorem resetBlock_params (s : State) : (resetBlock s).params = s.params := rfl
@[simp] theorem resetBlock_draws (s : State) : (resetBlock s).draws = s.draws + 1 := rfl

/-! ### BUSY and L -/

@[simp] theorem complete_busy (r : Bool) (s : State) : (complete r s).busy = false := rfl
@[simp] theorem raiseError_busy (c : Byte) (s : State) : (raiseError c s).busy = false := rfl
@[simp] theorem raiseFault_busy (c : Byte) (i : Nat) (p : Word) (s : State) : (raiseFault c i p s).busy = false := rfl
@[simp] theorem accept_busy (c : Command) (s : State) : (accept c s).busy = true := rfl
@[simp] theorem resetBlock_busy (s : State) : (resetBlock s).busy = false := rfl
@[simp] theorem configure_busy (k : Byte) (m : Word) (b : Memory) (s : State) : (configure k m b s).busy = s.busy := rfl
@[simp] theorem unconfigure_busy (s : State) : (unconfigure s).busy = s.busy := rfl
@[simp] theorem accept_bufLen (c : Command) (s : State) : (accept c s).bufLen = s.bufLen := rfl
@[simp] theorem configure_bufLen (k : Byte) (m : Word) (b : Memory) (s : State) :
    (configure k m b s).bufLen = byteLen m := rfl

/-- BUSY is the engine being other than idle. -/
theorem busy_eq_false_iff (s : State) : s.busy = false ↔ s.engine = .idle := by
  cases h : s.engine <;> simp [State.busy, h]

/-- BUSY is the engine being other than idle. -/
theorem busy_eq_true_iff (s : State) : s.busy = true ↔ s.engine ≠ .idle := by
  cases h : s.engine <;> simp [State.busy, h]

/-- A state built of another's fields with the engine idle and nothing else changed is that state. -/
theorem raise_idle_engine (s : State) (h : s.engine = .idle) : { s with engine := .idle } = s := by
  cases s; cases h; rfl

end Sys2Proof.Machine
end

