-- ==== Sys2Proof/Laws/Streams.lean ====
section
/-! SUPPORT. What each reading of the input stream and the offering of output beats can do: one spec lemma per function of
Machine/Operands.lean, which later proofs cite instead of unfolding it. -/
namespace Sys2Proof.Machine

/-- Beats that all mean DATA. -/
theorem beat_data_cons {b : InBeat} {ds : List InBeat} {w : List Byte}
    (h : (b :: ds).map InBeat.beat = w.map Beat.data) :
    ∃ d w', w = d :: w' ∧ b.beat = .data d ∧ ds.map InBeat.beat = w'.map Beat.data := by
  cases w with
  | nil => cases h
  | cons d w' =>
    simp only [List.map_cons, List.cons.injEq] at h
    exact ⟨d, w', rfl, h.1, h.2⟩

theorem beat_data_nil {w : List Byte} (h : ([] : List InBeat).map InBeat.beat = w.map Beat.data) : w = [] := by
  cases w with
  | nil => rfl
  | cons d w' => cases h

/-! ### The word loop -/

theorem takeWord_data {ds : List InBeat} {w : List Byte} (h : ds.map InBeat.beat = w.map Beat.data) (acc : Word) (n : Nat)
    (rest : List InBeat) :
    takeWord acc n (ds ++ rest) = takeWord (w.foldl digestByte acc) (n + w.length) rest := by
  induction ds generalizing w acc n with
  | nil => rw [beat_data_nil h]; rfl
  | cons b ds ih =>
    obtain ⟨d, w', rfl, hb, hds⟩ := beat_data_cons h
    simp only [List.cons_append, takeWord, hb, ih hds, List.foldl_cons, List.length_cons]
    congr 1
    omega

/-- A complete packet gives the word's digest. -/
theorem takeWord_complete {beats rest : List InBeat} {w : List Byte} (h : OffersPacket beats w .endOfPacket rest) (n : Nat) :
    takeWord fnvOffset n beats = .complete (digest w) rest := by
  obtain ⟨ds, e, rfl, hds, he, -⟩ := h
  rw [takeWord_data hds]
  simp [takeWord, he, digest]

/-- A failed packet gives no digest. -/
theorem takeWord_failed {beats rest : List InBeat} {w : List Byte} (h : OffersPacket beats w .err rest) (acc : Word) (n : Nat) :
    takeWord acc n beats = .failed rest := by
  obtain ⟨ds, e, rfl, hds, he, -⟩ := h
  rw [takeWord_data hds]
  simp [takeWord, he]

/-- A packet not ended yet leaves the loop waiting. -/
theorem takeWord_open {beats : List InBeat} {w : List Byte} (h : OffersOpen beats w) (acc : Word) (n : Nat) :
    takeWord acc n beats = .waiting (w.foldl digestByte acc) (n + w.length) := by
  have e := takeWord_data h acc n []
  rwa [List.append_nil] at e

/-! ### A number of bytes -/

/-- Enough DATA beats fill the reading, and the rest of the packet stays. -/
theorem takeData_filled {ds : List InBeat} {w : List Byte} (h : ds.map InBeat.beat = w.map Beat.data) (rest : List InBeat) :
    takeData w.length (ds ++ rest) = (w, .filled, rest) := by
  induction ds generalizing w with
  | nil =>
    rw [beat_data_nil h]
    cases rest <;> simp [takeData]
  | cons b ds ih =>
    obtain ⟨d, w', rfl, hb, hds⟩ := beat_data_cons h
    simp [takeData, hb, ih hds]

/-- Too few DATA beats: the reading stops at the terminator, which is consumed. -/
theorem takeData_short {beats rest : List InBeat} {w : List Byte} {term : Beat} (h : OffersPacket beats w term rest) {n : Nat}
    (hn : w.length < n) :
    takeData n beats = (w, if term = .endOfPacket then .ended else .failed, rest) := by
  obtain ⟨ds, e, rfl, hds, he, ht⟩ := h
  induction ds generalizing w n with
  | nil =>
    rw [beat_data_nil hds] at hn ⊢
    have h0 : n ≠ 0 := by simp at hn; omega
    rcases ht with rfl | rfl <;> simp [takeData, he, h0]
  | cons b ds ih =>
    obtain ⟨d, w', rfl, hb, hds'⟩ := beat_data_cons hds
    have h0 : n ≠ 0 := by omega
    have h1 : w'.length < n - 1 := by simp at hn; omega
    have e1 := ih h1 hds'
    simp [takeData, hb, h0, e1]

/-- Too few DATA beats in a packet not ended yet: the reading waits. -/
theorem takeData_open {beats : List InBeat} {w : List Byte} (h : OffersOpen beats w) {n : Nat} (hn : w.length < n) :
    takeData n beats = (w, .waiting, []) := by
  unfold OffersOpen at h
  induction beats generalizing w n with
  | nil =>
    rw [beat_data_nil h] at hn ⊢
    have h0 : n ≠ 0 := by simp at hn; omega
    simp [takeData, h0]
  | cons b ds ih =>
    obtain ⟨d, w', rfl, hb, hds'⟩ := beat_data_cons h
    have h0 : n ≠ 0 := by omega
    have h1 : w'.length < n - 1 := by simp at hn; omega
    simp [takeData, hb, h0, ih hds' h1]

/-! ### The drain -/

/-- DRAIN consumes a packet up to and including its terminator, whichever it is. -/
theorem drainBeats_packet {beats rest : List InBeat} {w : List Byte} {term : Beat} (h : OffersPacket beats w term rest)
    (n : Nat) : drainBeats n beats = .ended rest := by
  obtain ⟨ds, e, rfl, hds, he, ht⟩ := h
  induction ds generalizing w n with
  | nil => rcases ht with rfl | rfl <;> simp [drainBeats, he]
  | cons b ds ih =>
    obtain ⟨d, w', rfl, hb, hds'⟩ := beat_data_cons hds
    simp [drainBeats, hb, ih _ hds']

/-- DRAIN of a packet not ended yet waits. -/
theorem drainBeats_open {beats : List InBeat} {w : List Byte} (h : OffersOpen beats w) (n : Nat) :
    drainBeats n beats = .waiting (n + w.length) := by
  unfold OffersOpen at h
  induction beats generalizing w n with
  | nil => rw [beat_data_nil h]; rfl
  | cons b ds ih =>
    obtain ⟨d, w', rfl, hb, hds'⟩ := beat_data_cons h
    simp only [drainBeats, hb, ih hds', List.length_cons]
    congr 1
    omega

/-! ### Output beats -/

/-- The output beats at offsets from `j`, `count` of them, of `n` in all. -/
def beatsFrom (byteAt : Nat → Byte) (n j count : Nat) : List OutBeat :=
  (List.range count).map fun i => { data := byteAt (j + i), last := decide (j + i + 1 = n) }

theorem beatsFrom_succ (byteAt : Nat → Byte) (n j count : Nat) :
    beatsFrom byteAt n j (count + 1) = { data := byteAt j, last := decide (j + 1 = n) } :: beatsFrom byteAt n (j + 1) count := by
  simp only [beatsFrom, List.range_succ_eq_map, List.map_cons, List.map_map, Nat.add_zero]
  congr 1
  apply List.map_congr_left
  intro i _
  simp only [Function.comp, Nat.succ_eq_add_one]
  have e : j + 1 + i = j + (i + 1) := by omega
  rw [e]

/-- Enough answers that take: every beat is delivered. -/
theorem sendBeats_sent (byteAt : Nat → Byte) (j count : Nat) (as : List Response) :
    sendBeats byteAt (j + count + 1) j (List.replicate (count + 1) .take ++ as) =
      (beatsFrom byteAt (j + count + 1) j (count + 1), .sent, as) := by
  induction count generalizing j with
  | zero => simp [sendBeats, beatsFrom]
  | succ count ih =>
    have e : j + (count + 1) + 1 = (j + 1) + count + 1 := by omega
    rw [List.replicate_succ, List.cons_append, sendBeats, if_neg (by omega), e, ih (j + 1), beatsFrom_succ byteAt _ j]

/-- A write failure after `count` beats taken: those stand, and no more is offered. -/
theorem sendBeats_failed (byteAt : Nat → Byte) {n j count : Nat} (h : j + count < n) (as : List Response) :
    sendBeats byteAt n j (List.replicate count .take ++ .fail :: as) = (beatsFrom byteAt n j count, .failed, as) := by
  induction count generalizing j with
  | zero => simp [sendBeats, beatsFrom]
  | succ count ih =>
    rw [List.replicate_succ, List.cons_append, sendBeats, if_neg (by omega), ih (by omega), beatsFrom_succ]

/-- Too few answers: the next beat is offered and waits. -/
theorem sendBeats_waiting (byteAt : Nat → Byte) {n j count : Nat} (h : j + count < n) :
    sendBeats byteAt n j (List.replicate count .take) = (beatsFrom byteAt n j count, .waiting (j + count), []) := by
  induction count generalizing j with
  | zero => simp [sendBeats, beatsFrom]
  | succ count ih =>
    have e : j + (count + 1) = j + 1 + count := by omega
    rw [List.replicate_succ, sendBeats, if_neg (by omega), ih (by omega), beatsFrom_succ, e]

/-- Answers that come while a beat waits: the offering goes on from that beat as if they had been there. -/
theorem sendBeats_append {byteAt : Nat → Byte} {n j j' : Nat} {as : List Response}
    (h : (sendBeats byteAt n j as).2.1 = .waiting j') (more : List Response) :
    (sendBeats byteAt n j as).2.2 = [] ∧
    sendBeats byteAt n j (as ++ more) =
      ((sendBeats byteAt n j as).1 ++ (sendBeats byteAt n j' more).1, (sendBeats byteAt n j' more).2) := by
  induction as generalizing j with
  | nil =>
    obtain rfl : j = j' := by simpa [sendBeats] using h
    simp [sendBeats]
  | cons a as ih =>
    cases a with
    | fail => simp [sendBeats] at h
    | take =>
      rw [sendBeats] at h
      by_cases hn : n ≤ j + 1
      · simp [hn] at h
      · simp only [if_neg hn] at h
        simp [sendBeats, hn, ih h]

theorem storedBeats_eq (s : State) : storedBeats s = beatsFrom (storedByte s) (storedLen s) 0 (storedLen s) := by
  simp [storedBeats, beatsFrom]

end Sys2Proof.Machine
end

