-- ==== Sys2Proof/Laws/Commands.lean ====
section
/-! SUPPORT. What the shared operations of the commands can do: acceptance, the pre-checks, the drain, the rounds of INSERT
and QUERY, and the chain of digests. -/
namespace Sys2Proof.Machine

/-! ### Acceptance -/

/-- An idle block accepts a command and runs it. -/
theorem onAccept_idle {s : State} (h : s.engine = .idle) (c : Command) (run : State → State) :
    onAccept c run s = .next (run (accept c s)) := by
  simp [onAccept, (busy_eq_false_iff s).2 h]

/-- A busy block ignores a command word (10_state R22). -/
theorem onAccept_busy {s : State} (h : s.busy = true) (c : Command) (run : State → State) :
    onAccept c run s = .next s := by
  simp [onAccept, h]

/-- Every command is one acceptance of its own work. -/
theorem exec_eq (i : Instr) (s : State) : exec i s = onAccept (.instr i) (commandRun (.instr i)) s := by
  cases i <;> rfl

/-- Every command answers a next state. -/
theorem exec_next (i : Instr) (s : State) : ∃ t, exec i s = .next t := by
  rw [exec_eq, onAccept]
  split <;> exact ⟨_, rfl⟩

/-- On an idle block a command is the engine's move from acceptance. -/
theorem exec_idle {s : State} (h : s.engine = .idle) (i : Instr) :
    exec i s = .next (resume (accept (.instr i) s)) := by
  rw [exec_eq, onAccept_idle h]; rfl

/-- A command other than the one accepted does not tell the engine's records apart: acceptance overwrites them. -/
theorem accept_accept (c d : Command) (s : State) : accept c (accept d s) = accept c s := rfl

/-! ### Pre-checks and drain -/

@[simp] theorem refusal_accept (i : Instr) (c : Command) (s : State) : refusal i (accept c s) = refusal i s := rfl

theorem refusal_faulted {s : State} (h : s.faulted = true) (i : Instr) : refusal i s = some errFaulted := by
  simp [refusal, h]

theorem refusal_unconfigured {s : State} {i : Instr} (h : s.faulted = false) (hn : needsFilter i = true)
    (hc : s.cfgValid = false) : refusal i s = some errNotConfigured := by
  simp [refusal, h, hn, hc]

theorem refusal_usable {s : State} (h : s.Usable) (i : Instr) : refusal i s = none := by
  simp [refusal, h.unfaulted, h.configured]

theorem refusal_ready {s : State} {i : Instr} (h : s.Ready) (hn : needsFilter i = false) : refusal i s = none := by
  simp [refusal, h.unfaulted, hn]

theorem withChecks_pass {s : State} {i : Instr} (h : refusal i s = none) (work : State → State) :
    withChecks i work s = work s := by
  simp [withChecks, h]

/-- A refused command that reads no packet ends at once (42_filter_engine R172). -/
theorem withChecks_refuse {s : State} {i : Instr} {code : Byte} (h : refusal i s = some code) (hr : readsPacket i = false)
    (work : State → State) : withChecks i work s = raiseError code s := by
  simp [withChecks, h, hr]

/-- A refused command that reads a packet drains it first (42_filter_engine R172, R173). -/
theorem withChecks_refuse_drain {s : State} {i : Instr} {code : Byte} (h : refusal i s = some code)
    (hr : readsPacket i = true) (work : State → State) : withChecks i work s = drainRun i (.refuse code) 0 s := by
  simp [withChecks, h, hr]

/-- DRAIN of an ended packet leads to the command's end. -/
theorem drainRun_packet {s : State} {w : List Byte} {term : Beat} {rest : List InBeat}
    (h : OffersPacket s.inStream w term rest) (op : Instr) (fin : Finish) (n : Nat) :
    drainRun op fin n s = finishPacket fin { s with inStream := rest } := by
  simp [drainRun, drainBeats_packet h]

/-- DRAIN of a packet not ended yet waits, holding what it is to do. -/
theorem drainRun_open {s : State} {w : List Byte} (h : OffersOpen s.inStream w) (op : Instr) (fin : Finish) (n : Nat) :
    drainRun op fin n s = { s with inStream := [], engine := .drain op fin (n + w.length) } := by
  simp [drainRun, drainBeats_open h]

/-! ### The chain -/

@[simp] theorem chainFrom_length (h : Word) (n : Nat) : (chainFrom h n).length = n := by
  induction n generalizing h with
  | zero => rfl
  | succ n ih => simp [chainFrom, ih]

@[simp] theorem positions_length (w : List Byte) (k : Byte) (m : Word) : (positions w k m).length = k.toNat := by
  simp [positions, chain]

/-- The rounds of a word command from round 0 are the word's positions. -/
theorem roundPositions_zero (s : State) (w : List Byte) : roundPositions s (digest w) 0 = positions w s.k s.m := by
  simp [roundPositions, positions, chain]

/-! ### The rounds -/

/-- The positions of `ps` before the first that is out of range are in range, and the error names that one. -/
theorem setAll_error {l i j : Nat} {p : Word} {ps : List Word} {b : Memory} (h : setAll l i ps b = .error (j, p)) :
    ∃ n, j = i + n ∧ ps[n]? = some p ∧ inRange l p = false ∧ ∀ m < n, ∀ q, ps[m]? = some q → inRange l q = true := by
  induction ps generalizing i b with
  | nil => simp [setAll] at h
  | cons q ps ih =>
    by_cases hq : inRange l q = true
    · simp only [setAll, setBit_of_inRange hq] at h
      obtain ⟨n, rfl, h1, h2, h3⟩ := ih h
      refine ⟨n + 1, by omega, by simpa using h1, h2, ?_⟩
      intro m hm r hr
      cases m with
      | zero => simp at hr; exact hr ▸ hq
      | succ m => exact h3 m (by omega) r (by simpa using hr)
    · simp only [Bool.not_eq_true] at hq
      simp only [setAll, (setBit_eq_none l q b).2 hq, Except.error.injEq, Prod.mk.injEq] at h
      obtain ⟨rfl, rfl⟩ := h
      exact ⟨0, rfl, rfl, hq, fun m hm => absurd hm (Nat.not_lt_zero m)⟩

/-- A first position out of range is what `setAll` reports. -/
theorem setAll_first_bad {l n : Nat} {p : Word} {ps : List Word} (hp : ps[n]? = some p) (hb : inRange l p = false)
    (h : ∀ m < n, ∀ q, ps[m]? = some q → inRange l q = true) (i : Nat) (b : Memory) :
    setAll l i ps b = .error (i + n, p) := by
  induction ps generalizing i b n with
  | nil => simp at hp
  | cons q ps ih =>
    cases n with
    | zero =>
      simp only [List.getElem?_cons_zero, Option.some.injEq] at hp
      subst hp
      simp [setAll, (setBit_eq_none l q b).2 hb]
    | succ n =>
      have hq : inRange l q = true := h 0 (by omega) q (by simp)
      simp only [setAll, setBit_of_inRange hq]
      rw [ih (by simpa using hp) (fun m hm r hr => h (m + 1) (by omega) r (by simpa using hr))]
      congr 2
      omega

/-- TESTBIT of positions all in range and set answers 1. -/
theorem testAll_true {l : Nat} {b : Memory} {ps : List Word} (h : ∀ p ∈ ps, inRange l p = true ∧ bitAt b p = true)
    (i : Nat) : testAll l i ps b = .ok true := by
  induction ps generalizing i with
  | nil => rfl
  | cons p ps ih =>
    have hp := h p (List.mem_cons_self ..)
    simp only [testAll, testBit_of_inRange hp.1, hp.2]
    exact ih (fun q hq => h q (List.mem_cons_of_mem _ hq)) _

/-- The first bit that is 0, all before it in range and 1, ends the rounds with 0 (42_filter_engine R201). -/
theorem testAll_false {l n : Nat} {b : Memory} {p : Word} {ps : List Word} (hp : ps[n]? = some p)
    (hr : inRange l p = true) (hb : bitAt b p = false)
    (h : ∀ m < n, ∀ q, ps[m]? = some q → inRange l q = true ∧ bitAt b q = true) (i : Nat) :
    testAll l i ps b = .ok false := by
  induction ps generalizing i n with
  | nil => simp at hp
  | cons q ps ih =>
    cases n with
    | zero =>
      simp only [List.getElem?_cons_zero, Option.some.injEq] at hp
      subst hp
      simp [testAll, testBit_of_inRange hr, hb]
    | succ n =>
      have hq := h 0 (by omega) q (by simp)
      simp only [testAll, testBit_of_inRange hq.1, hq.2]
      exact ih (by simpa using hp) (fun m hm r hr => h (m + 1) (by omega) r (by simpa using hr)) _

/-- The first position out of range, all before it in range and 1, is what the rounds report (42_filter_engine R202). -/
theorem testAll_error {l n : Nat} {b : Memory} {p : Word} {ps : List Word} (hp : ps[n]? = some p)
    (hr : inRange l p = false)
    (h : ∀ m < n, ∀ q, ps[m]? = some q → inRange l q = true ∧ bitAt b q = true) (i : Nat) :
    testAll l i ps b = .error (i + n, p) := by
  induction ps generalizing i n with
  | nil => simp at hp
  | cons q ps ih =>
    cases n with
    | zero =>
      simp only [List.getElem?_cons_zero, Option.some.injEq] at hp
      subst hp
      simp [testAll, testBit_of_not_inRange hr]
    | succ n =>
      have hq := h 0 (by omega) q (by simp)
      simp only [testAll, testBit_of_inRange hq.1, hq.2]
      rw [ih (by simpa using hp) (fun m hm r hr => h (m + 1) (by omega) r (by simpa using hr))]
      congr 2
      omega

/-! ### The step -/

/-- Every step answers a next state. -/
theorem step_next (s : State) : ∃ t, step s = .next t := by
  unfold step
  split
  · exact ⟨_, rfl⟩
  · rename_i ev rest _
    unfold hostTurn
    split
    · unfold registerAccess
      split
      · exact ⟨_, rfl⟩
      · split
        · unfold commandWrite
          split
          · exact ⟨_, rfl⟩
          · split
            · split
              · exact ⟨_, rfl⟩
              · exact exec_next _ _
            · split
              · exact ⟨_, rfl⟩
              · unfold execIllegal onAccept
                split <;> exact ⟨_, rfl⟩
        · exact ⟨_, rfl⟩
    · exact ⟨_, rfl⟩
    · exact ⟨_, rfl⟩
    · exact ⟨_, rfl⟩

/-! ### Reset and the beats on the stream -/

/-- All a reset can do to the beats on the stream: some of those the engine's next move would take are gone. -/
theorem cutInput_spec (s : State) :
    ∃ n, n ≤ s.inStream.length - (resume s).inStream.length ∧ cutInput s = { s with inStream := s.inStream.drop n } :=
  ⟨_, Nat.le_of_lt_succ (Nat.mod_lt _ (Nat.succ_pos _)), rfl⟩

/-- An idle block has taken no beat. -/
theorem cutInput_idle {s : State} (h : s.engine = .idle) : cutInput s = s := by
  have hr : resume s = s := by simp [resume, h]
  simp [cutInput, hr, Nat.mod_one]

end Sys2Proof.Machine
end

