-- ==== Sys2Proof/Laws/PerInstr.lean ====
section
/-! SUPPORT. The family OpcodeWord: what each command's word is, as syntax (30_encoding R93, R94). -/
namespace Sys2Proof.Laws.OpcodeWord

/-- A command's word has the OP field of its row, zeros above it, and is a legal command word (30_encoding R93). -/
def Statement (i : Instr) : Prop :=
  i.wf = true ∧ opField (encode i) = opcode i ∧ zeroField (encode i) = 0#60 ∧ wordLegal (encode i) = true

theorem create : Statement .create := by unfold Statement; decide
theorem insert : Statement .insert := by unfold Statement; decide
theorem query : Statement .query := by unfold Statement; decide
theorem encode : Statement .encode := by unfold Statement; decide
theorem decode : Statement .decode := by unfold Statement; decide

end Sys2Proof.Laws.OpcodeWord
end

