-- ==== Sys2Proof/Tests/Slice0.lean ====
section
/-! SUPPORT. The model's own tests: well-formedness, decoding, at most two small steps per command (each from a vector of
spec/95_test_vectors.md), and a witness for the hypotheses of each statement of Certificates/Slice0/Obligations.lean. -/
namespace Sys2Proof.Tests
open Sys2Proof.Machine

/-! ### Helpers -/

/-- A block that holds a filter, with concrete parameters: MAGIC "BLM1", MAX_BUF_BYTES 16, and the correctly rounded LN at
2.0 and 0.1 (93_implementation_defined P2, 95_test_vectors V-CR2). -/
def block (k : Byte) (m : Word) (b : Memory) : State :=
  { State.reset with
    k := k, m := m, buf := b, cfgValid := true
    params :=
      { magic := { b0 := 0x42#8, b1 := 0x4c#8, b2 := 0x4d#8, b3 := 0x31#8 }, maxBufBytes := 16
        lnTable := [(0x4000000000000000#64, 0x3FE62E42FEFA39EF#64), (0x3FB999999999999A#64, 0xC0026BB1BBB55515#64)] } }

/-- The same with no filter. -/
def blank : State := { block 0#8 0#64 [] with cfgValid := false }

/-- K = 4, M = 64, BUF all zero (V-S2). -/
def fresh64 : State := block 4#8 64#64 []

/-- BUF after INSERT "hello" (V-IN1). -/
def helloBuf : Memory := [(0, 0x82#8), (4, 0x40#8), (5, 0x20#8)]

/-- V-IN1's state. -/
def hello64 : State := { block 4#8 64#64 helloBuf with insertedCount := 1#64 }

/-- V-IN7's faulted state: K = 3, M = 47, FAULT_POS_RANGE at round 0, position 45. -/
def faulted47 : State :=
  { block 3#8 47#64 [] with
    err := 0x21#8, faulted := true, faultCause := 0x21#8, faultRound := 0x00#8, faultInfo := 45#64 }

/-- The block busy with an INSERT that waits for its word. -/
def waiting : State := { fresh64 with engine := .word .insert fnvOffset 0 }

/-- CREATE's operands (10, 0.1) (V-CR2). -/
def tenTenth : State := { blank with argN := 0x4024000000000000#64, argP := 0x3FB999999999999A#64 }

def hello : List Byte := [0x68#8, 0x65#8, 0x6c#8, 0x6c#8, 0x6f#8]

def foobar : List Byte := [0x66#8, 0x6f#8, 0x6f#8, 0x62#8, 0x61#8, 0x72#8]

/-- The word packet ended by ERR. -/
def failedPacket (w : List Byte) : List InBeat := w.map InBeat.ofByte ++ [InBeat.failure]

/-- Header bytes 0 to 7 and 8 to 15 of the block's stored filter, K = 4, M = 64 (V-S2), with byte 6 as given. -/
def head64 (b6 : Byte) : List Byte :=
  [0x42#8, 0x4c#8, 0x4d#8, 0x31#8, 0x00#8, 0x01#8, b6, 0x04#8, 0#8, 0#8, 0#8, 0#8, 0#8, 0#8, 0#8, 0x40#8]

/-- A host's access without overlap. -/
def access (dir : BitVec 1) (idx : BitVec 4) (data : Word) : HostEvent :=
  { op := .access { dir := dir, idx := idx, data := data }, overlap := false }

theorem beats_ofByte (w : List Byte) : (w.map InBeat.ofByte).map InBeat.beat = w.map Beat.data := by
  induction w with
  | nil => rfl
  | cons b w ih =>
    simp only [List.map_cons, ih]
    rfl

theorem offers_complete (w : List Byte) : OffersPacket (packetOf w) w .endOfPacket [] :=
  ⟨w.map InBeat.ofByte, InBeat.finish, rfl, beats_ofByte w, rfl, .inl rfl⟩

theorem offers_failed (w : List Byte) : OffersPacket (failedPacket w) w .err [] :=
  ⟨w.map InBeat.ofByte, InBeat.failure, rfl, beats_ofByte w, rfl, .inr rfl⟩

/-! ### Well-formedness: a refused term for each check -/

theorem test_opLegal_refuses_zero : opLegal 0x0000000000000000#64 = false := by decide
theorem test_opLegal_refuses_six : opLegal 0x0000000000000006#64 = false := by decide
theorem test_upperZero_refuses_bit4 : upperZero 0x0000000000000011#64 = false := by decide
theorem test_upperZero_refuses_bit63 : upperZero 0x8000000000000003#64 = false := by decide
theorem test_wordLegal_refuses_seven : wordLegal 0x0000000000000007#64 = false := by decide
theorem test_wordLegal_accepts_decode : wordLegal 0x0000000000000005#64 = true := by decide
theorem test_isPacket_refuses_unterminated : isPacket [.data 0x61#8] = false := by decide
theorem test_isPacket_refuses_two_terminators : isPacket [.endOfPacket, .err] = false := by decide
theorem test_isPacket_accepts_failed : isPacket [.data 0x61#8, .err] = true := by decide
theorem test_params_refuses_zero : { fresh64.params with maxBufBytes := 0 }.wf = false := by decide
theorem test_params_refuses_above : { fresh64.params with maxBufBytes := 2305843009213693952 }.wf = false := by decide
theorem test_params_accepts_largest : { fresh64.params with maxBufBytes := 2305843009213693951 }.wf = true := by decide

/-! ### Decoding: the words of 30_encoding R94, OP in [3:0] written out bit by bit -/

theorem test_decode_create : decode ((0#60) ++ 0b0001#4) = .ok .create := by decide
theorem test_decode_insert : decode ((0#60) ++ 0b0010#4) = .ok .insert := by decide
theorem test_decode_query : decode ((0#60) ++ 0b0011#4) = .ok .query := by decide
theorem test_decode_encode : decode ((0#60) ++ 0b0100#4) = .ok .encode := by decide
theorem test_decode_decode : decode ((0#60) ++ 0b0101#4) = .ok .decode := by decide
theorem test_encode_insert : encode .insert = 0x0000000000000002#64 := by decide
/-- V-CW1 to V-CW4: the illegal words. -/
theorem test_decode_illegal :
    decode 0x0#64 = .error .reservedOp ∧ decode 0xF#64 = .error .reservedOp ∧ decode 0x11#64 = .error .upperBits ∧
    decode 0x8000000000000003#64 = .error .upperBits := by decide
theorem test_tableWord : decodeTableWord 64 5 = some .decode ∧ decodeTableWord 8 0x14 = none := by decide
/-- 30_encoding R97: END and ERR ignore their data, and kind 11 is ERR. -/
theorem test_beat_kinds :
    InBeat.beat { kind := 0b00#2, data := 0x80#8 } = .data 0x80#8 ∧
    InBeat.beat { kind := 0b01#2, data := 0x80#8 } = .endOfPacket ∧
    InBeat.beat { kind := 0b10#2, data := 0x80#8 } = .err ∧ InBeat.beat { kind := 0b11#2, data := 0x80#8 } = .err := by
  decide

/-! ### The sub-blocks -/

/-- V-HC1. -/
theorem test_digest_cat : digest [0x63#8, 0x61#8, 0x74#8] = 0xd8d5c1186ba97fdb#64 := by decide
/-- V-HC3, rounds 0 to 3. -/
theorem test_chain_hello :
    chain hello 4#8 = [0x7b495389bdbdd4c7#64, 0x4845abdabfcabda6#64, 0xb3ad268c417fc5ed#64, 0xabd41081000ffc81#64] := by
  decide
/-- V-HC9, column K = 3, M = 47. -/
theorem test_positions_foobar : positions foobar 3#8 47#64 = [45#64, 38#64, 44#64] := by decide
/-- V-HC9, column K = 4, M = 64. -/
theorem test_positions_hello : positions hello 4#8 64#64 = [7#64, 38#64, 45#64, 1#64] := by decide
/-- V-BV3, V-BV4. -/
theorem test_setBit : setBit 5 39#64 [(0, 0x81#8), (1, 0x01#8)] = some [(0, 0x81#8), (1, 0x01#8), (4, 0x80#8)] := by decide
/-- V-BV6, V-BV9. -/
theorem test_bits_out_of_range : setBit 5 40#64 [] = none ∧ testBit 5 46#64 [] = none := by decide
/-- V-BV11. -/
theorem test_loadByte :
    testBit 5 16#64 (loadByte 2 0xA5#8 []) = some true ∧ testBit 5 17#64 (loadByte 2 0xA5#8 []) = some false := by decide

/-! ### One step each -/

/-- The state, its engine run to the end. -/
def after (i : Instr) (s : State) : Option State := nextOf (exec i s)

/-- V-CR2. -/
theorem test_create_ten_tenth :
    (after .create tenTenth).map (fun t => (t.status, t.k, t.m, t.bufLen)) = some (0x2#64, 3#8, 47#64, 5) := by
  decide +kernel
/-- V-CR16: p = 0. -/
theorem test_create_bad_param :
    (after .create { tenTenth with argP := 0#64 }).map State.status = some 0x1000#64 := by
  decide +kernel
/-- V-IN1. -/
theorem test_insert_hello :
    (after .insert { fresh64 with inStream := packetOf hello }).map (fun t => (t.status, t.buf, t.insertedCount)) =
      some (0x2#64, helloBuf, 1#64) := by decide
/-- V-IN6: round 1 of the empty word has no storage. -/
theorem test_insert_pos_range :
    (after .insert { block 3#8 47#64 [] with inStream := packetOf [] }).map (fun t => (t.status, t.faultInfo)) =
      some (0x0000000001212106#64, 41#64) := by decide
/-- V-QY1. -/
theorem test_query_hello :
    (after .query { hello64 with inStream := packetOf hello }).map State.status = some 0xA#64 := by decide
/-- V-QY9: bit 35 is unset, so round 1, at 45, is never reached. -/
theorem test_query_short_circuit :
    (after .query { block 3#8 47#64 [] with inStream := packetOf [0x62#8] }).map State.status = some 0x2#64 := by decide
/-- V-EN4: 16 beats, `last` on the final one. -/
theorem test_encode_no_body :
    (after .encode { block 1#8 0#64 [] with answers := List.replicate 16 .take }).map
      (fun t => (t.status, t.outLog.map OutBeat.data, t.outLog.map OutBeat.last)) =
    some (0x2#64, [0x42#8, 0x4c#8, 0x4d#8, 0x31#8, 0#8, 1#8, 0#8, 1#8, 0#8, 0#8, 0#8, 0#8, 0#8, 0#8, 0#8, 0#8],
      List.replicate 15 false ++ [true]) := by decide
/-- V-EN6: beat 5 fails. -/
theorem test_encode_write_failure :
    (after .encode { hello64 with answers := List.replicate 5 .take ++ [.fail] }).map
      (fun t => (t.status, t.outLog.length, t.answers)) = some (0x502#64, 5, []) := by decide
/-- V-DE12: the trailing bytes are discarded. -/
theorem test_decode_trailing :
    (after .decode { hello64 with
      inStream := packetOf (head64 0#8 ++ [0x82#8, 0#8, 0#8, 0#8, 0x40#8, 0x20#8, 0#8, 0#8] ++ [0xAA#8, 0xBB#8]) }).map
      (fun t => (t.status, t.m, t.buf, t.insertedCount)) = some (0x2#64, 64#64, helloBuf, 0#64) := by decide
/-- V-DE10: seven of eight body bytes. -/
theorem test_decode_short_body :
    (after .decode { hello64 with inStream := packetOf (head64 0#8 ++ List.replicate 7 0#8) }).map
      (fun t => (t.status, t.k, t.m)) = some (0x400#64, 0#8, 0#64) := by decide
/-- V-CW5: an illegal word in a faulted block. -/
theorem test_illegal_faulted :
    (nextOf (step { block 6#8 0#64 [] with faulted := true, faultCause := 0x20#8, host := [cmdEvent 0x7#64] })).map
      State.status = some 0x0000000000201306#64 := by decide
/-- 43_codec R237: a DECODE that drains after a bad magic, or because it is refused, is still Uninitialized; one that waits for
its body has a validated header; one with a whole packet reaches Complete. -/
theorem test_codec_states :
    (after .decode { blank with inStream := List.replicate 16 (InBeat.ofByte 0#8) }).bind State.codecState =
      some .uninitialized ∧
    (after .decode faulted47).bind State.codecState = some .uninitialized ∧
    (after .decode { blank with inStream := (head64 0#8).map InBeat.ofByte }).bind State.codecState =
      some .headerValidated ∧
    { blank with
      engine := .accepted (.instr .decode), inStream := packetOf (head64 0#8 ++ List.replicate 8 0#8) }.codecReached =
      some .complete ∧
    { blank with engine := .accepted (.instr .decode), inStream := packetOf [] }.codecReached = none := by decide
/-- 70_reset_and_hazards R302: V-IN1's state has ended and a block that waits for a word has not: it hangs. A beat left on the
stream, or a CMD write still to come, is no end either. -/
theorem test_run_end :
    hello64.ended = true ∧ waiting.ended = false ∧ waiting.hung = true ∧ hello64.hung = false ∧
    { hello64 with inStream := [InBeat.finish] }.ended = false ∧ { hello64 with host := [cmdEvent 0#64] }.ended = false := by
  decide
/-- R302: the outcome of V-IN7's faulted run, FAULTED = 1 among it. -/
theorem test_outcome_faulted :
    faulted47.outcome.map (fun r => (r.registers.take 2, r.buf, r.output)) =
      some ([0#64, 0x0000000000212106#64], [0#8, 0#8, 0#8, 0#8, 0#8], []) := by decide
/-- Every command is the first one step runs after reset. -/
theorem test_first_step (i : Instr) :
    step (State.reset.withFetchWord 64 (encode i).toNat) = exec i State.reset := by cases i <;> rfl

/-! ### Witnesses: the hypotheses of the statements, met together by concrete states -/

theorem fresh64_usable : fresh64.Usable := { idle := rfl, unfaulted := rfl, configured := rfl }
theorem hello64_usable : hello64.Usable := { idle := rfl, unfaulted := rfl, configured := rfl }
theorem tenTenth_ready : tenTenth.Ready := { idle := rfl, unfaulted := rfl }

theorem hello64_inv : Inv hello64 where
  bufWf := by decide
  paramsWf := by decide
  errListed := by decide
  resultClean := by decide
  noFault := by decide
  fault := by decide
  filter := by decide
  noFilter := by decide
  engineOk := trivial

theorem faulted47_inv : Inv faulted47 where
  bufWf := by decide
  paramsWf := by decide
  errListed := by decide
  resultClean := by decide
  noFault := by decide
  fault := by decide
  filter := by decide
  noFilter := by decide
  engineOk := trivial

theorem tenTenth_inv : Inv tenTenth where
  bufWf := by decide
  paramsWf := by decide
  errListed := by decide
  resultClean := by decide
  noFault := by decide
  fault := by decide
  filter := by decide
  noFilter := by decide
  engineOk := trivial

/-- ResetInteractionGivesResetState: reset in the middle of an INSERT, with and without overlap. -/
theorem witness_reset :
    waiting.busy = true ∧ hello64.engine = .idle ∧
    { waiting with host := [{ op := .reset, overlap := false }] }.host = { op := .reset, overlap := false } :: [] ∧
    { waiting with host := [{ op := .reset, overlap := true }] }.host = { op := .reset, overlap := true } :: [] := by decide

/-- StepKeepsInvariant: a faulted block whose step is an INSERT command, and a block with a filter. -/
theorem witness_stepKeepsInvariant :
    (Inv faulted47 ∧ ∃ t, step faulted47 = .next t) ∧ Inv hello64 ∧ ∃ t, step hello64 = .next t :=
  ⟨⟨faulted47_inv, _, rfl⟩, hello64_inv, _, rfl⟩

/-- StepRunsDecodedCommand: an idle block, a word of the opcode map, without and with overlap. -/
theorem witness_stepRunsDecodedCommand :
    fresh64.engine = .idle ∧ decode 0x2#64 = .ok .insert ∧
    { fresh64 with host := [cmdEvent 0x2#64] }.host = cmdEvent 0x2#64 :: [] ∧
    { fresh64 with host := [{ op := .access { dir := 1#1, idx := 0#4, data := 0x2#64 }, overlap := true }] }.host =
      { op := .access { dir := 1#1, idx := 0#4, data := 0x2#64 }, overlap := true } :: [] := by decide

/-- IllegalWordReportsOnly: the words at the edges of each kind, in an idle faulted block, without and with overlap; and the
accepted command. -/
theorem witness_illegalWord :
    faulted47.engine = .idle ∧ opField 0x0#64 = 0#4 ∧ 6 ≤ (opField 0x6#64).toNat ∧ 6 ≤ (opField 0xF#64).toNat ∧
    zeroField 0x11#64 ≠ 0#60 ∧ zeroField 0x8000000000000003#64 ≠ 0#60 ∧
    { faulted47 with host := [cmdEvent 0x11#64] }.host = cmdEvent 0x11#64 :: [] ∧
    { faulted47 with host := [{ op := .access { dir := 1#1, idx := 0#4, data := 0x11#64 }, overlap := true }] }.host =
      { op := .access { dir := 1#1, idx := 0#4, data := 0x11#64 }, overlap := true } :: [] ∧
    (accept .illegal faulted47).engine = .accepted .illegal := by decide

/-- BusyHoldsRegisters: an INSERT that takes one byte and waits on. -/
theorem witness_busyHolds :
    waiting.busy = true ∧
    ∃ t, step { waiting with host := [{ op := .offer (InBeat.ofByte 0x61#8), overlap := false }] } = .next t ∧
      t.busy = true := ⟨by decide, _, rfl, by decide⟩

/-- OnlyResetClearsFault: a faulted block whose host writes CREATE. -/
theorem witness_onlyReset :
    Inv { faulted47 with host := [cmdEvent 0x1#64] } ∧
    (∀ ev rest, [cmdEvent 0x1#64] = ev :: rest → ev.op ≠ .reset) ∧
    ∃ t, step { faulted47 with host := [cmdEvent 0x1#64] } = .next t := by
  refine ⟨?_, ?_, _, rfl⟩
  · exact { faulted47_inv with engineOk := trivial }
  · intro ev rest h
    injection h with h
    subst h
    decide

/-- CmdRegister: an idle and a busy block, a write and a read of index 0. -/
theorem witness_cmd :
    fresh64.busy = false ∧ waiting.busy = true ∧
    { fresh64 with host := [cmdEvent 0x3#64] }.host = cmdEvent 0x3#64 :: [] ∧
    { fresh64 with host := [{ op := .access { dir := 1#1, idx := 0#4, data := 0x3#64 }, overlap := true }] }.host =
      { op := .access { dir := 1#1, idx := 0#4, data := 0x3#64 }, overlap := true } :: [] ∧
    { waiting with host := [cmdEvent 0x3#64] }.host =
      { op := .access { dir := 1#1, idx := 0#4, data := 0x3#64 }, overlap := false } :: [] ∧
    { waiting with host := [access 0#1 0#4 0x3#64] }.host =
      { op := .access { dir := 0#1, idx := 0#4, data := 0x3#64 }, overlap := false } :: [] := by decide

/-- ReservedRegisters: the lowest and the highest reserved index, read and written. -/
theorem witness_reserved :
    9 ≤ (9#4).toNat ∧ 9 ≤ (15#4).toNat ∧
    { waiting with host := [access 0#1 9#4 0#64] }.host =
      { op := .access { dir := 0#1, idx := 9#4, data := 0#64 }, overlap := false } :: [] ∧
    { waiting with host := [access 1#1 15#4 1#64] }.host =
      { op := .access { dir := 1#1, idx := 15#4, data := 1#64 }, overlap := false } :: [] := by decide

/-- ReadOnlyRegisters: STATUS, and the lowest and the highest of the run of indices. -/
theorem witness_readOnly :
    ((1#4).toNat = 1 ∨ (4 ≤ (1#4).toNat ∧ (1#4).toNat ≤ 8)) ∧ ((4#4).toNat = 1 ∨ (4 ≤ (4#4).toNat ∧ (4#4).toNat ≤ 8)) ∧
    ((8#4).toNat = 1 ∨ (4 ≤ (8#4).toNat ∧ (8#4).toNat ≤ 8)) ∧
    { waiting with host := [access 1#1 8#4 7#64] }.host =
      { op := .access { dir := 1#1, idx := 8#4, data := 7#64 }, overlap := false } :: [] ∧
    { waiting with host := [access 0#1 5#4 7#64] }.host =
      { op := .access { dir := 0#1, idx := 5#4, data := 7#64 }, overlap := false } :: [] := by decide

/-- OperandRegisters: ARG_N and ARG_P, idle and busy, written and read. -/
theorem witness_operands :
    fresh64.busy = false ∧ waiting.busy = true ∧ ((2#4) = 2#4 ∨ (2#4) = 3#4) ∧ ((3#4) = 2#4 ∨ (3#4) = 3#4) ∧
    { fresh64 with host := [access 1#1 2#4 7#64] }.host =
      { op := .access { dir := 1#1, idx := 2#4, data := 7#64 }, overlap := false } :: [] ∧
    { fresh64 with host := [access 1#1 3#4 7#64] }.host =
      { op := .access { dir := 1#1, idx := 3#4, data := 7#64 }, overlap := false } :: [] ∧
    { waiting with host := [access 0#1 3#4 7#64] }.host =
      { op := .access { dir := 0#1, idx := 3#4, data := 7#64 }, overlap := false } :: [] := by decide

/-- ReadMapWhenIdle: an idle block and a read of each end of the map; a busy block and a read of STATUS. -/
theorem witness_readMap :
    hello64.busy = false ∧
    { hello64 with host := [access 0#1 1#4 0#64] }.host =
      { op := .access { dir := 0#1, idx := 1#4, data := 0#64 }, overlap := false } :: [] ∧
    { hello64 with host := [access 0#1 8#4 0#64] }.host =
      { op := .access { dir := 0#1, idx := 8#4, data := 0#64 }, overlap := false } :: [] ∧
    waiting.busy = true ∧
    { waiting with host := [access 0#1 1#4 0#64] }.host =
      { op := .access { dir := 0#1, idx := 1#4, data := 0#64 }, overlap := false } :: [] := by decide

/-- ChainFollowsTheSeeds: a round with one after it. -/
theorem witness_chain :
    (2#8) ≠ 0#8 ∧ (chain hello 2#8)[0]? = some 0x7b495389bdbdd4c7#64 ∧ 0 + 1 < (2#8).toNat := by decide

/-- PositionReducesModM: the least and the largest M, and the largest power of two. -/
theorem witness_position : (1#64) ≠ 0#64 ∧ BitVec.allOnes 64 ≠ 0#64 ∧ 63 < 64 := by decide

/-- SetBitSetsOneBit: the last position in range and the first beyond. -/
theorem witness_setBit :
    Memory.wf helloBuf = true ∧ setBit 8 63#64 helloBuf = some (helloBuf ++ [(7, 0x80#8)]) ∧
    (63#64 >>> 3).toNat < 8 ∧ 8 ≤ (64#64 >>> 3).toNat := by decide

/-- BufferCoversEightLPositions: M = 47, the first and the last position with no byte. -/
theorem witness_bufferCovers :
    8 * byteLen 47#64 ≤ (40#64).toNat ∧ (40#64).toNat < (47#64).toNat ∧ 8 * byteLen 47#64 ≤ (46#64).toNat ∧
    (46#64).toNat < (47#64).toNat := by decide

/-- RoundToNearestEven: a finite value, 2^52 units reached from a quarter of a unit below (a tie with (2^53 - 1) / 2, itself
exact), and an overflow at the least value that rounds to infinity. -/
theorem witness_round :
    0 < 1 ∧ 0 < 4 ∧ F64.roundQuot false 3 1 = .fin false (3 * 2 ^ 51) (-51) ∧
    F64.roundQuot false (2 ^ 54 - 1) 4 = .fin false (2 ^ 52) 0 ∧
    F64.roundQuot false (2 ^ 53 - 1) 2 = .fin false (2 ^ 53 - 1) (-1) ∧
    F64.roundQuot true ((2 ^ 54 - 1) * 2 ^ 970) 1 = .inf true := by decide +kernel

/-- LengthIsFloorOfEstimate: CREATE(10, 0.1). -/
theorem witness_sizing :
    sizing tenTenth.params.ln 0x4024000000000000#64 0x3FB999999999999A#64 = some (3#8, 47#64) := by decide +kernel

/-- CreateBuildsEmptyFilter: CREATE(10, 0.1), five bytes, at a capacity of exactly five. -/
theorem witness_createBuilds :
    State.Ready { tenTenth with params := { tenTenth.params with maxBufBytes := 5 } } ∧
    sizing { tenTenth.params with maxBufBytes := 5 }.ln tenTenth.argN tenTenth.argP = some (3#8, 47#64) ∧
    byteLen 47#64 ≤ { tenTenth.params with maxBufBytes := 5 }.maxBufBytes :=
  ⟨{ idle := rfl, unfaulted := rfl }, by decide +kernel, by decide⟩

/-- CreateRejectsBadParam, operands: n = 0, p = 0, p = 1 (V-CR12, V-CR16, V-CR17). -/
theorem witness_createBadParam :
    tenTenth.Ready ∧ F64.zero.lt (F64.ofBits 0#64) = false ∧ (F64.ofBits 0x3FF0000000000000#64).lt F64.one = false ∧
    (F64.ofBits 0x7FF8000000000000#64).lt F64.one = false :=
  ⟨tenTenth_ready, by decide +kernel, by decide +kernel, by decide +kernel⟩

/-- CreateRejectsBadParam, sizes: an estimate of 2^64 or more (n = 1e20) and a K of 256 or more; a NaN and a negative estimate
come from an LN that answers NaN or +1.0 (V-CR9, V-CR10). -/
theorem witness_createBadSize :
    (bitCountF tenTenth.params.ln 0x4415AF1D78B58C40#64 tenTenth.argP).lt F64.twoPow64 = false ∧
    F64.zero.le (bitCountF (fun _ => 0x7FF8000000000000#64) tenTenth.argN tenTenth.argP) = false ∧
    F64.zero.le (bitCountF (fun _ => 0x3FF0000000000000#64) tenTenth.argN tenTenth.argP) = false ∧
    F64.zero.le (hashRoundsF (fun _ => 0x3FF0000000000000#64) tenTenth.argN tenTenth.argP) = false ∧
    (hashRoundsF (fun x => if x = twoBits then 0x3FE62E42FEFA39EF#64 else 0xC085963447DF2CF8#64)
      0x3FF0000000000000#64 0x01A56E1FC2F8F359#64).lt F64.twoPow8 = false :=
  ⟨by decide +kernel, by decide +kernel, by decide +kernel, by decide +kernel, by decide +kernel⟩

/-- CreateRejectsOverCapacity: CREATE(10, 0.1), five bytes, at a capacity of four. -/
theorem witness_createCapacity :
    State.Ready { tenTenth with params := { tenTenth.params with maxBufBytes := 4 } } ∧
    sizing { tenTenth.params with maxBufBytes := 4 }.ln tenTenth.argN tenTenth.argP = some (3#8, 47#64) ∧
    { tenTenth.params with maxBufBytes := 4 }.maxBufBytes < byteLen 47#64 :=
  ⟨{ idle := rfl, unfaulted := rfl }, by decide +kernel, by decide⟩

/-- CreateTenTenthSizes: the correctly rounded LN. -/
theorem witness_createTenTenth :
    Inv tenTenth ∧ tenTenth.Ready ∧ tenTenth.argN = 0x4024000000000000#64 ∧ tenTenth.argP = 0x3FB999999999999A#64 ∧
    5 ≤ tenTenth.params.maxBufBytes ∧ 0x3FE62E42FEFA39ED ≤ (tenTenth.params.ln twoBits).toNat ∧
    (tenTenth.params.ln twoBits).toNat ≤ 0x3FE62E42FEFA39F1 ∧
    0xC0026BB1BBB55513 ≤ (tenTenth.params.ln tenTenth.argP).toNat ∧
    (tenTenth.params.ln tenTenth.argP).toNat ≤ 0xC0026BB1BBB55517 :=
  ⟨tenTenth_inv, tenTenth_ready, rfl, rfl, by decide, by decide, by decide, by decide, by decide⟩

/-- CreateFrame: a CREATE that reports an error (a faulted block). -/
theorem witness_createFrame : ∃ t, exec .create faulted47 = .next t ∧ t.err ≠ 0x00#8 := ⟨_, rfl, by decide⟩

/-- INSERT "hello" in a fresh filter. -/
def insertHello : State := { fresh64 with inStream := packetOf hello }

theorem insertHello_positions : positions hello insertHello.k insertHello.m = [7#64, 38#64, 45#64, 1#64] :=
  test_positions_hello

/-- InsertSetsItsPositions: positions 7, 38, 45, 1 (V-IN1); and K = 0 with M = 0 (V-IN13). -/
theorem witness_insertSets :
    (insertHello.Usable ∧ Memory.wf insertHello.buf = true ∧
      OffersPacket insertHello.inStream hello .endOfPacket [] ∧
      ∀ p ∈ positions hello insertHello.k insertHello.m, inRange insertHello.bufLen p = true) ∧
    ∀ p ∈ positions hello 0#8 0#64, inRange 0 p = true := by
  refine ⟨⟨{ idle := rfl, unfaulted := rfl, configured := rfl }, by decide, offers_complete hello, ?_⟩,
    by simp [show positions hello 0#8 0#64 = [] from rfl]⟩
  rw [insertHello_positions]
  simp only [List.forall_mem_cons]
  exact ⟨by decide, by decide, by decide, by decide, nofun⟩

/-- K = 6, M = 0 with the packet "a" (V-IN11). -/
def zeroBits : State := { block 6#8 0#64 [] with inStream := packetOf [0x61#8] }

/-- InsertZeroBitCount and the first clause of QueryFaults. -/
theorem witness_zeroBitCount :
    zeroBits.Usable ∧ OffersPacket zeroBits.inStream [0x61#8] .endOfPacket [] ∧ zeroBits.k ≠ 0#8 ∧ zeroBits.m = 0#64 := by
  refine ⟨{ idle := rfl, unfaulted := rfl, configured := rfl }, ?_, by decide, rfl⟩
  exact offers_complete [0x61#8]

/-- K = 3, M = 47 after INSERT "ai", with the packet "b": positions 35, 45, 37 (V-QY10). -/
def queryB : State := { block 3#8 47#64 [(1, 0x01#8), (3, 0x40#8), (4, 0x08#8)] with inStream := packetOf [0x62#8] }

/-- InsertPosRange and the second clause of QueryFaults: round 1 at 45 has no storage; round 0 has, and is set. -/
theorem witness_posRange :
    queryB.Usable ∧ Memory.wf queryB.buf = true ∧ OffersPacket queryB.inStream [0x62#8] .endOfPacket [] ∧ queryB.m ≠ 0#64 ∧
    (positions [0x62#8] queryB.k queryB.m)[1]? = some 45#64 ∧ inRange queryB.bufLen 45#64 = false ∧
    ∀ j < 1, ∀ q, (positions [0x62#8] queryB.k queryB.m)[j]? = some q →
      inRange queryB.bufLen q = true ∧ bitAt queryB.buf q = true := by
  refine ⟨{ idle := rfl, unfaulted := rfl, configured := rfl }, by decide, ?_, by decide, by decide, by decide, ?_⟩
  · exact offers_complete [0x62#8]
  · intro j hj q hq
    obtain rfl : j = 0 := by omega
    obtain rfl : 35#64 = q := Option.some.inj ((by decide : some 35#64 = _).trans hq)
    decide

/-- InsertFrame: an INSERT that completes, one that waits, and a byte that is no position's. -/
theorem witness_insertFrame :
    (∃ t, exec .insert insertHello = .next t ∧ t.err ≠ 0x20#8 ∧ t.err ≠ 0x21#8) ∧
    (∃ t, exec .insert fresh64 = .next t ∧ t.busy = true) ∧
    ∀ p ∈ positions hello insertHello.k insertHello.m, 7 ≠ byteIndex p := by
  refine ⟨⟨_, rfl, by decide, by decide⟩, ⟨_, rfl, by decide⟩, ?_⟩
  rw [insertHello_positions]
  simp only [List.forall_mem_cons]
  exact ⟨by decide, by decide, by decide, by decide, nofun⟩

/-- QUERY "hello" of V-IN1's state. -/
def queryHello : State := { hello64 with inStream := packetOf hello }

theorem queryHello_positions : positions hello queryHello.k queryHello.m = [7#64, 38#64, 45#64, 1#64] :=
  test_positions_hello

/-- QueryAnswersOne (V-QY1). -/
theorem witness_queryOne :
    queryHello.Usable ∧ OffersPacket queryHello.inStream hello .endOfPacket [] ∧
    ∀ p ∈ positions hello queryHello.k queryHello.m,
      inRange queryHello.bufLen p = true ∧ bitAt queryHello.buf p = true := by
  refine ⟨{ idle := rfl, unfaulted := rfl, configured := rfl }, offers_complete hello, ?_⟩
  rw [queryHello_positions]
  simp only [List.forall_mem_cons]
  exact ⟨by decide, by decide, by decide, by decide, nofun⟩

/-- QueryShortCircuits: round 0, at 35, is unset, and round 1 would be out of range (V-QY9). -/
theorem witness_shortCircuit :
    State.Usable { queryB with buf := [] } ∧ OffersPacket queryB.inStream [0x62#8] .endOfPacket [] ∧
    (positions [0x62#8] queryB.k queryB.m)[0]? = some 35#64 ∧ inRange queryB.bufLen 35#64 = true ∧
    bitAt [] 35#64 = false := by
  refine ⟨{ idle := rfl, unfaulted := rfl, configured := rfl }, ?_, by decide, by decide, by decide⟩
  exact offers_complete [0x62#8]

/-- QueryFrame: a QUERY that completes. -/
theorem witness_queryFrame : ∃ t, exec .query queryHello = .next t ∧ t.err ≠ 0x20#8 ∧ t.err ≠ 0x21#8 :=
  ⟨_, rfl, by decide, by decide⟩

/-- QueryDependsOnFilterOnly: two blocks with other operands, counts and hosts. -/
theorem witness_queryDepends :
    queryHello.Usable ∧ State.Usable { queryHello with insertedCount := 9#64, argN := 5#64, err := 0x13#8 } ∧
    (∃ t, exec .query queryHello = .next t) ∧
    ∃ v, exec .query { queryHello with insertedCount := 9#64, argN := 5#64, err := 0x13#8 } = .next v :=
  ⟨{ idle := rfl, unfaulted := rfl, configured := rfl }, { idle := rfl, unfaulted := rfl, configured := rfl }, ⟨_, rfl⟩,
    _, rfl⟩

/-- WordPacketError: "hello" ended by ERR (V-QY13). -/
theorem witness_wordPacketError :
    (Instr.insert = .insert ∨ Instr.insert = .query) ∧ (Instr.query = .insert ∨ Instr.query = .query) ∧
    State.Usable { hello64 with inStream := failedPacket hello } ∧ OffersPacket (failedPacket hello) hello .err [] := by
  refine ⟨by decide, by decide, { idle := rfl, unfaulted := rfl, configured := rfl }, ?_⟩
  exact offers_failed hello

/-- EncodeDeliversStoredFilter, EncodeWriteFailure and EncodeWaitsForAnswers: 24 beats, answered in full, failed at the last
one, and answered up to the last one. -/
theorem witness_encode :
    hello64.Usable ∧ 23 < 16 + hello64.bufLen ∧
    { hello64 with answers := List.replicate 24 Response.take }.answers = List.replicate (16 + hello64.bufLen) Response.take ++ [] ∧
    { hello64 with answers := List.replicate 23 Response.take ++ [Response.fail] }.answers =
      List.replicate 23 Response.take ++ Response.fail :: [] ∧
    { hello64 with answers := List.replicate 23 Response.take }.answers = List.replicate 23 Response.take :=
  ⟨hello64_usable, by decide, by decide, by decide, by decide⟩

/-- EncodeFrame: an ENCODE that waits at once. -/
theorem witness_encodeFrame : ∃ t, exec .encode hello64 = .next t := ⟨_, rfl⟩

/-- DecodeLoadsFilter: M = 64, eight body bytes at a capacity of eight, two trailing bytes, END and ERR. -/
theorem witness_decodeLoads :
    State.Ready { blank with params := { blank.params with maxBufBytes := 8 } } ∧
    (List.replicate 8 0x82#8).length = byteLen 64#64 ∧ byteLen 64#64 ≤ { blank.params with maxBufBytes := 8 }.maxBufBytes ∧
    head64 1#8 = blank.params.magic.bytes ++ [0x00#8, 0x01#8, 1#8, 4#8] ++ be64Bytes 64#64 ∧
    OffersPacket (packetOf (head64 1#8 ++ List.replicate 8 0x82#8 ++ [0xAA#8, 0xBB#8]))
      (head64 1#8 ++ List.replicate 8 0x82#8 ++ [0xAA#8, 0xBB#8]) .endOfPacket [] ∧
    OffersPacket (failedPacket (head64 1#8 ++ List.replicate 8 0x82#8)) (head64 1#8 ++ List.replicate 8 0x82#8) .err [] := by
  refine ⟨{ idle := rfl, unfaulted := rfl }, by decide, by decide, by decide, ?_, ?_⟩
  · exact offers_complete (head64 1#8 ++ List.replicate 8 0x82#8 ++ [0xAA#8, 0xBB#8])
  · exact offers_failed (head64 1#8 ++ List.replicate 8 0x82#8)

/-- DecodeShortHeader: 15 bytes, and none, with END and with ERR (V-DE2, V-DE4). -/
theorem witness_decodeShortHeader :
    blank.Ready ∧ ((head64 0#8).take 15).length < 16 ∧ ([] : List Byte).length < 16 ∧
    OffersPacket (packetOf []) [] .endOfPacket [] ∧
    OffersPacket (failedPacket ((head64 0#8).take 15)) ((head64 0#8).take 15) .err [] := by
  refine ⟨{ idle := rfl, unfaulted := rfl }, by decide, by decide, ?_, ?_⟩
  · exact offers_complete []
  · exact offers_failed ((head64 0#8).take 15)

/-- DecodeRejectsHeader: a wrong magic, a wrong version, and a body of one byte more than the capacity. -/
theorem witness_decodeRejects :
    blank.Ready ∧ (head64 0#8).length = 16 ∧
    OffersPacket (packetOf (head64 0#8 ++ [])) (head64 0#8 ++ []) .endOfPacket [] ∧
    (List.replicate 16 0#8).take 4 ≠ blank.params.magic.bytes ∧ (head64 0#8).take 4 = blank.params.magic.bytes ∧
    ((blank.params.magic.bytes ++ List.replicate 12 0#8).drop 4).take 2 ≠ [0x00#8, 0x01#8] ∧
    ((head64 0#8).drop 4).take 2 = [0x00#8, 0x01#8] ∧
    { blank.params with maxBufBytes := 7 }.maxBufBytes < beNat ((head64 0#8).drop 8) / 8 := by
  refine ⟨{ idle := rfl, unfaulted := rfl }, by decide, ?_, by decide, by decide, by decide, by decide, by decide⟩
  exact offers_complete (head64 0#8 ++ [])

/-- DecodeShortBody: seven of eight bytes, and none (V-DE10, V-DE9). -/
theorem witness_decodeShortBody :
    blank.Ready ∧ (List.replicate 7 0#8).length < byteLen 64#64 ∧ ([] : List Byte).length < byteLen 64#64 ∧
    byteLen 64#64 ≤ blank.params.maxBufBytes ∧
    OffersPacket (packetOf (head64 0#8 ++ List.replicate 7 0#8)) (head64 0#8 ++ List.replicate 7 0#8) .endOfPacket [] := by
  refine ⟨{ idle := rfl, unfaulted := rfl }, by decide, by decide, by decide, ?_⟩
  exact offers_complete (head64 0#8 ++ List.replicate 7 0#8)

/-- DecodeFailureUnconfigures: a DECODE that fails, and one refused in a faulted block. -/
theorem witness_decodeFailure :
    (State.Ready { hello64 with inStream := packetOf [] } ∧
      ∃ t, exec .decode { hello64 with inStream := packetOf [] } = .next t ∧ t.busy = false ∧ t.err ≠ 0x00#8) ∧
    { faulted47 with inStream := packetOf [] }.engine = .idle ∧ { faulted47 with inStream := packetOf [] }.faulted = true ∧
    ∃ t, exec .decode { faulted47 with inStream := packetOf [] } = .next t ∧ t.busy = false :=
  ⟨⟨{ idle := rfl, unfaulted := rfl }, _, rfl, by decide, by decide⟩, rfl, rfl, _, rfl, by decide⟩

/-- DecodeFrame: a DECODE that waits for its header, and one in a faulted block. -/
theorem witness_decodeFrame :
    (∃ t, exec .decode hello64 = .next t ∧ t.busy = true) ∧ faulted47.faulted = true ∧
    ∃ t, exec .decode faulted47 = .next t := ⟨⟨_, rfl, by decide⟩, rfl, _, rfl⟩

/-- RefusedCommands: a faulted block and an unconfigured one, with a packet for the commands that read one and with none for
CREATE and ENCODE. -/
theorem witness_refused :
    (faulted47.engine = .idle ∧ faulted47.faulted = true ∧ faulted47.inStream = []) ∧
    (blank.engine = .idle ∧ blank.faulted = false ∧ blank.cfgValid = false ∧ blank.inStream = []) ∧
    (Instr.query = .insert ∨ Instr.query = .query ∨ Instr.query = .decode) ∧ Instr.query ≠ .decode ∧
    (Instr.encode = .create ∨ Instr.encode = .encode) ∧ OffersPacket (packetOf hello) hello .endOfPacket [] :=
  ⟨by decide, by decide, by decide, by decide, by decide, offers_complete hello⟩

/-- ExactlyOnePacket: an ended and an open packet, and each kind of command. -/
theorem witness_onePacket :
    (Instr.decode = .insert ∨ Instr.decode = .query ∨ Instr.decode = .decode) ∧ blank.engine = .idle ∧
    OffersPacket (packetOf hello) hello .endOfPacket [] ∧ OffersOpen (hello.map InBeat.ofByte) hello ∧ OffersOpen [] [] ∧
    (Instr.create = .create ∨ Instr.create = .encode) ∧ Instr.decode ≠ .encode ∧ ∃ t, exec .create blank = .next t := by
  refine ⟨by decide, rfl, ?_, beats_ofByte hello, rfl, by decide, by decide, exec_next _ _⟩
  exact offers_complete hello

/-- LateBeatsSameResult: "hel" before the command, "lo" and END after it; and ENCODE with 20 of its 24 answers, then the rest. -/
theorem witness_lateBeats :
    ({ fresh64 with inStream := (hello.take 3).map InBeat.ofByte }.engine = .idle ∧
      OffersOpen ((hello.take 3).map InBeat.ofByte) (hello.take 3) ∧
      (∃ t, exec .insert { fresh64 with inStream := (hello.take 3).map InBeat.ofByte } = .next t) ∧
      ∃ u, exec .insert { fresh64 with
        inStream := (hello.take 3).map InBeat.ofByte ++ packetOf (hello.drop 3) } = .next u) ∧
    { hello64 with answers := List.replicate 20 Response.take }.engine = .idle ∧
    (∃ t, exec .encode { hello64 with answers := List.replicate 20 Response.take } = .next t ∧ t.busy = true) ∧
    ∃ u, exec .encode { hello64 with
      answers := List.replicate 20 Response.take ++ List.replicate 4 Response.take } = .next u :=
  ⟨⟨rfl, beats_ofByte _, ⟨_, rfl⟩, _, rfl⟩, rfl, ⟨_, rfl, by decide⟩, _, rfl⟩

/-- InsertScriptRunsInsert: the script INSERT "hello" on a fresh filter, and the same without its END. -/
theorem witness_insertScript :
    fresh64.engine = .idle ∧ fresh64.inStream = [] ∧
    { fresh64 with host := expand (scriptInsert hello) }.host = expand (scriptInsert hello) ++ [] ∧
    (∃ t, exec .insert { fresh64 with host := [], inStream := packetOf hello } = .next t) ∧
    { fresh64 with
      host := writeEvent 0#4 (encode .insert) :: hello.map fun b => plainEvent (.offer (InBeat.ofByte b)) }.host =
      writeEvent 0#4 (encode .insert) :: hello.map fun b => plainEvent (.offer (InBeat.ofByte b)) :=
  ⟨rfl, rfl, by simp, ⟨_, rfl⟩, rfl⟩

/-- MonotonicBitGrowth: an INSERT in a block with a bit set. -/
theorem witness_monotonic :
    (Instr.insert = .insert ∨ Instr.insert = .query ∨ Instr.insert = .encode) ∧ Memory.wf queryHello.buf = true ∧
    (∃ t, exec .insert queryHello = .next t) ∧ bitAt queryHello.buf 7#64 = true :=
  ⟨by decide, by decide, ⟨_, rfl⟩, by decide⟩

/-- NoFalseNegatives: INSERT "hello", then two offered packets' worth of host interactions: the packet for the QUERY. -/
def insertThenOffer : State :=
  { insertHello with host := (packetOf hello).map fun b => { op := .offer b, overlap := false } }

theorem insertThenOffer_inv : Inv insertThenOffer where
  bufWf := by decide
  paramsWf := by decide
  errListed := by decide
  resultClean := by decide
  noFault := by decide
  fault := by decide
  filter := by decide
  noFilter := by decide
  engineOk := trivial

/-- NoFalseNegatives. -/
theorem witness_noFalseNegatives :
    Inv insertThenOffer ∧ insertThenOffer.Usable ∧ OffersPacket insertThenOffer.inStream hello .endOfPacket [] ∧
    ∃ t, exec .insert insertThenOffer = .next t ∧ t.err = 0x00#8 ∧ (∀ ev ∈ t.host, KeepsFilter ev) ∧
      ∃ u, Sys2Proof.core.run 6 t = .next u ∧ u.engine = .idle ∧ u.faulted = false ∧
        OffersPacket u.inStream hello .endOfPacket [] := by
  have hp : OffersPacket (packetOf hello) hello .endOfPacket [] := by exact offers_complete hello
  refine ⟨insertThenOffer_inv, { idle := rfl, unfaulted := rfl, configured := rfl }, hp, _, rfl, by decide, ?_, _, rfl,
    rfl, rfl, hp⟩
  intro ev hev
  have : ev ∈ (packetOf hello).map fun b => ({ op := .offer b, overlap := false } : HostEvent) := hev
  obtain ⟨b, -, rfl⟩ := List.mem_map.1 this
  trivial

/-- V-IN1's filter with every one of its 24 beats answered. -/
def encodeHello : State := { hello64 with answers := List.replicate 24 Response.take }

/-- EncodeDecodeRoundTrip: V-IN1's filter into a blank block (V-DE18). -/
theorem witness_roundTrip :
    Inv encodeHello ∧ encodeHello.Usable ∧
    encodeHello.answers = List.replicate (16 + encodeHello.bufLen) Response.take ++ [] ∧
    (∃ t, exec .encode encodeHello = .next t ∧ t.outLog = encodeHello.outLog ++ t.outLog) ∧
    State.Ready { blank with inStream := packetOf (storedFilter encodeHello) } ∧ blank.params = encodeHello.params ∧
    OffersPacket (packetOf (storedFilter encodeHello)) (storedFilter encodeHello) .endOfPacket [] := by
  refine ⟨{ hello64_inv with engineOk := trivial }, { idle := rfl, unfaulted := rfl, configured := rfl }, by decide,
    ⟨_, rfl, rfl⟩, { idle := rfl, unfaulted := rfl }, rfl, ?_⟩
  exact offers_complete (storedFilter encodeHello)

end Sys2Proof.Tests
end

section
/-! Binary64 (00_scope R10): rounding is to nearest, ties to even (O25), and CREATE's precondition on bit patterns (O26). -/
namespace Sys2Proof.Proofs.Binary64
open Sys2Proof Sys2Proof.Machine

/-! ### The scaled fraction num / (den * 2^e) -/

theorem scaledFraction_snd_pos {den : Nat} (hden : 0 < den) (num : Nat) (e : Int) :
    0 < (scaledFraction num den e).2 :=
  Nat.mul_pos hden (Nat.two_pow_pos _)

theorem scaledFraction_fst_of_nonneg (num den : Nat) {e : Int} (he : 0 ≤ e) : (scaledFraction num den e).1 = num := by
  rw [scaledFraction, show (-e).toNat = 0 by omega, pow_zero, mul_one]

theorem mul_pow_le_scaledFraction_snd (num den : Nat) {g : Nat} {e : Int} (he : g ≤ e) :
    den * 2 ^ g ≤ (scaledFraction num den e).2 :=
  Nat.mul_le_mul_left den (Nat.pow_le_pow_right Nat.two_pos (by omega))

/-- One step of the exponent doubles the denominator or, below 0, halves the numerator. -/
theorem scaledFraction_succ (num den : Nat) (e : Int) :
    ((scaledFraction num den (e + 1)).1 = (scaledFraction num den e).1 ∧
      (scaledFraction num den (e + 1)).2 = 2 * (scaledFraction num den e).2) ∨
    ((scaledFraction num den e).1 = 2 * (scaledFraction num den (e + 1)).1 ∧
      (scaledFraction num den e).2 = (scaledFraction num den (e + 1)).2) := by
  simp only [scaledFraction]
  rcases lt_or_ge e 0 with he | he
  · right
    rw [show (-e).toNat = (-(e + 1)).toNat + 1 by omega, show e.toNat = 0 by omega, show (e + 1).toNat = 0 by omega, pow_succ]
    exact ⟨by ring, rfl⟩
  · left
    rw [show (-e).toNat = 0 by omega, show (-(e + 1)).toNat = 0 by omega, show (e + 1).toNat = e.toNat + 1 by omega, pow_succ]
    exact ⟨rfl, by ring⟩

/-- The scaled fraction's value is the rational num/den over 2^e. -/
theorem scaledFraction_div (num den : Nat) (e : Int) :
    ((scaledFraction num den e).1 : ℚ) / (scaledFraction num den e).2 = (num / den : ℚ) / 2 ^ e := by
  have hpow : (2 : ℚ) ^ e = 2 ^ e.toNat / 2 ^ (-e).toNat := by
    rw [← zpow_natCast, ← zpow_natCast, ← zpow_sub₀ two_ne_zero]
    congr 1
    omega
  simp only [scaledFraction, hpow]
  push_cast
  field_simp

/-- Comparing the scaled fraction with a power of two is comparing exponents. -/
theorem pow_mul_snd_le_iff {num den : Nat} (hnum : 0 < num) (hden : 0 < den) (j : Nat) (e : Int) :
    2 ^ j * (scaledFraction num den e).2 ≤ (scaledFraction num den e).1 ↔ j + e ≤ Int.log 2 (num / den : ℚ) := by
  have hx : (0 : ℚ) < num / den := by positivity
  have hsnd : (0 : ℚ) < (scaledFraction num den e).2 := by exact_mod_cast scaledFraction_snd_pos hden num e
  calc 2 ^ j * (scaledFraction num den e).2 ≤ (scaledFraction num den e).1
      ↔ (2 : ℚ) ^ j * (scaledFraction num den e).2 ≤ (scaledFraction num den e).1 := by exact_mod_cast Iff.rfl
    _ ↔ (2 : ℚ) ^ j * 2 ^ e ≤ num / den := by
      rw [← le_div_iff₀ hsnd, scaledFraction_div, le_div_iff₀ (by positivity)]
    _ ↔ ((2 : Nat) : ℚ) ^ (j + e) ≤ num / den := by rw [Nat.cast_ofNat, zpow_add₀ two_ne_zero, zpow_natCast]
    _ ↔ j + e ≤ Int.log 2 (num / den : ℚ) := Int.zpow_le_iff_le_log Nat.one_lt_two hx

/-! ### The exponent chosen -/

/-- The quotient's binary logarithm is that of the fraction's two parts, or one less. -/
theorem log_div_bounds {num den : Nat} (hnum : 0 < num) (hden : 0 < den) :
    (num.log2 : Int) - den.log2 - 1 ≤ Int.log 2 (num / den : ℚ) ∧
      Int.log 2 (num / den : ℚ) ≤ (num.log2 : Int) - den.log2 := by
  have hx : (0 : ℚ) < num / den := by positivity
  have hden' : (0 : ℚ) < den := by exact_mod_cast hden
  have numLe : (2 : ℚ) ^ num.log2 ≤ num := by exact_mod_cast Nat.log2_self_le hnum.ne'
  have numLt : (num : ℚ) < 2 ^ (num.log2 + 1) := by exact_mod_cast Nat.lt_log2_self
  have denLe : (2 : ℚ) ^ den.log2 ≤ den := by exact_mod_cast Nat.log2_self_le hden.ne'
  have denLt : (den : ℚ) < 2 ^ (den.log2 + 1) := by exact_mod_cast Nat.lt_log2_self
  constructor
  · rw [← Int.zpow_le_iff_le_log Nat.one_lt_two hx, le_div_iff₀ hden']
    calc ((2 : Nat) : ℚ) ^ ((num.log2 : Int) - den.log2 - 1) * den
        ≤ 2 ^ ((num.log2 : Int) - den.log2 - 1) * 2 ^ (den.log2 + 1) := by push_cast; gcongr
      _ = 2 ^ num.log2 := by
        rw [← zpow_natCast, ← zpow_natCast, ← zpow_add₀ two_ne_zero]
        congr 1
        push_cast
        ring
      _ ≤ num := numLe
  · rw [← Int.lt_add_one_iff, ← Int.lt_zpow_iff_log_lt Nat.one_lt_two hx, div_lt_iff₀ hden']
    calc (num : ℚ) < 2 ^ (num.log2 + 1) := numLt
      _ = 2 ^ ((num.log2 : Int) - den.log2 + 1) * 2 ^ den.log2 := by
        rw [← zpow_natCast, ← zpow_natCast, ← zpow_add₀ two_ne_zero]
        congr 1
        push_cast
        ring
      _ ≤ ((2 : Nat) : ℚ) ^ ((num.log2 : Int) - den.log2 + 1) * den := by push_cast; gcongr

/-- The exponent chosen puts the leading bit at 2^52, unless it would lie below the least exponent. -/
theorem quotExponent_eq {num den : Nat} (hnum : 0 < num) (hden : 0 < den) :
    quotExponent num den = max (Int.log 2 (num / den : ℚ) - 52) (-1074) := by
  obtain ⟨hlo, hhi⟩ := log_div_bounds hnum hden
  have hiff := pow_mul_snd_le_iff hnum hden 52 ((num.log2 : Int) - den.log2 - 52)
  have hpos := scaledFraction_snd_pos hden num ((num.log2 : Int) - den.log2 - 52)
  simp only [quotExponent, Nat.div_lt_iff_lt_mul hpos]
  congr 1
  split <;> omega

/-- At the exponent chosen the significand's integer part has at most 53 bits. -/
theorem fst_lt_pow_mul_snd {num den : Nat} (hnum : 0 < num) (hden : 0 < den) :
    (scaledFraction num den (quotExponent num den)).1 < 2 ^ 53 * (scaledFraction num den (quotExponent num den)).2 := by
  have hexp := quotExponent_eq hnum hden
  rw [← not_le, pow_mul_snd_le_iff hnum hden]
  omega

/-- Above the least exponent it has 53 bits. -/
theorem pow_mul_snd_le_fst {num den : Nat} (hnum : 0 < num) (hden : 0 < den) (he : -1074 < quotExponent num den) :
    2 ^ 52 * (scaledFraction num den (quotExponent num den)).2 ≤ (scaledFraction num den (quotExponent num den)).1 := by
  have hexp := quotExponent_eq hnum hden
  rw [pow_mul_snd_le_iff hnum hden]
  omega

/-! ### The integer nearest to a fraction -/

/-- `q` is an integer nearest to the fraction `f`, and the even one of two. -/
structure IsNearestEven (f : Nat × Nat) (q : Nat) : Prop where
  le_half_above : 2 * f.1 ≤ (2 * q + 1) * f.2
  le_half_below : 2 * q * f.2 ≤ 2 * f.1 + f.2
  tie_even : 2 * f.1 = (2 * q + 1) * f.2 ∨ 2 * q * f.2 = 2 * f.1 + f.2 → q % 2 = 0

/-- Rounding up past half a unit, or at half a unit from an odd integer, leaves at most half a unit on either side. -/
theorem isNearestEven_nearestEven {f : Nat × Nat} (hf : 0 < f.2) : IsNearestEven f (nearestEven f.1 f.2) := by
  have hdiv : f.1 = f.1 / f.2 * f.2 + f.1 % f.2 := (Nat.div_add_mod' f.1 f.2).symm
  have hrem : f.1 % f.2 < f.2 := Nat.mod_lt f.1 hf
  unfold nearestEven
  generalize f.1 / f.2 = q at *
  generalize f.1 % f.2 = r at *
  dsimp only
  split
  case isTrue hup =>
    refine ⟨by linarith, ?_, ?_⟩
    · rcases hup with hmore | ⟨htie, -⟩ <;> linarith
    · rcases hup with hmore | ⟨-, hodd⟩
      · rintro (heq | heq) <;> linarith
      · exact fun _ => by omega
  case isFalse hdown =>
    have hhalf : 2 * r ≤ f.2 := by omega
    refine ⟨by linarith, by linarith, ?_⟩
    rintro (heq | heq)
    · have htie : 2 * r = f.2 := by linarith
      omega
    · linarith

/-! ### The rounding -/

/-- `m * 2^e` is the binary64 value nearest to num/den, in canonical form, with no bound on the exponent from above. -/
structure IsRounding (num den m : Nat) (e : Int) : Prop where
  mant_lt : m < 2 ^ 53
  least_le : -1074 ≤ e
  subnormal : m < 2 ^ 52 → e = -1074
  nearest : IsNearestEven (scaledFraction num den e) m
  foot : m = 2 ^ 52 → -1074 < e →
    4 * m * (scaledFraction num den e).2 ≤ 4 * (scaledFraction num den e).1 + (scaledFraction num den e).2

theorem isRounding_zero (den : Nat) : IsRounding 0 den 0 (-1074) where
  mant_lt := by decide
  least_le := le_rfl
  subnormal _ := rfl
  nearest := {
    le_half_above := by rw [scaledFraction, Nat.zero_mul]; exact Nat.zero_le _
    le_half_below := by simp
    tie_even := fun _ => rfl }
  foot h := absurd h (by decide)

/-- The nearest integer at the exponent chosen, where it needs no 54th bit. -/
theorem isRounding_nearestEven {num den : Nat} {e : Int} (hnum : 0 < num) (hden : 0 < den)
    (he : e = quotExponent num den)
    (hcarry : nearestEven (scaledFraction num den e).1 (scaledFraction num den e).2 ≠ 2 ^ 53) :
    IsRounding num den (nearestEven (scaledFraction num den e).1 (scaledFraction num den e).2) e := by
  have hpos := scaledFraction_snd_pos hden num e
  have hnear := isNearestEven_nearestEven hpos
  have hlt := fst_lt_pow_mul_snd hnum hden
  have hge := pow_mul_snd_le_fst hnum hden
  have hleast : -1074 ≤ e := he ▸ le_max_right _ _
  rw [← he] at hlt hge
  generalize nearestEven (scaledFraction num den e).1 (scaledFraction num den e).2 = q at *
  obtain ⟨habove, hbelow, -⟩ := id hnear
  refine ⟨?_, hleast, fun hq => ?_, hnear, ?_⟩
  · have : q * (scaledFraction num den e).2 < (2 ^ 53 + 1) * (scaledFraction num den e).2 := by linarith
    have := Nat.lt_of_mul_lt_mul_right this
    omega
  · by_contra hne
    have hfull := hge (by omega)
    have : 2 ^ 52 * (scaledFraction num den e).2 < (q + 1) * (scaledFraction num den e).2 := by linarith
    have := Nat.lt_of_mul_lt_mul_right this
    omega
  · rintro rfl hgt
    have := hge hgt
    omega

/-- A carry into the 54th bit moves the exponent up by one. -/
theorem isRounding_carry {num den : Nat} {e : Int} (hnum : 0 < num) (hden : 0 < den) (he : e = quotExponent num den)
    (hcarry : nearestEven (scaledFraction num den e).1 (scaledFraction num den e).2 = 2 ^ 53) :
    IsRounding num den (2 ^ 52) (e + 1) := by
  have hpos := scaledFraction_snd_pos hden num e
  obtain ⟨-, hbelow, -⟩ := isNearestEven_nearestEven hpos
  have hlt := fst_lt_pow_mul_snd hnum hden
  have hleast : -1074 ≤ e := he ▸ le_max_right _ _
  have hsucc := scaledFraction_succ num den e
  rw [← he] at hlt
  rw [hcarry] at hbelow
  exact {
    mant_lt := by decide
    least_le := by omega
    subnormal := fun h => absurd h (by decide)
    nearest := {
      le_half_above := by omega
      le_half_below := by omega
      tie_even := fun _ => rfl }
    foot := fun _ _ => by omega }

/-- What the rounding answers: a rounded significand and exponent, packed. -/
theorem roundQuot_eq_pack (neg : Bool) (num : Nat) {den : Nat} (hden : 0 < den) :
    ∃ m e, F64.roundQuot neg num den = .pack neg m e ∧ IsRounding num den m e := by
  unfold F64.roundQuot
  split
  case isTrue hzero => exact ⟨0, -1074, rfl, hzero ▸ isRounding_zero den⟩
  case isFalse hzero =>
    dsimp only
    split
    case isTrue hcarry => exact ⟨_, _, rfl, isRounding_carry (Nat.pos_of_ne_zero hzero) hden rfl hcarry⟩
    case isFalse hcarry => exact ⟨_, _, rfl, isRounding_nearestEven (Nat.pos_of_ne_zero hzero) hden rfl hcarry⟩

theorem pack_ne_nan (neg : Bool) (m : Nat) (e : Int) : F64.pack neg m e ≠ .nan := by
  unfold F64.pack
  split <;> exact F64.noConfusion

theorem eq_of_pack_eq_inf {neg s : Bool} {m : Nat} {e : Int} (h : F64.pack neg m e = .inf s) : s = neg ∧ 971 < e := by
  unfold F64.pack at h
  split at h
  case isTrue he => cases h; exact ⟨rfl, he⟩
  case isFalse => cases h

theorem eq_of_pack_eq_fin {neg s : Bool} {m m' : Nat} {e e' : Int} (h : F64.pack neg m e = .fin s m' e') :
    s = neg ∧ m' = m ∧ e' = e ∧ e ≤ 971 := by
  unfold F64.pack at h
  split at h
  case isTrue => cases h
  case isFalse he => cases h; exact ⟨rfl, rfl, rfl, not_lt.1 he⟩

/-- Overflow: a rounding whose exponent is above the largest comes from 2^1024 less half a unit up. -/
theorem IsRounding.overflow {num den m : Nat} {e : Int} (h : IsRounding num den m e) (he : 971 < e) :
    (2 ^ 54 - 1) * 2 ^ 970 * den ≤ num := by
  obtain ⟨-, -, hsub, ⟨-, hbelow, -⟩, hfoot⟩ := h
  have hquarter : (2 ^ 54 - 1) * (scaledFraction num den e).2 ≤ 4 * (scaledFraction num den e).1 := by
    rcases Nat.lt_trichotomy m (2 ^ 52) with hm | rfl | hm
    · exact absurd (hsub hm) (by omega)
    · have := hfoot rfl (by omega)
      omega
    · have : (2 ^ 52 + 1) * (scaledFraction num den e).2 ≤ m * (scaledFraction num den e).2 := Nat.mul_le_mul_right _ hm
      rw [mul_assoc] at hbelow
      omega
  have hsnd : den * 2 ^ (970 + 2) ≤ (scaledFraction num den e).2 := mul_pow_le_scaledFraction_snd num den (by omega)
  rw [scaledFraction_fst_of_nonneg num den (by omega)] at hquarter
  rw [pow_add, ← mul_assoc, mul_comm den] at hsnd
  rw [mul_assoc]
  omega

/-- Settles O25: the rounding is a packed canonical significand nearest to the quotient. -/
theorem roundToNearestEven : Obligations.RoundToNearestEven := by
  unfold Obligations.RoundToNearestEven
  intro neg num den hden
  obtain ⟨m, e, hpack, hround⟩ := roundQuot_eq_pack neg num hden
  rw [hpack]
  refine ⟨pack_ne_nan neg m e, fun s hinf => ?_, fun s m' e' hfin => ?_⟩
  · obtain ⟨rfl, he⟩ := eq_of_pack_eq_inf hinf
    exact ⟨rfl, hround.overflow he⟩
  · obtain ⟨rfl, rfl, rfl, he⟩ := eq_of_pack_eq_fin hfin
    exact ⟨rfl, hround.mant_lt, hround.least_le, he, hround.subnormal, hround.nearest.le_half_above,
      hround.nearest.le_half_below, hround.foot, hround.nearest.tie_even⟩

/-! ### Comparisons on bit patterns: the sign, biased exponent and fraction (30_encoding R106) as parts of the unsigned value -/

theorem sign_eq_iff (w : Word) : w.extractLsb' 63 1 = 1#1 ↔ 2 ^ 63 ≤ w.toNat := by
  have := w.isLt
  rw [← BitVec.toNat_inj, BitVec.extractLsb'_toNat, Nat.shiftRight_eq_div_pow]
  simp only [BitVec.toNat_ofNat]
  omega

theorem biased_eq (w : Word) : (w.extractLsb' 52 11).toNat = w.toNat / 2 ^ 52 % 2 ^ 11 := by
  rw [BitVec.extractLsb'_toNat, Nat.shiftRight_eq_div_pow]

theorem frac_eq (w : Word) : (w.extractLsb' 0 52).toNat = w.toNat % 2 ^ 52 := by
  rw [BitVec.extractLsb'_toNat, Nat.shiftRight_zero]

theorem zero_lt_inf_iff (s : Bool) : F64.zero.lt (.inf s) = true ↔ s = false := by
  cases s <;> decide

theorem zero_lt_fin_iff (s : Bool) (m : Nat) (e : Int) : F64.zero.lt (.fin s m e) = true ↔ s = false ∧ 0 < m := by
  cases s <;> simp [F64.zero, F64.lt, signedMant]

theorem fin_lt_one_iff (m : Nat) (e : Int) :
    (F64.fin false m e).lt .one = true ↔ m * 2 ^ e.toNat < 2 ^ (-e).toNat := by
  have hleft : (e - min e 0).toNat = e.toNat := by omega
  have hright : (0 - min e 0).toNat = (-e).toNat := by omega
  simp only [F64.one, F64.lt, signedMant, hleft, hright, decide_eq_true_eq, Nat.one_mul, Bool.false_eq_true, if_false,
    Nat.cast_lt]

theorem fin_lt_one {m : Nat} {e : Int} (hm : m < 2 ^ 53) (he : e ≤ -53) : (F64.fin false m e).lt .one = true := by
  rw [fin_lt_one_iff]
  calc m * 2 ^ e.toNat = m := by rw [show e.toNat = 0 by omega, pow_zero, mul_one]
    _ < 2 ^ 53 := hm
    _ ≤ 2 ^ (-e).toNat := Nat.pow_le_pow_right Nat.two_pos (by omega)

theorem not_fin_lt_one {m : Nat} {e : Int} (hm : 2 ^ 52 ≤ m) (he : -52 ≤ e) : ¬ (F64.fin false m e).lt .one = true := by
  rw [fin_lt_one_iff, not_lt]
  calc 2 ^ (-e).toNat ≤ 2 ^ 52 := Nat.pow_le_pow_right Nat.two_pos (by omega)
    _ ≤ m := hm
    _ ≤ m * 2 ^ e.toNat := Nat.le_mul_of_pos_right m (Nat.two_pow_pos _)

/-- `0 < x` on patterns: no sign bit, not a zero, and at most +infinity's pattern (00_scope R10). -/
theorem zero_lt_ofBits (w : Word) :
    F64.zero.lt (F64.ofBits w) = true ↔ 0 < w.toNat ∧ w.toNat ≤ 0x7FF0000000000000 := by
  have hw := w.isLt
  simp only [F64.ofBits, sign_eq_iff, biased_eq, frac_eq]
  split
  case isTrue hmax =>
    split
    case isTrue hinf =>
      rw [zero_lt_inf_iff, decide_eq_false_iff_not]
      omega
    case isFalse hnan => exact iff_of_false Bool.false_ne_true (by omega)
  case isFalse hmax =>
    split <;> rw [zero_lt_fin_iff, decide_eq_false_iff_not] <;> omega

/-- `x < 1` on the patterns above 0. -/
theorem ofBits_lt_one {w : Word} (hpos : 0 < w.toNat) (hle : w.toNat ≤ 0x7FF0000000000000) :
    (F64.ofBits w).lt .one = true ↔ w.toNat < 0x3FF0000000000000 := by
  have hsign : decide (2 ^ 63 ≤ w.toNat) = false := decide_eq_false (by omega)
  simp only [F64.ofBits, sign_eq_iff, biased_eq, frac_eq, hsign]
  split
  case isTrue hmax =>
    have hnot : ¬ (F64.inf false).lt .one = true := by decide
    rw [if_pos (by omega)]
    exact iff_of_false hnot (by omega)
  case isFalse hmax =>
    split
    case isTrue hmin => exact iff_of_true (fin_lt_one (by omega) (by omega)) (by omega)
    case isFalse hmin =>
      rcases Nat.lt_or_ge w.toNat 0x3FF0000000000000 with hw | hw
      · exact iff_of_true (fin_lt_one (by omega) (by omega)) hw
      · exact iff_of_false (not_fin_lt_one (by omega) (by omega)) (by omega)

/-- Settles O26: the sign, the NaNs and the order of the values are read off the patterns. -/
theorem operandRangeOnBits : Obligations.OperandRangeOnBits := by
  unfold Obligations.OperandRangeOnBits
  intro n p
  simp only [argsInRange, Bool.and_eq_true, zero_lt_ofBits]
  constructor
  · rintro ⟨⟨hn, hp⟩, hone⟩
    exact ⟨hn, hp.1, (ofBits_lt_one hp.1 hp.2).1 hone⟩
  · rintro ⟨hn, hp, hone⟩
    have hle : p.toNat ≤ 0x7FF0000000000000 := by omega
    exact ⟨⟨hn, hp, hle⟩, (ofBits_lt_one hp hle).2 hone⟩

end Sys2Proof.Proofs.Binary64
end

section
/-! All that the engine's next move, a host interaction and a step can do to a state, each said once (`resume_move`,
`hostTurn_cases`, `step_cases`): what every step keeps follows from these, without the commands' own definitions. -/
namespace Sys2Proof.Proofs.Moves
open Sys2Proof Sys2Proof.Machine

/-! ### The byte length and the range check as numbers -/

theorem byteLen_eq_div (m : Word) : byteLen m = m.toNat / 8 := by
  simp [byteLen, BitVec.toNat_ushiftRight, Nat.shiftRight_eq_div_pow]

theorem byteIndex_eq_div (p : Word) : byteIndex p = p.toNat / 8 := byteLen_eq_div p

theorem inRange_eq_false_iff (l : Nat) (p : Word) : inRange l p = false ↔ 8 * l ≤ p.toNat := by
  rw [inRange, decide_eq_false_iff_not, byteIndex_eq_div]
  omega

/-! ### How the readings, the offering and the rounds stop -/

/-- A reading that took all it asked for has that many bytes; one that waits has fewer. -/
theorem takeData_length (n : Nat) (beats : List InBeat) :
    ((takeData n beats).2.1 = .filled → (takeData n beats).1.length = n) ∧
      ((takeData n beats).2.1 = .waiting → (takeData n beats).1.length < n) := by
  induction beats generalizing n with
  | nil =>
    by_cases hn : n = 0
    · simp [takeData, hn]
    · simpa [takeData, hn] using Nat.pos_of_ne_zero hn
  | cons b rest ih =>
    by_cases hn : n = 0
    · simp [takeData, hn]
    · obtain ⟨filled, waiting⟩ := ih (n - 1)
      cases hb : b.beat with
      | data d =>
        simp only [takeData, hn, hb, if_false, List.length_cons]
        exact ⟨fun h => by have := filled h; omega, fun h => by have := waiting h; omega⟩
      | endOfPacket => simp [takeData, hn, hb]
      | err => simp [takeData, hn, hb]

/-- A beat that waits for its answer is one of the `n`. -/
theorem sendBeats_waiting_lt {byteAt : Nat → Byte} {n j j' : Nat} {as : List Response} (hj : j < n)
    (h : (sendBeats byteAt n j as).2.1 = .waiting j') : j' < n := by
  induction as generalizing j with
  | nil =>
    obtain rfl : j = j' := by simpa [sendBeats] using h
    exact hj
  | cons a as ih =>
    cases a with
    | fail => simp [sendBeats] at h
    | take =>
      by_cases hn : n ≤ j + 1
      · simp [sendBeats, hn] at h
      · simp only [sendBeats, if_neg hn] at h
        exact ih (by omega) h

/-- An error of QUERY's rounds names a position out of range. -/
theorem testAll_error_position {l i j : Nat} {p : Word} {ps : List Word} {b : Memory}
    (h : testAll l i ps b = .error (j, p)) : ∃ n, j = i + n ∧ ps[n]? = some p ∧ inRange l p = false := by
  induction ps generalizing i with
  | nil => simp [testAll] at h
  | cons q ps ih =>
    cases hq : inRange l q with
    | false =>
      simp only [testAll, testBit_of_not_inRange hq, Except.error.injEq, Prod.mk.injEq] at h
      obtain ⟨rfl, rfl⟩ := h
      exact ⟨0, rfl, rfl, hq⟩
    | true =>
      cases hb : bitAt b q with
      | false => simp [testAll, testBit_of_inRange hq, hb] at h
      | true =>
        simp only [testAll, testBit_of_inRange hq, hb] at h
        obtain ⟨n, rfl, hp, hr⟩ := ih h
        exact ⟨n + 1, by omega, by simpa using hp, hr⟩

/-- The rounds from `i` on stay below K, and with M not 0 their positions below M (40_hash_chain R133, R134). -/
theorem roundPositions_bounds {s : State} {h p : Word} {i n : Nat} (hp : (roundPositions s h i)[n]? = some p) :
    i + n < s.k.toNat ∧ (s.m ≠ 0#64 → p.toNat < s.m.toNat) := by
  obtain ⟨hn, rfl⟩ := List.getElem?_eq_some_iff.1 hp
  simp only [roundPositions, List.length_map, chainFrom_length] at hn
  refine ⟨by omega, fun hm => ?_⟩
  have hpos : 0 < s.m.toNat := by bv_omega
  simpa [roundPositions, position, BitVec.toNat_umod] using Nat.mod_lt _ hpos

/-! ### The pre-checks -/

theorem refusal_eq_none_iff (i : Instr) (s : State) :
    refusal i s = none ↔ s.faulted = false ∧ (needsFilter i = true → s.cfgValid = true) := by
  cases hf : s.faulted <;> cases hn : needsFilter i <;> cases hc : s.cfgValid <;> simp [refusal, hf, hn, hc]

theorem refusal_code {i : Instr} {s : State} {code : Byte} (h : refusal i s = some code) :
    code = errFaulted ∨ code = errNotConfigured := by
  unfold refusal at h
  split at h
  · exact .inl (Option.some.inj h).symm
  · split at h
    · exact .inr (Option.some.inj h).symm
    · cases h

/-! ### What the engine's next move can do -/

/-- The second state has the first one's registers, STATUS fields, BUF and parameters. The hidden execution state, the
streams, the host's side and the draw counter may differ. -/
inductive SameRegisters (s : State) : State → Prop
  | mk (e : Engine) (ins : List InBeat) (ans : List Response) (out : List OutBeat) (reads : List Word)
      (host : List HostEvent) (draws : Nat) :
    SameRegisters s { s with
      engine := e, inStream := ins, answers := ans, outLog := out, readLog := reads, host := host, draws := draws }

theorem SameRegisters.refl (s : State) : SameRegisters s s := .mk ..

theorem SameRegisters.trans {s t u : State} (h : SameRegisters s t) (h' : SameRegisters t u) : SameRegisters s u := by
  cases h
  cases h'
  exact .mk ..

/-- A buffer that is canonical and within BUF's L bytes where the state's own is. -/
structure KeepsBufForm (s : State) (b : Memory) : Prop where
  wf : Memory.wf s.buf = true → Memory.wf b = true
  below : Memory.below s.bufLen s.buf = true → Memory.below s.bufLen b = true

/-- A filter that DECODE or CREATE may configure: L bytes in canonical form, which fit the storage (10_state R31, R36). -/
structure Fits (s : State) (m : Word) (b : Memory) : Prop where
  wf : Memory.wf b = true
  below : Memory.below (byteLen m) b = true
  capacity : byteLen m ≤ s.params.maxBufBytes

/-- What a sticky fault records (60_exceptions R264): a ZERO_BITCOUNT, or the round and position of a POS_RANGE. -/
def FaultRecord (s : State) (cause : Byte) (round : Nat) (pos : Word) : Prop :=
  (cause = faultZeroBitCount ∧ round = 0 ∧ pos = 0#64 ∧ s.k ≠ 0#8 ∧ s.m = 0#64) ∨
    (cause = faultPosRange ∧ round < s.k.toNat ∧ 8 * s.bufLen ≤ pos.toNat ∧ pos.toNat < s.m.toNat)

/-- A fault's record as the fault fields hold it: FAULT_ROUND has room for every round below K. -/
theorem FaultRecord.stored {s : State} {cause : Byte} {round : Nat} {pos : Word} (h : FaultRecord s cause round pos) :
    cause ∈ completionCodes ∧
      ((cause = faultZeroBitCount ∧ BitVec.ofNat 8 round = 0x00#8 ∧ pos = 0#64 ∧ s.k ≠ 0#8 ∧ s.m = 0#64) ∨
        (cause = faultPosRange ∧ (BitVec.ofNat 8 round).toNat < s.k.toNat ∧ 8 * s.bufLen ≤ pos.toNat ∧
          pos.toNat < s.m.toNat)) := by
  rcases h with ⟨rfl, rfl, hpos, hk, hm⟩ | ⟨rfl, hround, hlo, hhi⟩
  · exact ⟨by decide, .inl ⟨rfl, rfl, hpos, hk, hm⟩⟩
  · have hroom : (BitVec.ofNat 8 round).toNat = round := Nat.mod_eq_of_lt (hround.trans s.k.isLt)
    exact ⟨by decide, .inr ⟨rfl, by rwa [hroom], hlo, hhi⟩⟩

/-- All the engine's next move can do to a state: it waits with the registers as they were, or the command ends in one of
the ways of 42_filter_engine R174. `ok` is what is known of the hidden execution state before the move. -/
inductive Move (ok : Prop) (s : State) : State → Prop
  /-- The command goes on, or none was running. -/
  | wait {u : State} (same : SameRegisters s u) (engineOk : ok → EngineOk u) : Move ok s u
  /-- QUERY answers, or ENCODE has delivered the stored filter. -/
  | answer (r : Bool) {u : State} (same : SameRegisters s u) : Move ok s (complete r u)
  /-- An error that leaves the filter as it is (60_exceptions R262). -/
  | error {u : State} {code : Byte} (same : SameRegisters s u) (listed : ok → code ∈ completionCodes) :
    Move ok s (raiseError code u)
  /-- INSERT has set its bits (42_filter_engine R190). -/
  | insert {u : State} {b : Memory} (same : SameRegisters s u) (form : KeepsBufForm s b)
      (configured : ok → s.cfgValid = true) :
    Move ok s (complete false { u with buf := b, insertedCount := u.insertedCount + 1#64 })
  /-- A sticky fault; a faulting INSERT may have set some bits (60_exceptions R263, 93_implementation_defined U2). -/
  | fault {u : State} {b : Memory} {d : Nat} {cause : Byte} {round : Nat} {pos : Word} (same : SameRegisters s u)
      (form : KeepsBufForm s b) (recorded : FaultRecord s cause round pos) (configured : ok → s.cfgValid = true) :
    Move ok s (raiseFault cause round pos { u with buf := b, draws := d })
  /-- CREATE or DECODE holds a new filter (42_filter_engine R185, 43_codec R234). -/
  | configure {u : State} {k : Byte} {m : Word} {b : Memory} (same : SameRegisters s u)
      (unfaulted : ok → s.faulted = false) (fits : ok → Fits s m b) :
    Move ok s (complete false (configure k m b u))
  /-- A failed DECODE leaves no filter (43_codec R236). -/
  | unconfigure {u : State} {code : Byte} (same : SameRegisters s u) (unfaulted : ok → s.faulted = false)
      (listed : ok → code ∈ completionCodes) :
    Move ok s (raiseError code (unconfigure u))

/-- More known of the hidden state before the move. -/
theorem Move.mono {p q : Prop} {s t : State} (h : Move p s t) (hq : q → p) : Move q s t := by
  cases h with
  | wait same engineOk => exact .wait same (engineOk ∘ hq)
  | answer r same => exact .answer r same
  | error same listed => exact .error same (listed ∘ hq)
  | insert same form configured => exact .insert same form (configured ∘ hq)
  | fault same form recorded configured => exact .fault same form recorded (configured ∘ hq)
  | configure same unfaulted fits => exact .configure same (unfaulted ∘ hq) (fits ∘ hq)
  | unconfigure same unfaulted listed => exact .unconfigure same (unfaulted ∘ hq) (listed ∘ hq)

/-- A move from a state with the same registers is one from the state itself. -/
theorem Move.of_same {ok : Prop} {s t u : State} (hs : SameRegisters s t) (h : Move ok t u) : Move ok s u := by
  have hst := hs
  cases hs
  cases h with
  | wait same engineOk => exact .wait (hst.trans same) engineOk
  | answer r same => exact .answer r (hst.trans same)
  | error same listed => exact .error (hst.trans same) listed
  | insert same form configured => exact .insert (hst.trans same) ⟨form.wf, form.below⟩ configured
  | fault same form recorded configured => exact .fault (hst.trans same) ⟨form.wf, form.below⟩ recorded configured
  | configure same unfaulted fits =>
    exact .configure (hst.trans same) unfaulted fun h => ⟨(fits h).wf, (fits h).below, (fits h).capacity⟩
  | unconfigure same unfaulted listed => exact .unconfigure (hst.trans same) unfaulted listed

/-- No move changes the OPEN parameters (00_scope R6). -/
theorem Move.params {ok : Prop} {s t : State} (h : Move ok s t) : t.params = s.params := by
  cases h with
  | wait same | answer r same | error same | insert same | fault same | configure same | unconfigure same =>
    cases same
    rfl

/-- No end of a command writes ARG_N or ARG_P (10_state R24, R25). -/
theorem Move.operands {ok : Prop} {s t : State} (h : Move ok s t) : t.argN = s.argN ∧ t.argP = s.argP := by
  cases h with
  | wait same | answer r same | error same | insert same | fault same | configure same | unconfigure same =>
    cases same
    exact ⟨rfl, rfl⟩

/-- A command that goes on after the engine's move has changed no register. -/
theorem Move.same_of_busy {ok : Prop} {s t : State} (h : Move ok s t) (hb : t.busy = true) : SameRegisters s t := by
  cases h with
  | wait same => exact same
  | answer | error | insert | fault | configure | unconfigure => cases hb

/-! ### The move of each kind of work -/

theorem finishPacket_move (op : Instr) (fin : Finish) (n : Nat) (s : State) :
    Move (EngineOk { s with engine := .drain op fin n }) s (finishPacket fin s) := by
  cases fin with
  | refuse code =>
    refine .error (.refl s) fun ⟨_, hcode⟩ => ?_
    rcases hcode with rfl | rfl <;> decide
  | fail code =>
    refine .unconfigure (.refl s) (fun ⟨_, hf, _⟩ => hf) fun ⟨_, _, _, hcode⟩ => ?_
    rcases hcode with rfl | rfl | rfl <;> decide
  | load k m body =>
    refine .configure (.refl s) (fun ⟨_, hf, _⟩ => hf) fun ⟨_, _, _, hlen, hcap⟩ => ⟨wf_loadAll body, ?_, hcap⟩
    have hbelow := below_ofBytes 0 body
    rwa [Nat.zero_add, hlen] at hbelow

theorem drainRun_move (op : Instr) (fin : Finish) (n : Nat) (s : State) :
    Move (EngineOk { s with engine := .drain op fin n }) s (drainRun op fin n s) := by
  unfold drainRun
  split
  · exact .wait (.mk ..) id
  · next rest _ => exact (finishPacket_move op fin n { s with inStream := rest }).of_same (.mk ..)

/-- A command that is refused reports a refusal's code, at once or after its packet; else its own work decides. -/
theorem withChecks_move {i : Instr} {work : State → State} {s : State}
    (h : s.faulted = false → (needsFilter i = true → s.cfgValid = true) → Move True s (work s)) :
    Move True s (withChecks i work s) := by
  cases hr : refusal i s with
  | none =>
    obtain ⟨hf, hc⟩ := (refusal_eq_none_iff i s).1 hr
    rw [withChecks_pass hr]
    exact h hf hc
  | some code =>
    have hcode := refusal_code hr
    cases hp : readsPacket i with
    | true =>
      rw [withChecks_refuse_drain hr hp]
      exact (drainRun_move ..).mono fun _ => ⟨hp, hcode⟩
    | false =>
      rw [withChecks_refuse hr hp]
      refine .error (.refl s) fun _ => ?_
      rcases hcode with rfl | rfl <;> decide

theorem createWork_move {s : State} (hf : s.faulted = false) : Move True s (createWork s) := by
  unfold createWork
  split
  · exact .error (.refl s) fun _ => by decide
  · split
    · exact .error (.refl s) fun _ => by decide
    · next hcap => exact .configure (.refl s) (fun _ => hf) fun _ => ⟨wf_clearAll, rfl, Nat.le_of_not_lt hcap⟩

/-- The first position without storage is a POS_RANGE record where M is not 0 (42_filter_engine R193). -/
theorem faultRecord_posRange {s : State} {h p : Word} {i n : Nat} (hkm : ¬ (s.k ≠ 0#8 ∧ s.m = 0#64))
    (hp : (roundPositions s h i)[n]? = some p) (hr : inRange s.bufLen p = false) :
    FaultRecord s faultPosRange (i + n) p := by
  obtain ⟨hround, hpos⟩ := roundPositions_bounds hp
  have hk : s.k ≠ 0#8 := by
    intro hk
    simp [hk] at hround
  exact .inr ⟨rfl, hround, (inRange_eq_false_iff _ p).1 hr, hpos fun hm => hkm ⟨hk, hm⟩⟩

theorem insertRounds_move {h : Word} {i : Nat} {s : State} (hkm : ¬ (s.k ≠ 0#8 ∧ s.m = 0#64)) :
    Move (s.cfgValid = true) s (insertRounds h i s) := by
  unfold insertRounds
  split
  · next b hb => exact .insert (.refl s) ⟨fun hw => wf_setAll hw hb, fun hl => below_setAll hl hb⟩ id
  · next j p hb =>
    obtain ⟨n, rfl, hp, hr, -⟩ := setAll_error hb
    exact .fault (.refl s) ⟨wf_setSome, below_setSome⟩ (faultRecord_posRange hkm hp hr) id

theorem queryRounds_move {h : Word} {i : Nat} {s : State} (hkm : ¬ (s.k ≠ 0#8 ∧ s.m = 0#64)) :
    Move (s.cfgValid = true) s (queryRounds h i s) := by
  unfold queryRounds
  split
  · exact .answer _ (.refl s)
  · next j p hb =>
    obtain ⟨n, rfl, hp, hr⟩ := testAll_error_position hb
    exact .fault (b := s.buf) (d := s.draws) (.refl s) ⟨id, id⟩ (faultRecord_posRange hkm hp hr) id

theorem roundsRun_move (op : WordOp) (h : Word) (i : Nat) (s : State) :
    Move (s.cfgValid = true) s (roundsRun op h i s) := by
  unfold roundsRun
  split
  · next hkm =>
    exact .fault (b := s.buf) (d := s.draws) (.refl s) ⟨id, id⟩ (.inl ⟨rfl, rfl, rfl, hkm.1, hkm.2⟩) id
  · next hkm =>
    cases op with
    | insert => exact insertRounds_move hkm
    | query => exact queryRounds_move hkm

theorem wordRun_move (op : WordOp) (h : Word) (n : Nat) (s : State) :
    Move (s.faulted = false ∧ s.cfgValid = true) s (wordRun op h n s) := by
  unfold wordRun
  split
  · exact .wait (.mk ..) id
  · next h' rest _ =>
    have rounds := roundsRun_move op h' 0 { s with inStream := rest, engine := .rounds op h' 0 }
    exact (rounds.mono And.right).of_same (.mk ..)
  · exact .error (.mk ..) fun _ => by decide

theorem sendRun_move (j : Nat) (s : State) : Move (EngineOk { s with engine := .sending j }) s (sendRun j s) := by
  unfold sendRun
  dsimp only
  split
  · exact .answer _ (.mk ..)
  · exact .error (.mk ..) fun _ => by decide
  · next hw => exact .wait (.mk ..) fun ⟨hf, hc, hj⟩ => ⟨hf, hc, sendBeats_waiting_lt hj hw⟩

/-- A packet that ends inside the stored filter is a DECODE failure (43_codec R231, R235). -/
theorem failDecode_move {code : Byte} {s : State} {rest : List InBeat} (hcode : code ∈ completionCodes) :
    Move (s.faulted = false) s (failDecode code { s with inStream := rest }) :=
  .unconfigure (.mk ..) id fun _ => hcode

theorem bodyRun_move (k : Byte) (m : Word) (got : List Byte) (s : State) :
    Move (s.faulted = false ∧ got.length ≤ byteLen m ∧ byteLen m ≤ s.params.maxBufBytes) s (bodyRun k m got s) := by
  obtain ⟨filled, waiting⟩ := takeData_length (byteLen m - got.length) s.inStream
  unfold bodyRun
  dsimp only
  split
  · next hs =>
    have hlen := filled hs
    refine ((drainRun_move ..).mono fun ⟨hf, hgot, hcap⟩ => ⟨rfl, hf, rfl, ?_, hcap⟩).of_same (.mk ..)
    rw [List.length_append]
    omega
  · next hs =>
    have hlen := waiting hs
    refine .wait (.mk ..) fun ⟨hf, _, hcap⟩ => ⟨hf, ?_, hcap⟩
    rw [List.length_append]
    omega
  · exact .mono (failDecode_move (by decide)) And.left
  · exact .mono (failDecode_move (by decide)) And.left

theorem validateHeader_move (hdr : List Byte) (s : State) : Move (s.faulted = false) s (validateHeader hdr s) := by
  unfold validateHeader
  split
  · exact (drainRun_move ..).mono fun hf => ⟨rfl, hf, rfl, .inl rfl⟩
  · split
    · exact (drainRun_move ..).mono fun hf => ⟨rfl, hf, rfl, .inr (.inl rfl)⟩
    · split
      · exact (drainRun_move ..).mono fun hf => ⟨rfl, hf, rfl, .inr (.inr rfl)⟩
      · next hcap => exact (bodyRun_move ..).mono fun hf => ⟨hf, Nat.zero_le _, Nat.le_of_not_lt hcap⟩

theorem headerRun_move (got : List Byte) (s : State) : Move (s.faulted = false) s (headerRun got s) := by
  obtain ⟨-, waiting⟩ := takeData_length (headerLen - got.length) s.inStream
  unfold headerRun
  dsimp only
  split
  · exact Move.of_same (.mk ..) (validateHeader_move _ { s with inStream := (takeData _ s.inStream).2.2 })
  · next hs =>
    have hlen := waiting hs
    refine .wait (.mk ..) fun hf => ⟨hf, ?_⟩
    rw [List.length_append]
    omega
  · exact failDecode_move (by decide)
  · exact failDecode_move (by decide)

theorem instrRun_move (i : Instr) (s : State) : Move True s (commandRun (.instr i) s) := by
  cases i with
  | create => exact withChecks_move fun hf _ => createWork_move hf
  | insert => exact withChecks_move fun hf hc => (wordRun_move ..).mono fun _ => ⟨hf, hc rfl⟩
  | query => exact withChecks_move fun hf hc => (wordRun_move ..).mono fun _ => ⟨hf, hc rfl⟩
  | encode =>
    have hlen : 0 < storedLen s := Nat.add_pos_left (by decide) _
    exact withChecks_move fun hf hc => (sendRun_move ..).mono fun _ => ⟨hf, hc rfl, hlen⟩
  | decode => exact withChecks_move fun hf _ => (headerRun_move ..).mono fun _ => hf

/-- What the hidden state requires, read at the engine state it is in. -/
theorem engineOk_at {s : State} {e : Engine} (h : EngineOk s) (he : s.engine = e) : EngineOk { s with engine := e } := by
  subst he
  exact h

/-- The engine's next move, from any hidden execution state. -/
theorem resume_move (s : State) : Move (EngineOk s) s (resume s) := by
  unfold resume
  split
  · exact .wait (.refl s) id
  · next c hc =>
    cases c with
    | instr i => exact (instrRun_move i s).mono fun _ => trivial
    | illegal => exact .error (.refl s) fun _ => by decide
  · next op h n he => exact (wordRun_move ..).mono fun hok => engineOk_at hok he
  · next op h i he =>
    refine (roundsRun_move ..).mono fun hok => ?_
    obtain ⟨-, hconf, -⟩ := engineOk_at hok he
    exact hconf
  · next got he =>
    refine (headerRun_move ..).mono fun hok => ?_
    obtain ⟨hf, -⟩ := engineOk_at hok he
    exact hf
  · next k m got he =>
    refine (bodyRun_move ..).mono fun hok => ?_
    obtain ⟨hf, hlen, hcap⟩ := engineOk_at hok he
    exact ⟨hf, hlen.le, hcap⟩
  · next op fin n he => exact (drainRun_move ..).mono fun hok => engineOk_at hok he
  · next j he => exact (sendRun_move ..).mono fun hok => engineOk_at hok he

theorem resume_idle {s : State} (h : s.engine = .idle) : resume s = s := by
  simp [resume, h]

/-! ### What a host interaction can do, and the step -/

/-- All a host interaction can do to a state before the engine moves. -/
inductive HostMove (s : State) : State → Prop
  /-- A read, a beat or an answer offered, an ignored write, or nothing. -/
  | outside {ins : List InBeat} {ans : List Response} {reads : List Word} {host : List HostEvent} {draws : Nat} :
    HostMove s { s with inStream := ins, answers := ans, readLog := reads, host := host, draws := draws }
  /-- A write to ARG_N or ARG_P of an idle block. -/
  | store {n p : Word} {host : List HostEvent} (idle : s.engine = .idle) :
    HostMove s { s with argN := n, argP := p, host := host }
  /-- A write to CMD of an idle block. -/
  | accept {c : Command} {host : List HostEvent} (idle : s.engine = .idle) : HostMove s (accept c { s with host := host })
  /-- Reset of a block whose command may have taken some more beats (70_reset_and_hazards R290). -/
  | reset {u : State} (same : SameRegisters s u) : HostMove s (resetBlock u)

theorem HostMove.of_host {s u : State} {rest : List HostEvent} (h : HostMove { s with host := rest } u) : HostMove s u := by
  cases h with
  | outside => exact .outside
  | store idle => exact .store idle
  | accept idle => exact .accept idle
  | reset same => exact .reset (.trans (.mk ..) same)

/-- No host interaction changes the OPEN parameters (00_scope R6). -/
theorem HostMove.params {s t : State} (h : HostMove s t) : t.params = s.params := by
  cases h with
  | outside => rfl
  | store => rfl
  | accept => rfl
  | reset same => cases same; rfl

/-- The host can change a busy block only by a reset, which ends the command. -/
theorem HostMove.same_of_busy {s t : State} (h : HostMove s t) (hs : s.busy = true) :
    SameRegisters s t ∨ t.engine = .idle := by
  have hne := (busy_eq_true_iff s).1 hs
  cases h with
  | outside => exact .inl (.mk ..)
  | store idle | accept idle => exact absurd idle hne
  | reset => exact .inr rfl

theorem settle_cases (o : Bool) (s : State) : settle o s = s ∨ settle o s = resume s := by
  cases o
  · exact .inr rfl
  · exact .inl rfl

theorem idle_of_not_busy {s : State} (h : ¬ s.busy = true) : s.engine = .idle := by
  simpa [busy_eq_true_iff] using h

/-- A read changes what the host has read, and may draw a free value (10_state R34, R35). -/
theorem hostRead_spec (idx : BitVec 4) (s : State) :
    ∃ v d, hostRead idx s = { s with readLog := s.readLog ++ [v], draws := d } := by
  unfold hostRead
  split
  · exact ⟨_, _, rfl⟩
  · exact ⟨_, s.draws, rfl⟩

theorem hostRead_move (idx : BitVec 4) (s : State) : HostMove s (hostRead idx s) := by
  obtain ⟨v, d, h⟩ := hostRead_spec idx s
  rw [h]
  exact .outside

theorem hostWrite_move (idx : BitVec 4) (data : Word) (s : State) : HostMove s (hostWrite idx data s) := by
  unfold hostWrite
  split
  · exact .outside
  · next hb =>
    have hidle := idle_of_not_busy hb
    split
    · exact .store hidle
    · exact .store hidle
    · exact .outside

theorem execIllegal_idle {s : State} (h : s.engine = .idle) : execIllegal s = .next (resume (accept .illegal s)) :=
  onAccept_idle h ..

/-- A CMD write is ignored by a busy block; an idle one accepts a command (10_state R22, 42_filter_engine R170). -/
theorem commandWrite_cases (o : Bool) (w : Word) (s : State) :
    ∃ u, HostMove s u ∧ commandWrite o w s = .next (settle o u) := by
  unfold commandWrite
  split
  · exact ⟨s, .outside, rfl⟩
  · next hb =>
    have hidle := idle_of_not_busy hb
    split
    · next i _ =>
      refine ⟨accept (.instr i) s, .accept hidle, ?_⟩
      cases o
      · exact exec_idle hidle i
      · rfl
    · refine ⟨accept .illegal s, .accept hidle, ?_⟩
      cases o
      · exact execIllegal_idle hidle
      · rfl

theorem hostTurn_cases (ev : HostEvent) (s : State) :
    ∃ u, HostMove s u ∧ hostTurn ev s = .next (settle ev.overlap u) := by
  unfold hostTurn
  split
  · unfold registerAccess
    split
    · exact ⟨_, hostRead_move _ s, rfl⟩
    · split
      · exact commandWrite_cases ..
      · exact ⟨_, hostWrite_move .., rfl⟩
  · exact ⟨_, .outside, rfl⟩
  · exact ⟨_, .outside, rfl⟩
  · exact ⟨_, .reset (.mk ..), rfl⟩

/-- A step is a host interaction and then, unless the host's next one comes first, the engine's move. -/
theorem step_cases {s t : State} (h : step s = .next t) : ∃ u, HostMove s u ∧ (t = u ∨ t = resume u) := by
  unfold step at h
  split at h
  · cases h
    exact ⟨s, .outside, .inr rfl⟩
  · next ev rest _ =>
    obtain ⟨u, hmove, hturn⟩ := hostTurn_cases ev { s with host := rest }
    cases hturn.symm.trans h
    exact ⟨u, hmove.of_host, settle_cases ..⟩

/-- While a command goes on, no step changes a register (10_state R23, R35). -/
theorem step_same_of_busy {s t : State} (hs : s.busy = true) (hstep : step s = .next t) (ht : t.busy = true) :
    SameRegisters s t := by
  obtain ⟨u, host, hu⟩ := step_cases hstep
  rcases host.same_of_busy hs with same | idle
  · rcases hu with rfl | rfl
    · exact same
    · exact same.trans ((resume_move u).same_of_busy ht)
  · have htu : t = u := hu.elim id fun h => h.trans (resume_idle idle)
    exact absurd (htu ▸ idle) ((busy_eq_true_iff t).1 ht)

end Sys2Proof.Proofs.Moves
end

section
/-! The register file (10_state): the invariant (O3, O4), what BUSY holds (O7), the register port (O1, O5, O9 to O12) and
BUF's cover (O23). -/
namespace Sys2Proof.Proofs.RegisterFile
open Sys2Proof Sys2Proof.Machine Sys2Proof.Proofs.Moves

/-! ### BUF's cover -/

/-- Settles O23: L is M / 8 rounded down, and a position's byte index is p / 8 rounded down. -/
theorem bufferCoversEightLPositions : Obligations.BufferCoversEightLPositions := by
  unfold Obligations.BufferCoversEightLPositions
  intro m
  have hm := byteLen_eq_div m
  refine ⟨by omega, by omega, by omega, fun p hlo hhi => ⟨?_, (inRange_eq_false_iff _ p).2 hlo⟩⟩
  have hp := byteIndex_eq_div p
  omega

/-! ### The invariant -/

theorem success_listed : 0x00#8 ∈ completionCodes := List.mem_cons_self

/-- Short of a reset, a host interaction changes only what the invariant does not read. -/
theorem inv_hostMove {s t : State} (h : Inv s) (move : HostMove s t) : Inv t := by
  cases move with
  | outside => exact { h with engineOk := h.engineOk }
  | store => exact { h with engineOk := h.engineOk }
  | accept => exact { h with engineOk := trivial }
  | reset same =>
    cases same
    exact
      { bufWf := wf_freeBuf _
        paramsWf := h.paramsWf
        errListed := success_listed
        resultClean := fun _ => rfl
        noFault := fun _ => ⟨rfl, rfl, rfl⟩
        fault := nofun
        filter := nofun
        noFilter := fun _ => ⟨rfl, rfl, rfl⟩
        engineOk := trivial }

theorem inv_move {s t : State} (h : Inv s) (move : Move (EngineOk s) s t) : Inv t := by
  cases move with
  | wait same engineOk =>
    cases same
    exact { h with engineOk := engineOk h.engineOk }
  | answer r same =>
    cases same
    exact { h with errListed := success_listed, resultClean := fun _ => rfl, engineOk := trivial }
  | error same listed =>
    cases same
    exact { h with errListed := listed h.engineOk, resultClean := nofun, engineOk := trivial }
  | insert same form configured =>
    cases same
    exact
      { h with
        bufWf := form.wf h.bufWf
        errListed := success_listed
        resultClean := nofun
        filter := fun hc => (h.filter hc).imp_right form.below
        noFilter := fun hc => absurd (hc.symm.trans (configured h.engineOk)) Bool.false_ne_true
        engineOk := trivial }
  | fault same form recorded configured =>
    cases same
    obtain ⟨hlisted, hrecord⟩ := recorded.stored
    exact
      { h with
        bufWf := form.wf h.bufWf
        errListed := hlisted
        resultClean := nofun
        noFault := nofun
        fault := fun _ => ⟨configured h.engineOk, hrecord⟩
        filter := fun hc => (h.filter hc).imp_right form.below
        engineOk := trivial }
  | configure same unfaulted fits =>
    cases same
    have hf := unfaulted h.engineOk
    have hfits := fits h.engineOk
    exact
      { h with
        bufWf := hfits.wf
        errListed := success_listed
        resultClean := nofun
        fault := fun hf' => absurd (hf.symm.trans hf') Bool.false_ne_true
        filter := fun _ => ⟨hfits.capacity, hfits.below⟩
        noFilter := nofun
        engineOk := trivial }
  | unconfigure same unfaulted listed =>
    cases same
    have hf := unfaulted h.engineOk
    exact
      { h with
        bufWf := wf_freeBuf _
        errListed := listed h.engineOk
        resultClean := nofun
        fault := fun hf' => absurd (hf.symm.trans hf') Bool.false_ne_true
        filter := nofun
        noFilter := fun _ => ⟨rfl, rfl, rfl⟩
        engineOk := trivial }

/-- Settles O4: a step is a host interaction and at most one move of the engine, and each keeps the invariant. -/
theorem stepKeepsInvariant : Obligations.StepKeepsInvariant := by
  unfold Obligations.StepKeepsInvariant
  intro s t hs hstep
  obtain ⟨u, host, rfl | rfl⟩ := step_cases hstep
  · exact ⟨inv_hostMove hs host, host.params⟩
  · have move := resume_move u
    exact ⟨inv_move (inv_hostMove hs host) move, move.params.trans host.params⟩

/-- Settles O3: MAX_BUF_BYTES is one more than a value below 2^61 - 1. -/
theorem invariantAfterReset : Obligations.InvariantAfterReset := by
  unfold Obligations.InvariantAfterReset
  have hmax : 1 ≤ Config.maxBufBytes ∧ Config.maxBufBytes ≤ 2 ^ 61 - 1 :=
    ⟨Nat.succ_pos _, Config.maxBufLessOne.isLt⟩
  exact
    { bufWf := wf_reset
      paramsWf := decide_eq_true hmax
      errListed := success_listed
      resultClean := fun _ => rfl
      noFault := fun _ => ⟨rfl, rfl, rfl⟩
      fault := nofun
      filter := nofun
      noFilter := fun _ => ⟨rfl, rfl, rfl⟩
      engineOk := trivial }

/-! ### What BUSY holds -/

/-- Settles O7: while a command goes on, the engine only waits, and the host's writes are ignored. -/
theorem busyHoldsRegisters : Obligations.BusyHoldsRegisters := by
  unfold Obligations.BusyHoldsRegisters
  intro s t hs hstep ht
  cases step_same_of_busy hs hstep ht
  exact ⟨rfl, rfl, rfl, rfl, rfl, rfl, rfl, rfl, rfl, rfl, rfl, rfl, rfl⟩

/-! ### The register port -/

/-- A step whose host interaction is a register access (30_encoding R91). -/
theorem step_access {s : State} {a : RegAccess} {o : Bool} {rest : List HostEvent}
    (h : s.host = { op := .access a, overlap := o } :: rest) : step s = registerAccess o a { s with host := rest } := by
  simp only [step, h, hostTurn]

theorem step_read {s : State} {idx : BitVec 4} {data : Word} {o : Bool} {rest : List HostEvent}
    (h : s.host = { op := .access { dir := 0#1, idx := idx, data := data }, overlap := o } :: rest) :
    step s = .next (settle o (hostRead idx { s with host := rest })) := by
  rw [step_access h]
  rfl

theorem step_write {s : State} {idx : BitVec 4} {data : Word} {o : Bool} {rest : List HostEvent} (hidx : idx.toNat ≠ 0)
    (h : s.host = { op := .access { dir := 1#1, idx := idx, data := data }, overlap := o } :: rest) :
    step s = .next (settle o (hostWrite idx data { s with host := rest })) := by
  rw [step_access h]
  exact if_neg fun h0 : idx = 0#4 => hidx (by simp [h0])

theorem step_commandWrite {s : State} {w : Word} {o : Bool} {rest : List HostEvent}
    (h : s.host = { op := .access { dir := 1#1, idx := 0#4, data := w }, overlap := o } :: rest) :
    step s = commandWrite o w { s with host := rest } := by
  rw [step_access h]
  rfl

/-- A read of a register that is stable while BUSY = 1 returns its value and changes nothing else (10_state R34, R35). -/
theorem hostRead_stable {idx : BitVec 4} (h : unstable idx = false) (s : State) :
    hostRead idx s = { s with readLog := s.readLog ++ [readReg s idx] } := by
  simp [hostRead, h]

theorem hostWrite_busy {s : State} (h : s.busy = true) (idx : BitVec 4) (data : Word) : hostWrite idx data s = s := by
  simp [hostWrite, h]

theorem hostWrite_argN {s : State} (h : s.busy = false) (data : Word) : hostWrite 2#4 data s = { s with argN := data } := by
  simp [hostWrite, h]

theorem hostWrite_argP {s : State} (h : s.busy = false) (data : Word) : hostWrite 3#4 data s = { s with argP := data } := by
  simp [hostWrite, h]

/-- Only ARG_N and ARG_P store a write (10_state R24, R25, R33, R34). -/
theorem hostWrite_ignored {idx : BitVec 4} (h : idx.toNat ≠ 2 ∧ idx.toNat ≠ 3) (data : Word) (s : State) :
    hostWrite idx data s = s := by
  unfold hostWrite
  split
  · rfl
  · split
    · next h2 => exact absurd h2 h.1
    · next h3 => exact absurd h3 h.2
    · rfl

theorem settle_idle {s : State} (h : s.engine = .idle) (o : Bool) : settle o s = s :=
  (settle_cases o s).elim id fun hs => hs.trans (resume_idle h)

/-- What the host still has to do does not touch BUSY. -/
@[simp] theorem busy_withHost (s : State) (rest : List HostEvent) : State.busy { s with host := rest } = s.busy := rfl

section CommandWrite
variable {s : State} {w : Word} {o : Bool} {rest : List HostEvent}

/-- A write to CMD of a busy block is ignored (10_state R22). -/
theorem step_cmd_busy (hb : s.busy = true)
    (h : s.host = { op := .access { dir := 1#1, idx := 0#4, data := w }, overlap := o } :: rest) :
    step s = .next (settle o { s with host := rest }) := by
  rw [step_commandWrite h]
  simp [commandWrite, hb]

/-- A step that presents a command's word to an idle block (42_filter_engine R170). -/
theorem step_cmd_instr {i : Instr} (hb : s.busy = false)
    (h : s.host = { op := .access { dir := 1#1, idx := 0#4, data := w }, overlap := o } :: rest) (hw : decode w = .ok i) :
    step s = if o then .next (accept (.instr i) { s with host := rest }) else exec i { s with host := rest } := by
  rw [step_commandWrite h]
  simp [commandWrite, hb, hw]

/-- A step that presents any other word to an idle block (42_filter_engine R176). -/
theorem step_cmd_illegal {r : WordReject} (hb : s.busy = false)
    (h : s.host = { op := .access { dir := 1#1, idx := 0#4, data := w }, overlap := o } :: rest)
    (hw : decode w = .error r) :
    step s = if o then .next (accept .illegal { s with host := rest }) else execIllegal { s with host := rest } := by
  rw [step_commandWrite h]
  simp [commandWrite, hb, hw]

end CommandWrite

/-- Settles O9: a CMD write of an idle block goes by the word's decoding, and index 0 reads 0. -/
theorem cmdRegister : Obligations.CmdRegister := by
  unfold Obligations.CmdRegister
  intro s w o rest
  refine ⟨fun hb h => ?_, fun hb h => ?_, step_cmd_busy, fun h => ?_⟩
  · cases hw : decode w with
    | ok i => exact step_cmd_instr hb h hw
    | error r => exact step_cmd_illegal hb h hw
  · cases hw : decode w with
    | ok i => exact step_cmd_instr hb h hw
    | error r => exact step_cmd_illegal hb h hw
  · rw [step_read h, hostRead_stable rfl]
    rfl

theorem decode_encode (i : Instr) : decode (encode i) = .ok i := by
  cases i <;> rfl

/-- Settles O5: the word presented decodes to its command, the fetch helper's word as well. -/
theorem stepRunsDecodedCommand : Obligations.StepRunsDecodedCommand := by
  unfold Obligations.StepRunsDecodedCommand
  refine ⟨fun s w i rest hidle => step_cmd_instr ((busy_eq_false_iff s).2 hidle), fun s i hidle => exec_idle hidle i,
    fun s w i rest hidle => step_cmd_instr ((busy_eq_false_iff s).2 hidle), fun s i => ?_⟩
  have hword : BitVec.ofNat 64 ((encode i).toNat % 2 ^ 64) = encode i := by
    rw [Nat.mod_eq_of_lt (encode i).isLt, BitVec.ofNat_toNat, BitVec.setWidth_eq]
  exact step_cmd_instr (s := s.withFetchWord 64 (encode i).toNat) rfl rfl (hword.symm ▸ decode_encode i)

/-- An index above those of the registers reads 0 (10_state R33). -/
theorem readReg_reserved {idx : BitVec 4} (h : 9 ≤ idx.toNat) (s : State) : readReg s idx = 0#64 := by
  unfold readReg
  split
  case h_9 => rfl
  all_goals omega

/-- Settles O10: the indices from 9 up are stable, read 0, and are not those of ARG_N and ARG_P. -/
theorem reservedRegisters : Obligations.ReservedRegisters := by
  unfold Obligations.ReservedRegisters
  intro s idx data o rest hidx
  constructor
  · intro h
    have hstable : unstable idx = false := decide_eq_false (by omega)
    rw [step_read h, hostRead_stable hstable, readReg_reserved hidx]
  · intro h
    rw [step_write (by omega) h, hostWrite_ignored (by omega)]

/-- Settles O11: of the indices above 0 only those of ARG_N and ARG_P store a write. -/
theorem readOnlyRegisters : Obligations.ReadOnlyRegisters := by
  unfold Obligations.ReadOnlyRegisters
  intro s idx data o rest
  constructor
  · intro hidx h
    rw [step_write (by omega) h, hostWrite_ignored (by omega)]
  · intro h
    obtain ⟨v, d, hread⟩ := hostRead_spec idx { s with host := rest }
    exact ⟨v, d, by rw [step_read h, hread]⟩

/-- Settles O12: both indices are stable, and no move of the engine writes an operand. -/
theorem operandRegisters : Obligations.OperandRegisters := by
  unfold Obligations.OperandRegisters
  refine ⟨fun s data o rest hb => ⟨fun h => ?_, fun h => ?_⟩, ?_, ?_, fun s => (resume_move s).operands⟩
  · rw [step_write (by decide) h, hostWrite_argN, settle_idle]
    · exact (busy_eq_false_iff s).1 hb
    · exact hb
  · rw [step_write (by decide) h, hostWrite_argP, settle_idle]
    · exact (busy_eq_false_iff s).1 hb
    · exact hb
  · intro s idx data o rest hb hidx h
    have hne : idx.toNat ≠ 0 := by rcases hidx with rfl | rfl <;> decide
    rw [step_write hne h, hostWrite_busy]
    exact hb
  · intro s idx data o rest hidx h
    rcases hidx with rfl | rfl
    · rw [step_read h, hostRead_stable rfl]
      rfl
    · rw [step_read h, hostRead_stable rfl]
      rfl

theorem readReg_reset (idx : BitVec 4) : readReg State.reset idx = 0#64 := by
  unfold readReg
  split <;> rfl

/-- Settles O1: every register is a view of a field that is 0. -/
theorem resetClearsEveryRegister : Obligations.ResetClearsEveryRegister := by
  unfold Obligations.ResetClearsEveryRegister
  exact ⟨rfl, rfl, rfl, rfl, rfl, rfl, rfl, rfl, rfl, rfl, rfl, rfl, rfl, rfl, rfl, rfl, readReg_reset⟩

end Sys2Proof.Proofs.RegisterFile
end

section
/-! The streams (20_memory): one whole packet per command (O55), late beats and late answers (O56), and an ENCODE that waits
for answers (O46). A command that reads a packet is in a hidden state that waits for the packet's next beat (`AwaitsBeat`), and
one beat is one move: DATA leads to another such state (`resume_data`), a terminator ends the command (`resume_terminator`).
The statements on whole streams are inductions over their beats. -/
namespace Sys2Proof.Proofs.Streams
open Sys2Proof Sys2Proof.Machine Sys2Proof.Proofs.Moves

/-! ### The hidden states that wait for a beat -/

/-- The command takes the next beat of its packet: it has not read all the header or body bytes it asked for. -/
def AwaitsBeat : Engine → Prop
  | .idle => False
  | .accepted _ => False
  | .word _ _ _ => True
  | .rounds _ _ _ => False
  | .header got => got.length < headerLen
  | .body _ m got => got.length < byteLen m
  | .drain _ _ _ => True
  | .sending _ => False

theorem AwaitsBeat.ne_idle {e : Engine} (he : AwaitsBeat e) : e ≠ .idle := by
  rintro rfl
  exact he

/-- The output side of the block (20_memory R75): the beats delivered and the answers not yet used. -/
def SameOutput (s t : State) : Prop := t.outLog = s.outLog ∧ t.answers = s.answers

theorem SameOutput.refl (s : State) : SameOutput s s := ⟨rfl, rfl⟩

/-- The command has completed with `rest` left on the stream and no beat delivered (20_memory R72). -/
structure EndsWith (s : State) (rest : List InBeat) (t : State) : Prop where
  idle : t.engine = .idle
  stream : t.inStream = rest
  output : SameOutput s t

/-- `move`, as a function of the beats on the stream, is the engine's move from a hidden state that waits for the next beat of
its packet, `n` bytes of which have been taken. All else is as in `s`. -/
def ReadsOn (s : State) (n : Nat) (move : List InBeat → State) : Prop :=
  ∃ e, AwaitsBeat e ∧ e.taken = n ∧ ∀ r, move r = resume { s with engine := e, inStream := r }

theorem ReadsOn.of_eq {s : State} {n : Nat} {move move' : List InBeat → State} (h : ReadsOn s n move)
    (heq : ∀ r, move' r = move r) : ReadsOn s n move' := by
  obtain ⟨e, he, hn, hmove⟩ := h
  exact ⟨e, he, hn, fun r => (heq r).trans (hmove r)⟩

/-! ### A reading overwrites the hidden state it starts from -/

@[simp] theorem finishPacket_engine (fin : Finish) (e : Engine) (s : State) :
    finishPacket fin { s with engine := e } = finishPacket fin s := by
  cases fin <;> rfl

@[simp] theorem failDecode_engine (code : Byte) (e : Engine) (s : State) :
    failDecode code { s with engine := e } = failDecode code s := rfl

@[simp] theorem drainRun_engine (op : Instr) (fin : Finish) (n : Nat) (e : Engine) (s : State) :
    drainRun op fin n { s with engine := e } = drainRun op fin n s := by
  cases hd : drainBeats n s.inStream with
  | waiting => simp [drainRun, hd]
  | ended rest => simpa [drainRun, hd] using finishPacket_engine fin e { s with inStream := rest }

@[simp] theorem wordRun_engine (op : WordOp) (h : Word) (n : Nat) (e : Engine) (s : State) :
    wordRun op h n { s with engine := e } = wordRun op h n s := by
  cases hw : takeWord h n s.inStream with
  | waiting | complete => simp [wordRun, hw]
  | failed => simp [wordRun, hw, raiseError]

@[simp] theorem bodyRun_engine (k : Byte) (m : Word) (got : List Byte) (e : Engine) (s : State) :
    bodyRun k m got { s with engine := e } = bodyRun k m got s := by
  cases hd : (takeData (byteLen m - got.length) s.inStream).2.1 with
  | filled =>
    simpa [bodyRun, hd] using drainRun_engine _ _ _ e
      { s with inStream := (takeData (byteLen m - got.length) s.inStream).2.2 }
  | waiting => simp [bodyRun, hd]
  | ended | failed =>
    simpa [bodyRun, hd] using failDecode_engine _ e
      { s with inStream := (takeData (byteLen m - got.length) s.inStream).2.2 }

@[simp] theorem validateHeader_engine (hdr : List Byte) (e : Engine) (s : State) :
    validateHeader hdr { s with engine := e } = validateHeader hdr s := by
  simp [validateHeader]

@[simp] theorem headerRun_engine (got : List Byte) (e : Engine) (s : State) :
    headerRun got { s with engine := e } = headerRun got s := by
  cases hd : (takeData (headerLen - got.length) s.inStream).2.1 with
  | filled =>
    simpa [headerRun, hd] using validateHeader_engine _ e
      { s with inStream := (takeData (headerLen - got.length) s.inStream).2.2 }
  | waiting => simp [headerRun, hd]
  | ended | failed =>
    simpa [headerRun, hd] using failDecode_engine _ e
      { s with inStream := (takeData (headerLen - got.length) s.inStream).2.2 }

/-! ### One beat -/

theorem takeData_zero (beats : List InBeat) : takeData 0 beats = ([], .filled, beats) := by
  cases beats <;> rfl

/-- A byte of the word is as good as digested before the move (42_filter_engine R190, R200). -/
theorem wordRun_data {b : InBeat} {d : Byte} (hb : b.beat = .data d) (op : WordOp) (h : Word) (n : Nat) (r : List InBeat)
    (s : State) :
    wordRun op h n { s with inStream := b :: r } = wordRun op (digestByte h d) (n + 1) { s with inStream := r } := by
  simp [wordRun, takeWord, hb]

/-- A byte drained is as good as drained before the move (42_filter_engine R173). -/
theorem drainRun_data {b : InBeat} {d : Byte} (hb : b.beat = .data d) (op : Instr) (fin : Finish) (n : Nat)
    (r : List InBeat) (s : State) :
    drainRun op fin n { s with inStream := b :: r } = drainRun op fin (n + 1) { s with inStream := r } := by
  simp [drainRun, drainBeats, hb]

/-- A byte of the body is as good as read before the move (43_codec R234). -/
theorem bodyRun_data {b : InBeat} {d : Byte} (hb : b.beat = .data d) {m : Word} {got : List Byte}
    (hgot : got.length < byteLen m) (k : Byte) (r : List InBeat) (s : State) :
    bodyRun k m got { s with inStream := b :: r } = bodyRun k m (got ++ [d]) { s with inStream := r } := by
  have hn : byteLen m - got.length ≠ 0 := by omega
  simp [bodyRun, takeData, hb, hn, Nat.sub_add_eq]

/-- A byte of the header is as good as read before the move (43_codec R231). -/
theorem headerRun_data {b : InBeat} {d : Byte} (hb : b.beat = .data d) {got : List Byte}
    (hgot : got.length < headerLen) (r : List InBeat) (s : State) :
    headerRun got { s with inStream := b :: r } = headerRun (got ++ [d]) { s with inStream := r } := by
  have hn : headerLen - got.length ≠ 0 := by omega
  simp [headerRun, takeData, hb, hn, Nat.sub_add_eq]

section ReadsOn
variable (s : State)

theorem drainRun_readsOn (op : Instr) (fin : Finish) (n : Nat) :
    ReadsOn s n fun r => drainRun op fin n { s with inStream := r } :=
  ⟨.drain op fin n, trivial, rfl, fun r => (drainRun_engine op fin n _ { s with inStream := r }).symm⟩

theorem wordRun_readsOn (op : WordOp) (h : Word) (n : Nat) :
    ReadsOn s n fun r => wordRun op h n { s with inStream := r } :=
  ⟨.word op h n, trivial, rfl, fun r => (wordRun_engine op h n _ { s with inStream := r }).symm⟩

/-- A body that is not whole yet is read on; after a whole one the rest of the packet is drained (43_codec R234, R235). -/
theorem bodyRun_readsOn (k : Byte) {m : Word} {got : List Byte} (hgot : got.length ≤ byteLen m) :
    ReadsOn s (headerLen + got.length) fun r => bodyRun k m got { s with inStream := r } := by
  rcases hgot.lt_or_eq with hlt | heq
  · exact ⟨.body k m got, hlt, rfl, fun r => (bodyRun_engine k m got _ { s with inStream := r }).symm⟩
  · refine heq ▸ (drainRun_readsOn s .decode (.load k m got) _).of_eq fun r => ?_
    simp [bodyRun, heq, takeData_zero]

/-- A whole header leads to the body, or to the drain of a packet that failed a check (43_codec R232, R233). -/
theorem validateHeader_readsOn (hdr : List Byte) :
    ReadsOn s headerLen fun r => validateHeader hdr { s with inStream := r } := by
  by_cases hmagic : hdr.take 4 = s.params.magic.bytes
  · by_cases hversion : headerVersion hdr = version
    · by_cases hcap : s.params.maxBufBytes < byteLen (headerM hdr)
      · simpa [validateHeader, hmagic, hversion, hcap] using drainRun_readsOn s .decode (.fail errCapacity) headerLen
      · simpa [validateHeader, hmagic, hversion, hcap] using
          bodyRun_readsOn s (headerK hdr) (got := []) (Nat.zero_le _)
    · simpa [validateHeader, hmagic, hversion] using drainRun_readsOn s .decode (.fail errBadVersion) headerLen
  · simpa [validateHeader, hmagic] using drainRun_readsOn s .decode (.fail errBadMagic) headerLen

theorem headerRun_readsOn {got : List Byte} (hgot : got.length ≤ headerLen) :
    ReadsOn s got.length fun r => headerRun got { s with inStream := r } := by
  rcases hgot.lt_or_eq with hlt | heq
  · exact ⟨.header got, hlt, rfl, fun r => (headerRun_engine got _ { s with inStream := r }).symm⟩
  · refine heq ▸ (validateHeader_readsOn s got).of_eq fun r => ?_
    simp [headerRun, heq, takeData_zero]

end ReadsOn

/-- With no beat left the command waits as it is (70_reset_and_hazards R296). -/
theorem resume_waits {e : Engine} (he : AwaitsBeat e) (s : State) :
    resume { s with engine := e, inStream := [] } = { s with engine := e, inStream := [] } := by
  cases e with
  | idle | accepted | rounds | sending => cases he
  | word | drain => rfl
  | header got =>
    have hn : headerLen - got.length ≠ 0 := Nat.sub_ne_zero_of_lt he
    simp [resume, headerRun, takeData, hn]
  | body k m got =>
    have hn : byteLen m - got.length ≠ 0 := Nat.sub_ne_zero_of_lt he
    simp [resume, bodyRun, takeData, hn]

/-- A DATA beat is one byte taken, and the command waits for the next beat. -/
theorem resume_data {b : InBeat} {d : Byte} (hb : b.beat = .data d) {e : Engine} (he : AwaitsBeat e) (s : State) :
    ReadsOn s (e.taken + 1) fun r => resume { s with engine := e, inStream := b :: r } := by
  cases e with
  | idle | accepted | rounds | sending => cases he
  | word op h n =>
    exact (wordRun_readsOn s op (digestByte h d) (n + 1)).of_eq fun r =>
      (wordRun_engine ..).trans (wordRun_data hb op h n r s)
  | drain op fin n =>
    exact (drainRun_readsOn s op fin (n + 1)).of_eq fun r =>
      (drainRun_engine ..).trans (drainRun_data hb op fin n r s)
  | header got =>
    have hgot : got.length < headerLen := he
    have reads : ReadsOn s (got ++ [d]).length _ := headerRun_readsOn s (by simpa using hgot)
    rw [List.length_append] at reads
    exact reads.of_eq fun r => (headerRun_engine ..).trans (headerRun_data hb hgot r s)
  | body k m got =>
    have hgot : got.length < byteLen m := he
    have reads : ReadsOn s (headerLen + (got ++ [d]).length) _ := bodyRun_readsOn s k (by simpa using hgot)
    rw [List.length_append] at reads
    exact reads.of_eq fun r => (bodyRun_engine ..).trans (bodyRun_data hb hgot k r s)

/-! ### The terminator -/

section EndsWith
variable (e : Engine) (r : List InBeat) (s : State)

/-- The rounds of INSERT and QUERY end the command and use no stream (42_filter_engine R190, R200). -/
theorem roundsRun_ends (op : WordOp) (h : Word) (i : Nat) :
    EndsWith s r (roundsRun op h i { s with engine := e, inStream := r }) := by
  unfold roundsRun
  split
  · exact ⟨rfl, rfl, .refl s⟩
  · cases op with
    | insert =>
      dsimp only [insertRounds]
      split <;> exact ⟨rfl, rfl, .refl s⟩
    | query =>
      dsimp only [queryRounds]
      split <;> exact ⟨rfl, rfl, .refl s⟩

theorem raiseError_ends (code : Byte) : EndsWith s r (raiseError code { s with engine := e, inStream := r }) :=
  ⟨rfl, rfl, .refl s⟩

theorem failDecode_ends (code : Byte) : EndsWith s r (failDecode code { s with engine := e, inStream := r }) :=
  ⟨rfl, rfl, .refl s⟩

theorem finishPacket_ends (fin : Finish) : EndsWith s r (finishPacket fin { s with engine := e, inStream := r }) := by
  cases fin <;> exact ⟨rfl, rfl, .refl s⟩

end EndsWith

/-- A terminator, END or ERR, ends the command, which has then taken its packet and no more (20_memory R72). -/
theorem resume_terminator {b : InBeat} (hb : b.beat = .endOfPacket ∨ b.beat = .err) {e : Engine} (he : AwaitsBeat e)
    (r : List InBeat) (s : State) : EndsWith s r (resume { s with engine := e, inStream := b :: r }) := by
  cases e with
  | idle | accepted | rounds | sending => cases he
  | word op h n =>
    rcases hb with hb | hb
    · simpa [resume, wordRun, takeWord, hb] using roundsRun_ends (.rounds op h 0) r s op h 0
    · simpa [resume, wordRun, takeWord, hb] using raiseError_ends (.word op h n) r s errIo
  | drain op fin n =>
    have ends := finishPacket_ends (.drain op fin n) r s fin
    rcases hb with hb | hb <;> simpa [resume, drainRun, drainBeats, hb] using ends
  | header got =>
    have hn : headerLen - got.length ≠ 0 := Nat.sub_ne_zero_of_lt he
    rcases hb with hb | hb
    · simpa [resume, headerRun, takeData, hn, hb] using failDecode_ends (.header got) r s errTruncHeader
    · simpa [resume, headerRun, takeData, hn, hb] using failDecode_ends (.header got) r s errIo
  | body k m got =>
    have hn : byteLen m - got.length ≠ 0 := Nat.sub_ne_zero_of_lt he
    rcases hb with hb | hb
    · simpa [resume, bodyRun, takeData, hn, hb] using failDecode_ends (.body k m got) r s errTruncBody
    · simpa [resume, bodyRun, takeData, hn, hb] using failDecode_ends (.body k m got) r s errIo

/-! ### Whole streams -/

namespace ReadsOn
variable {s : State} {n : Nat} {move : List InBeat → State}

/-- DATA beats at the front of the stream are so many bytes taken. -/
theorem data {beats : List InBeat} {bytes : List Byte} (hopen : OffersOpen beats bytes) (h : ReadsOn s n move) :
    ReadsOn s (n + bytes.length) fun r => move (beats ++ r) := by
  unfold OffersOpen at hopen
  induction beats generalizing bytes n move with
  | nil =>
    cases beat_data_nil hopen
    exact h
  | cons b beats ih =>
    obtain ⟨d, bytes, rfl, hb, hrest⟩ := beat_data_cons hopen
    obtain ⟨e, he, rfl, hmove⟩ := h
    have reads := ih hrest ((resume_data hb he s).of_eq fun r => hmove (b :: r))
    rwa [Nat.add_assoc, Nat.add_comm 1] at reads

/-- With only DATA beats on the stream the command takes them all and waits (20_memory R73). -/
theorem waits (h : ReadsOn s n move) :
    ∃ e, AwaitsBeat e ∧ e.taken = n ∧ move [] = { s with engine := e, inStream := [] } ∧
      ∀ r, move r = resume { s with engine := e, inStream := r } := by
  obtain ⟨e, he, hn, hmove⟩ := h
  exact ⟨e, he, hn, (hmove []).trans (resume_waits he s), hmove⟩

/-- With a packet on the stream the command takes exactly that packet (20_memory R72). -/
theorem packet {beats rest : List InBeat} {bytes : List Byte} {term : Beat} (hp : OffersPacket beats bytes term rest)
    (h : ReadsOn s n move) : EndsWith s rest (move beats) := by
  obtain ⟨ds, b, rfl, hds, rfl, hb⟩ := hp
  obtain ⟨e, he, -, hmove⟩ := h.data hds
  rw [show move (ds ++ b :: rest) = _ from hmove (b :: rest)]
  exact resume_terminator hb he rest s

/-- Whatever is on the stream, no beat is delivered and no answer used (20_memory R72). -/
theorem sameOutput (h : ReadsOn s n move) (beats : List InBeat) : SameOutput s (move beats) := by
  induction beats generalizing n move with
  | nil =>
    obtain ⟨e, -, -, hwait, -⟩ := h.waits
    exact hwait ▸ .refl s
  | cons b beats ih =>
    obtain ⟨e, he, -, hmove⟩ := h
    cases hb : b.beat with
    | data d => exact hmove (b :: beats) ▸ ih (resume_data hb he s)
    | endOfPacket => exact hmove (b :: beats) ▸ (resume_terminator (.inl hb) he beats s).output
    | err => exact hmove (b :: beats) ▸ (resume_terminator (.inr hb) he beats s).output

end ReadsOn

/-! ### The commands that read a packet -/

theorem readsPacket_iff (i : Instr) : readsPacket i = true ↔ i = .insert ∨ i = .query ∨ i = .decode := by
  cases i <;> decide

/-- Whether the pre-checks refuse it or not, an accepted command that reads a packet waits for its first beat
(42_filter_engine R172). -/
theorem accept_readsOn {i : Instr} (hi : readsPacket i = true) (s : State) :
    ReadsOn s 0 fun r => resume (accept (.instr i) { s with inStream := r }) := by
  have checked {work : State → State} (hwork : ∀ u e, work { u with engine := e } = work u)
      (reads : ReadsOn s 0 fun r => work { s with inStream := r }) :
      ReadsOn s 0 fun r => withChecks i work (accept (.instr i) { s with inStream := r }) := by
    cases hr : refusal i s with
    | none =>
      refine reads.of_eq fun r => ?_
      rw [withChecks_pass (by exact hr)]
      exact hwork ..
    | some code =>
      refine (drainRun_readsOn s i (.refuse code) 0).of_eq fun r => ?_
      rw [withChecks_refuse_drain (by exact hr) hi]
      exact drainRun_engine ..
  cases i with
  | create | encode => cases hi
  | insert => exact checked (fun u e => wordRun_engine .insert fnvOffset 0 e u) (wordRun_readsOn ..)
  | query => exact checked (fun u e => wordRun_engine .query fnvOffset 0 e u) (wordRun_readsOn ..)
  | decode => exact checked (fun u e => headerRun_engine [] e u) (headerRun_readsOn s (got := []) (Nat.zero_le _))

theorem exec_readsOn {i : Instr} (hi : readsPacket i = true) {s : State} (hs : s.engine = .idle) :
    ∃ move, ReadsOn s 0 move ∧ ∀ r, exec i { s with inStream := r } = .next (move r) :=
  ⟨_, accept_readsOn hi s, fun r => exec_idle (s := { s with inStream := r }) hs i⟩

/-! ### CREATE and ENCODE -/

/-- A busy block ignores the command; an idle one runs it (10_state R22). -/
theorem exec_cases {i : Instr} {s t : State} (h : exec i s = .next t) :
    t = s ∨ (s.engine = .idle ∧ t = commandRun (.instr i) (accept (.instr i) s)) := by
  cases hb : s.busy with
  | true =>
    rw [exec_eq, onAccept_busy hb] at h
    cases h
    exact .inl rfl
  | false =>
    have hs := (busy_eq_false_iff s).1 hb
    rw [exec_eq, onAccept_idle hs] at h
    cases h
    exact .inr ⟨hs, rfl⟩

/-- A command that reads no packet is refused at once or does its own work (42_filter_engine R172). -/
theorem withChecks_cases {i : Instr} (hi : readsPacket i = false) (work : State → State) (s : State) :
    (∃ code, withChecks i work s = raiseError code s) ∨ withChecks i work s = work s := by
  cases hr : refusal i s with
  | none => exact .inr (withChecks_pass hr work)
  | some code => exact .inl ⟨code, withChecks_refuse hr hi work⟩

theorem createRun_streams (s : State) : (createRun s).inStream = s.inStream ∧ SameOutput s (createRun s) := by
  rcases withChecks_cases (i := .create) rfl createWork s with ⟨code, h⟩ | h
  · rw [createRun, h]
    exact ⟨rfl, .refl s⟩
  · rw [createRun, h, createWork]
    split
    · exact ⟨rfl, .refl s⟩
    · split <;> exact ⟨rfl, .refl s⟩

theorem encodeRun_inStream (s : State) : (encodeRun s).inStream = s.inStream := by
  rcases withChecks_cases (i := .encode) rfl (sendRun 0) s with ⟨code, h⟩ | h
  · rw [encodeRun, h]
    rfl
  · rw [encodeRun, h, sendRun]
    dsimp only
    split <;> rfl

/-- ENCODE waits with the beat at `j'`: every answer is used, and the beats before that one are delivered (20_memory R75). -/
theorem sendRun_waiting {s : State} {j j' : Nat} {beats : List OutBeat}
    (h : sendBeats (storedByte s) (storedLen s) j s.answers = (beats, .waiting j', [])) :
    sendRun j s = { s with answers := [], outLog := s.outLog ++ beats, engine := .sending j' } := by
  simp only [sendRun, h]

/-- What ENCODE does when the offering of its beats stops (43_codec R220, R223). -/
def stopSending (stop : SendStop) (s : State) : State :=
  match stop with
  | .sent => complete false s
  | .failed => raiseError errIo s
  | .waiting j => { s with engine := .sending j }

/-- The beats are a view of K, M, BUF and MAGIC, whatever the output side and the hidden state are. -/
theorem sendRun_eq (j : Nat) (out : List OutBeat) (as : List Response) (e : Engine) (s : State) :
    sendRun j { s with outLog := out, answers := as, engine := e } =
      stopSending (sendBeats (storedByte s) (storedLen s) j as).2.1 { s with
        outLog := out ++ (sendBeats (storedByte s) (storedLen s) j as).1
        answers := (sendBeats (storedByte s) (storedLen s) j as).2.2 } := by
  change stopSending (sendBeats (storedByte s) (storedLen s) j as).2.1 _ = _
  cases (sendBeats (storedByte s) (storedLen s) j as).2.1 <;> rfl

/-- Answers that come while a beat waits lead to the state ENCODE reaches with them all there before (20_memory R75). -/
theorem sendRun_late {s : State} {j : Nat} (hb : (sendRun j s).busy = true) (more : List Response) :
    (sendRun j s).answers = [] ∧
      resume { sendRun j s with answers := more } = sendRun j { s with answers := s.answers ++ more } := by
  rcases hsend : sendBeats (storedByte s) (storedLen s) j s.answers with ⟨beats, stop, left⟩
  cases stop with
  | sent | failed => simp [sendRun, hsend] at hb
  | waiting j' =>
    have happend := sendBeats_append (congrArg (·.2.1) hsend) more
    rw [hsend] at happend
    obtain ⟨rfl, hall⟩ := happend
    rw [sendRun_waiting hsend]
    refine ⟨rfl, (sendRun_eq j' (s.outLog ++ beats) more _ s).trans (.trans ?_ (sendRun_eq j _ _ s.engine s).symm)⟩
    rw [hall, List.append_assoc]

/-- A refused ENCODE does not wait, and one that passes its checks waits with its beats (42_filter_engine R172). -/
theorem encodeRun_late {s : State} (hb : (encodeRun s).busy = true) (more : List Response) :
    (encodeRun s).answers = [] ∧
      resume { encodeRun s with answers := more } = encodeRun { s with answers := s.answers ++ more } := by
  cases hr : refusal .encode s with
  | some code =>
    rw [encodeRun, withChecks_refuse hr rfl] at hb
    cases hb
  | none =>
    have hpass : encodeRun s = sendRun 0 s := withChecks_pass hr _
    have hpass' : encodeRun { s with answers := s.answers ++ more } = sendRun 0 { s with answers := s.answers ++ more } :=
      withChecks_pass (by exact hr) _
    rw [hpass']
    rw [hpass] at hb ⊢
    exact sendRun_late hb more

theorem storedBeats_getElem? {s : State} {n : Nat} (hn : n < storedLen s) :
    (storedBeats s)[n]? = some { data := storedByte s n, last := decide (n + 1 = storedLen s) } := by
  simp [storedBeats, List.getElem?_range hn]

theorem storedBeats_take {s : State} {n : Nat} (hn : n ≤ storedLen s) :
    (storedBeats s).take n = beatsFrom (storedByte s) (storedLen s) 0 n := by
  simp [storedBeats, beatsFrom, ← List.map_take, List.take_range, hn]

/-! ### The obligations -/

/-- Settles O46: the answers are used by as many beats, and the next one is offered. -/
theorem encodeWaitsForAnswers : Obligations.EncodeWaitsForAnswers := by
  unfold Obligations.EncodeWaitsForAnswers
  intro s n hs hn has
  have hlen : n < storedLen s := hn
  have hsend : sendBeats (storedByte s) (storedLen s) 0 s.answers = ((storedBeats s).take n, .waiting n, []) := by
    rw [has, sendBeats_waiting _ (by rwa [Nat.zero_add]), storedBeats_take hlen.le, Nat.zero_add]
  have hpass : encodeRun (accept (.instr .encode) s) = sendRun 0 (accept (.instr .encode) s) :=
    withChecks_pass ((refusal_accept ..).trans (refusal_usable hs .encode)) _
  refine ⟨_, (exec_idle hs.idle _).trans (congrArg _ (hpass.trans (sendRun_waiting hsend))), rfl, rfl,
    (storedBeats_getElem? hlen).symm, ?_⟩
  change some (encodeState n s.bufLen) = _
  rw [encodeState, headerLen, if_pos hn]

/-- Settles O55: each beat of a packet is one move, and only its terminator ends the command. -/
theorem exactlyOnePacket : Obligations.ExactlyOnePacket := by
  unfold Obligations.ExactlyOnePacket
  refine ⟨?_, ?_, ?_, ?_⟩
  · intro i s bytes term rest hi hs hp
    obtain ⟨move, reads, hexec⟩ := exec_readsOn ((readsPacket_iff i).2 hi) hs
    obtain ⟨idle, stream, -⟩ := reads.packet hp
    exact ⟨_, hexec s.inStream, stream, (busy_eq_false_iff _).2 idle, by simp [State.inPacket, idle, Engine.taken]⟩
  · intro i s bytes hi hs hopen
    obtain ⟨move, reads, hexec⟩ := exec_readsOn ((readsPacket_iff i).2 hi) hs
    obtain ⟨e, he, hn, hwait, -⟩ := (reads.data hopen).waits
    rw [List.append_nil] at hwait
    refine ⟨_, hexec s.inStream, ?_⟩
    rw [hwait]
    exact ⟨rfl, (busy_eq_true_iff _).2 he.ne_idle, by simp [State.inPacket, hn, List.length_pos_iff]⟩
  · intro i s t hi h
    rcases exec_cases h with rfl | ⟨-, rfl⟩
    · rfl
    · rcases hi with rfl | rfl
      · exact (createRun_streams _).1
      · exact encodeRun_inStream _
  · intro i s t hi h
    rcases exec_cases h with rfl | ⟨hs, rfl⟩
    · exact SameOutput.refl _
    · cases hp : readsPacket i with
      | true => exact (accept_readsOn hp s).sameOutput s.inStream
      | false =>
        cases i with
        | create => exact (createRun_streams _).2
        | encode => exact absurd rfl hi
        | insert | query | decode => cases hp

/-- Settles O56: the state a command waits in holds all that the beats or answers before it decide. -/
theorem lateBeatsSameResult : Obligations.LateBeatsSameResult := by
  unfold Obligations.LateBeatsSameResult
  refine ⟨?_, ?_⟩
  · intro i s t u early more hi hs hopen ht hu
    obtain ⟨move, reads, hexec⟩ := exec_readsOn ((readsPacket_iff i).2 hi) hs
    obtain ⟨e, -, -, hwait, hlate⟩ := (reads.data hopen).waits
    rw [List.append_nil] at hwait
    cases (hexec s.inStream).symm.trans ht
    cases (hexec (s.inStream ++ more)).symm.trans hu
    rw [hwait, hlate]
  · intro s t u more hs ht hb hu
    rw [exec_idle hs] at ht
    rw [exec_idle (by exact hs)] at hu
    cases ht
    cases hu
    exact encodeRun_late hb more

end Sys2Proof.Proofs.Streams
end

section
/-! Encodings (30_encoding): the opcode map read both ways (O15 to O17), an illegal word (O6), where STATUS's fields stand (O14),
the read column of the register map (O13) and the header's bitCount field (O24). -/
namespace Sys2Proof.Proofs.Encoding
open Sys2Proof Sys2Proof.Machine Sys2Proof.Proofs.Moves Sys2Proof.Proofs.RegisterFile

/-! ### The opcode map -/

/-- The two fields of a command word are all of it (R93). -/
theorem zeroField_append_opField (w : Word) : zeroField w ++ opField w = w :=
  BitVec.extractLsb'_append_extractLsb'

theorem opcodeOf_eq_some_iff (op : BitVec 4) (i : Instr) : opcodeOf op = some i ↔ op = opcode i := by
  constructor
  · unfold opcodeOf
    split
    all_goals
      intro h
      cases h
    all_goals exact BitVec.eq_of_toNat_eq ‹_›
  · rintro rfl
    cases i <;> rfl

/-- The decoder looks at both fields, and at nothing else. -/
theorem decode_eq_ok_iff (w : Word) (i : Instr) : decode w = .ok i ↔ zeroField w = 0#60 ∧ opField w = opcode i := by
  rw [← opcodeOf_eq_some_iff]
  by_cases hz : zeroField w = 0#60
  · cases ho : opcodeOf (opField w) <;> simp [decode, upperZero, hz, ho]
  · simp [decode, upperZero, hz]

theorem decode_eq_ok_iff_eq_encode (w : Word) (i : Instr) : decode w = .ok i ↔ w = encode i := by
  constructor
  · intro h
    obtain ⟨hz, ho⟩ := (decode_eq_ok_iff w i).1 h
    rw [← zeroField_append_opField w, hz, ho, encode]
  · rintro rfl
    exact decode_encode i

/-- Settles O16: a word decodes to a command exactly when it is the command's encoding. -/
theorem decodeAndEncodeAgree : Obligations.DecodeAndEncodeAgree := by
  unfold Obligations.DecodeAndEncodeAgree
  exact ⟨decode_encode, fun w i h => ((decode_eq_ok_iff_eq_encode w i).1 h).symm⟩

/-- Settles O15: the encodings are the five words of R94. -/
theorem decodeExactlyTheOpcodeMap : Obligations.DecodeExactlyTheOpcodeMap := by
  unfold Obligations.DecodeExactlyTheOpcodeMap
  intro w i
  rw [decode_eq_ok_iff_eq_encode]
  cases i <;> rfl

/-- Settles O17: the decoder computes. -/
theorem decodeSanityWords : Obligations.DecodeSanityWords := by
  unfold Obligations.DecodeSanityWords
  exact ⟨rfl, rfl, rfl, rfl, rfl, rfl⟩

/-! ### Illegal words -/

/-- Every command's OP is 0x1 to 0x5 (R94). -/
theorem opcode_bounds (i : Instr) : 1 ≤ (opcode i).toNat ∧ (opcode i).toNat ≤ 5 := by
  cases i <;> decide

/-- A reserved OP, or a bit above the OP, is no command (R95). -/
theorem decode_illegal {w : Word} (h : (opField w = 0#4 ∨ 6 ≤ (opField w).toNat) ∨ zeroField w ≠ 0#60) :
    ∃ r, decode w = .error r := by
  cases hw : decode w with
  | error r => exact ⟨r, rfl⟩
  | ok i =>
    obtain ⟨hz, ho⟩ := (decode_eq_ok_iff w i).1 hw
    have hop := opcode_bounds i
    rw [← ho] at hop
    rcases h with (h0 | h6) | hne
    · simp [h0] at hop
    · omega
    · exact absurd hz hne

/-- The engine's move from an accepted ILLEGAL reports it and ends the command (42_filter_engine R176). -/
theorem resume_illegal {s : State} (h : s.engine = .accepted .illegal) : resume s = raiseError errIllegal s := by
  simp [resume, h, commandRun, illegalRun]

/-- Settles O6: the word is no command, and ILLEGAL runs before any check of the block's state. -/
theorem illegalWordReportsOnly : Obligations.IllegalWordReportsOnly := by
  unfold Obligations.IllegalWordReportsOnly
  refine ⟨fun s w rest hidle hw => ?_, fun s h => ⟨(busy_eq_true_iff s).2 (by simp [h]), resume_illegal h⟩⟩
  obtain ⟨r, hr⟩ := decode_illegal hw
  have hb := (busy_eq_false_iff s).2 hidle
  refine ⟨fun h => ?_, fun h => step_cmd_illegal hb h hr⟩
  calc step s = execIllegal { s with host := rest } := step_cmd_illegal hb h hr
    _ = .next (raiseError errIllegal { s with host := rest }) :=
      (execIllegal_idle (by exact hidle)).trans (congrArg _ (resume_illegal rfl))
    _ = .next { s with host := rest, err := 0x13#8, result := false } := by simp [raiseError, errIllegal, hidle]

/-! ### STATUS and the read column -/

/-- Settles O14: STATUS is its fields one after another. -/
theorem statusFields : Obligations.StatusFields := by
  unfold Obligations.StatusFields
  intro s
  refine ⟨?_, ?_, ?_, ?_, ?_, ?_, ?_, ?_, ?_⟩
  case refine_1 | refine_2 | refine_3 | refine_4 =>
    simp only [State.status, BitVec.getLsbD_append]
    simp
  all_goals
    simp (disch := decide) only [State.status, BitVec.extractLsb'_append_eq_of_le, BitVec.extractLsb'_append_eq_right,
      BitVec.extractLsb'_eq_self, Nat.reduceSub]

/-- While BUSY = 0 every register is stable (10_state R35). -/
theorem hostRead_idle {s : State} (hb : s.busy = false) (idx : BitVec 4) :
    hostRead idx s = { s with readLog := s.readLog ++ [readReg s idx] } := by
  simp [hostRead, hb]

theorem readReg_eq_ite (s : State) (idx : BitVec 4) :
    readReg s idx =
      if idx = 1#4 then s.status else if idx = 2#4 then s.argN else if idx = 3#4 then s.argP
      else if idx = 4#4 then s.k.setWidth 64 else if idx = 5#4 then s.m else if idx = 6#4 then s.m >>> 3
      else if idx = 7#4 then s.insertedCount else if idx = 8#4 then s.faultInfo else 0#64 := by
  have eq_iff (c : BitVec 4) : idx = c ↔ idx.toNat = c.toNat := BitVec.toNat_eq
  simp only [readReg, eq_iff]
  split
  case h_9 => simp_all
  all_goals simp [*]

/-- Settles O13: a read of an idle block is one of the register map; STATUS is stable in every state. -/
theorem readMapWhenIdle : Obligations.ReadMapWhenIdle := by
  unfold Obligations.ReadMapWhenIdle
  refine ⟨fun s idx data o rest hb h => ?_, fun s data o rest h => ⟨?_, (statusFields s).1⟩⟩
  · rw [step_read h, hostRead_idle (by exact hb), settle_idle (by exact (busy_eq_false_iff s).1 hb), readReg_eq_ite]
    rfl
  · rw [step_read h, hostRead_stable rfl]
    rfl

/-! ### The header's bitCount field -/

/-- The first `n` bytes of M, most significant first, read as a number are M's upper 8n bits. -/
theorem beNat_upper_bytes (m : Word) {n : Nat} (hn : n ≤ 8) :
    beNat ((List.range n).map fun j => m.extractLsb' (56 - 8 * j) 8) = m.toNat / 2 ^ (64 - 8 * n) := by
  induction n with
  | zero => exact (Nat.div_eq_of_lt m.isLt).symm
  | succ n ih =>
    have hexp : 64 - 8 * n = (64 - 8 * (n + 1)) + 8 := by omega
    have hlow : 56 - 8 * n = 64 - 8 * (n + 1) := by omega
    have ih := ih (by omega)
    rw [beNat] at ih ⊢
    rw [List.range_succ, List.map_append, List.foldl_append, ih, hexp, pow_add, ← Nat.div_div_eq_div_mul]
    simp only [List.map_cons, List.map_nil, List.foldl_cons, List.foldl_nil, BitVec.extractLsb'_toNat,
      Nat.shiftRight_eq_div_pow, hlow]
    omega

/-- Settles O24: all eight bytes hold all of M. -/
theorem headerBitCountRoundTrip : Obligations.HeaderBitCountRoundTrip := by
  unfold Obligations.HeaderBitCountRoundTrip
  intro m
  refine ⟨?_, fun j hj => ?_⟩
  · exact (beNat_upper_bytes m le_rfl).trans (Nat.div_one _)
  · simp [be64Bytes, hj]

end Sys2Proof.Proofs.Encoding
end

section
/-! Host scripts (30_encoding R110): a command that reads a packet, run from the CMD write and the beats one by one, reaches the
state of the one command with its packet waiting (O57). The engine does not look at what the host is still to do
(`keepsHost_resume`), so each DATA beat is one step to the next hidden state that waits (`run_dataBeats`). -/
namespace Sys2Proof.Proofs.Scripts
open Sys2Proof Sys2Proof.Machine Sys2Proof.Proofs.Moves Sys2Proof.Proofs.RegisterFile Sys2Proof.Proofs.Streams

/-! ### The engine and the host's coming interactions -/

/-- `f` neither reads nor changes what the host is still to do. -/
def KeepsHost (f : State → State) : Prop :=
  ∀ (s : State) (rest : List HostEvent), f { s with host := rest } = { f s with host := rest }

@[simp] theorem bufLen_withHost (s : State) (rest : List HostEvent) : State.bufLen { s with host := rest } = s.bufLen := rfl

@[simp] theorem roundPositions_withHost (s : State) (rest : List HostEvent) :
    roundPositions { s with host := rest } = roundPositions s := rfl

@[simp] theorem storedByte_withHost (s : State) (rest : List HostEvent) :
    storedByte { s with host := rest } = storedByte s := rfl

@[simp] theorem storedLen_withHost (s : State) (rest : List HostEvent) :
    storedLen { s with host := rest } = storedLen s := rfl

@[simp] theorem refusal_withHost (i : Instr) (s : State) (rest : List HostEvent) :
    refusal i { s with host := rest } = refusal i s := rfl

theorem keepsHost_finishPacket (fin : Finish) : KeepsHost (finishPacket fin) := by
  intro s rest
  cases fin <;> rfl

theorem keepsHost_drainRun (op : Instr) (fin : Finish) (n : Nat) : KeepsHost (drainRun op fin n) := by
  intro s rest
  cases hd : drainBeats n s.inStream with
  | waiting => simp [drainRun, hd]
  | ended r => simpa [drainRun, hd] using keepsHost_finishPacket fin { s with inStream := r } rest

theorem keepsHost_withChecks {i : Instr} {work : State → State} (hwork : KeepsHost work) :
    KeepsHost (withChecks i work) := by
  intro s rest
  cases hr : refusal i s with
  | none => simpa [withChecks, hr] using hwork s rest
  | some code =>
    cases hp : readsPacket i with
    | true => simpa [withChecks, hr, hp] using keepsHost_drainRun i (.refuse code) 0 s rest
    | false => simp [withChecks, hr, hp, raiseError]

theorem keepsHost_createWork : KeepsHost createWork := by
  intro s rest
  dsimp only [createWork]
  split
  · rfl
  · split <;> rfl

theorem keepsHost_roundsRun (op : WordOp) (h : Word) (i : Nat) : KeepsHost (roundsRun op h i) := by
  intro s rest
  by_cases hz : s.k ≠ 0#8 ∧ s.m = 0#64
  · simp [roundsRun, hz, raiseFault]
  · cases op with
    | insert =>
      cases hset : setAll s.bufLen i (roundPositions s h i) s.buf <;>
        simp [roundsRun, hz, insertRounds, hset, complete, raiseFault]
    | query =>
      cases htest : testAll s.bufLen i (roundPositions s h i) s.buf <;>
        simp [roundsRun, hz, queryRounds, htest, complete, raiseFault]

theorem keepsHost_wordRun (op : WordOp) (h : Word) (n : Nat) : KeepsHost (wordRun op h n) := by
  intro s rest
  cases hw : takeWord h n s.inStream with
  | waiting => simp [wordRun, hw]
  | complete h' r =>
    simpa [wordRun, hw] using keepsHost_roundsRun op h' 0 { s with inStream := r, engine := .rounds op h' 0 } rest
  | failed => simp [wordRun, hw, raiseError]

theorem keepsHost_sendRun (j : Nat) : KeepsHost (sendRun j) := by
  intro s rest
  cases hsend : (sendBeats (storedByte s) (storedLen s) j s.answers).2.1 <;>
    simp [sendRun, hsend, complete, raiseError]

theorem keepsHost_bodyRun (k : Byte) (m : Word) (got : List Byte) : KeepsHost (bodyRun k m got) := by
  intro s rest
  dsimp only [bodyRun]
  split
  · exact keepsHost_drainRun _ _ _ { s with inStream := _ } rest
  · rfl
  · rfl
  · rfl

theorem keepsHost_validateHeader (hdr : List Byte) : KeepsHost (validateHeader hdr) := by
  intro s rest
  dsimp only [validateHeader]
  split
  · exact keepsHost_drainRun ..
  · split
    · exact keepsHost_drainRun ..
    · split
      · exact keepsHost_drainRun ..
      · exact keepsHost_bodyRun ..

theorem keepsHost_headerRun (got : List Byte) : KeepsHost (headerRun got) := by
  intro s rest
  dsimp only [headerRun]
  split
  · exact keepsHost_validateHeader _ { s with inStream := (takeData (headerLen - got.length) s.inStream).2.2 } rest
  · rfl
  · rfl
  · rfl

theorem keepsHost_commandRun (c : Command) : KeepsHost (commandRun c) := by
  cases c with
  | illegal => exact fun _ _ => rfl
  | instr i =>
    cases i with
    | create => exact keepsHost_withChecks keepsHost_createWork
    | insert => exact keepsHost_withChecks (keepsHost_wordRun .insert fnvOffset 0)
    | query => exact keepsHost_withChecks (keepsHost_wordRun .query fnvOffset 0)
    | encode => exact keepsHost_withChecks (keepsHost_sendRun 0)
    | decode => exact keepsHost_withChecks (keepsHost_headerRun [])

theorem keepsHost_resume : KeepsHost resume := by
  intro s rest
  dsimp only [resume]
  split
  · rfl
  · exact keepsHost_commandRun ..
  · exact keepsHost_wordRun ..
  · exact keepsHost_roundsRun ..
  · exact keepsHost_headerRun ..
  · exact keepsHost_bodyRun ..
  · exact keepsHost_drainRun ..
  · exact keepsHost_sendRun ..

/-- Two states that the engine's move does not tell apart stay so with other interactions to come. -/
theorem resume_eq_withHost {u v : State} (h : resume u = resume v) (rest : List HostEvent) :
    resume { u with host := rest } = resume { v with host := rest } := by
  rw [keepsHost_resume u, keepsHost_resume v, h]

/-! ### Runs -/

theorem run_succ {s t : State} (h : step s = .next t) (n : Nat) :
    Sys2Proof.core.run (n + 1) s = Sys2Proof.core.run n t := by
  have hcore : Sys2Proof.core.step s = .next t := h
  simp only [Host.Core.run, hcore]

theorem run_append {m : Nat} {s t : State} (h : Sys2Proof.core.run m s = .next t) (n : Nat) :
    Sys2Proof.core.run (m + n) s = Sys2Proof.core.run n t := by
  induction m generalizing s with
  | zero =>
    cases h
    rw [Nat.zero_add]
  | succ m ih =>
    obtain ⟨u, hu⟩ := step_next s
    rw [Nat.add_right_comm, run_succ hu]
    exact ih ((run_succ hu m).symm.trans h)

/-! ### Beats that come one by one -/

/-- The host offers these beats, and the engine moves after each. -/
def offerEvents (beats : List InBeat) : List HostEvent := beats.map fun b => plainEvent (.offer b)

theorem offersOpen_ofByte (bytes : List Byte) : OffersOpen (bytes.map InBeat.ofByte) bytes := by
  simp [OffersOpen, InBeat.ofByte, InBeat.beat]

theorem step_offer {s : State} {b : InBeat} {rest : List HostEvent} (h : s.host = plainEvent (.offer b) :: rest) :
    step s = .next (resume { s with host := rest, inStream := s.inStream ++ [b] }) := by
  simp only [step, h]
  rfl

/-- DATA beats offered one by one to a command that waits for them are taken one by one, and the command then waits in the
hidden state from which it goes on as if they had all been there (20_memory R73). -/
theorem run_dataBeats {beats : List InBeat} {bytes : List Byte} (hopen : OffersOpen beats bytes) {e : Engine}
    (he : AwaitsBeat e) (s : State) (rest : List HostEvent) :
    ∃ e', AwaitsBeat e' ∧
      Sys2Proof.core.run beats.length { s with engine := e, inStream := [], host := offerEvents beats ++ rest } =
        .next { s with engine := e', inStream := [], host := rest } ∧
      ∀ r, resume { s with engine := e, inStream := beats ++ r } = resume { s with engine := e', inStream := r } := by
  unfold OffersOpen at hopen
  induction beats generalizing bytes e with
  | nil => exact ⟨e, he, rfl, fun _ => rfl⟩
  | cons b beats ih =>
    obtain ⟨d, bytes, rfl, hb, hrest⟩ := beat_data_cons hopen
    obtain ⟨e₁, he₁, -, hmove⟩ := resume_data hb he s
    obtain ⟨e', he', hrun, hlate⟩ := ih hrest he₁
    refine ⟨e', he', ?_, fun r => (hmove (beats ++ r)).trans (hlate r)⟩
    have hstep : step { s with engine := e, inStream := [], host := offerEvents (b :: beats) ++ rest } =
        .next { s with engine := e₁, inStream := [], host := offerEvents beats ++ rest } :=
      (step_offer rfl).trans <| congrArg _ <|
        (resume_eq_withHost (hmove []) _).trans (resume_waits he₁ { s with host := offerEvents beats ++ rest })
    exact (run_succ hstep _).trans hrun

section Script
variable {i : Instr} {s : State} {rest : List HostEvent} (hi : readsPacket i = true) (hs : s.engine = .idle)
  (hin : s.inStream = [])
include hi hs hin

/-- A command written to CMD of an idle block, and then DATA beats of its packet: the command waits, in the hidden state from
which it goes on as if they had all been there before it. -/
theorem run_openCommand {beats : List InBeat} {bytes : List Byte} (hopen : OffersOpen beats bytes)
    (hhost : s.host = writeEvent 0#4 (encode i) :: (offerEvents beats ++ rest)) :
    ∃ e, AwaitsBeat e ∧
      Sys2Proof.core.run (beats.length + 1) s = .next { s with engine := e, inStream := [], host := rest } ∧
      ∀ r events, exec i { s with host := events, inStream := beats ++ r } =
        .next (resume { s with host := events, engine := e, inStream := r }) := by
  obtain ⟨e₀, he₀, -, haccept⟩ := accept_readsOn hi s
  obtain ⟨e, he, hrun, hlate⟩ := run_dataBeats hopen he₀ s rest
  refine ⟨e, he, ?_, fun r events => ?_⟩
  · have hwait := resume_waits he₀ { s with host := offerEvents beats ++ rest }
    have hstep : step s = .next { s with engine := e₀, inStream := [], host := offerEvents beats ++ rest } :=
      calc step s = exec i { s with host := offerEvents beats ++ rest } :=
            step_cmd_instr ((busy_eq_false_iff s).2 hs) hhost (decode_encode i)
        _ = .next (resume (accept (.instr i) { s with host := offerEvents beats ++ rest })) := exec_idle (by exact hs) i
        _ = .next { s with engine := e₀, inStream := [], host := offerEvents beats ++ rest } := by
            rw [← hin] at hwait ⊢
            exact congrArg _ ((resume_eq_withHost (haccept s.inStream) _).trans hwait)
    exact (run_succ hstep _).trans hrun
  · have hsame := (haccept (beats ++ r)).trans (hlate r)
    exact (exec_idle (by exact hs) i).trans (congrArg _ (resume_eq_withHost hsame events))

/-- A command, its whole packet and one read of STATUS: the run reaches the state of the command with its packet waiting, with
that STATUS read. The command has then ended. -/
theorem run_commandScript {bytes : List Byte} (hhost : s.host = expand [.cmd i, .sendEnd bytes, .wait] ++ rest) :
    ∃ t, exec i { s with host := rest, inStream := packetOf bytes } = .next t ∧ t.host = rest ∧ EndsWith s [] t ∧
      Sys2Proof.core.run (bytes.length + 3) s = .next { t with readLog := t.readLog ++ [t.status] } := by
  have hevents : s.host = writeEvent 0#4 (encode i) :: (offerEvents (bytes.map InBeat.ofByte) ++
      (plainEvent (.offer .finish) :: readEvent 1#4 :: rest)) := by
    simp [hhost, expand, expandOp, packetOf, offerEvents, regIndex]
  obtain ⟨e, he, hrun, hlate⟩ := run_openCommand hi hs hin (offersOpen_ofByte bytes) hevents
  have ends := resume_terminator (b := .finish) (.inl rfl) he [] s
  have hmove := keepsHost_resume { s with engine := e, inStream := [.finish] }
  generalize resume { s with engine := e, inStream := [.finish] } = t at hmove ends
  refine ⟨{ t with host := rest }, ?_, rfl, ⟨ends.idle, ends.stream, ends.output⟩, ?_⟩
  · exact (hlate [.finish] rest).trans (congrArg _ (hmove rest))
  · have hend : step { s with engine := e, inStream := [], host := plainEvent (.offer .finish) :: readEvent 1#4 :: rest } =
        .next { t with host := readEvent 1#4 :: rest } :=
      (step_offer rfl).trans (congrArg _ (hmove _))
    have hread : step { t with host := readEvent 1#4 :: rest } =
        .next { t with host := rest, readLog := t.readLog ++ [t.status] } := by
      rw [step_read rfl, hostRead_stable rfl, settle_idle (by exact ends.idle)]
      rfl
    rw [List.length_map] at hrun
    exact (run_append hrun 2).trans ((run_succ hend 1).trans (run_succ hread 0))

end Script

/-! ### The end of a run -/

/-- An idle block with nothing pending and no interaction to come has ended (70_reset_and_hazards R302). -/
theorem ended_of_idle {s : State} (idle : s.engine = .idle) (hhost : s.host = []) (hin : s.inStream = []) :
    s.ended = true := by
  simp [State.ended, State.offered, (busy_eq_false_iff s).2 idle, idle, hhost, hin]

theorem not_ended_of_busy {s : State} (hb : s.busy = true) : s.ended = false := by
  simp [State.ended, hb]

/-- What the outcome of an ended run holds (70_reset_and_hazards R302). -/
theorem outcome_of_ended {s : State} (h : s.ended = true) :
    ∃ r, s.outcome = some r ∧ r.registers[1]? = some s.status ∧ r.buf.length = s.bufLen ∧ r.output = s.outLog :=
  ⟨_, if_pos h, rfl, by simp, rfl⟩

/-- Settles O57: INSERT is a command that reads a packet; with its END the run reaches an idle block, and without it a hidden
state that waits for a beat. -/
theorem insertScriptRunsInsert : Obligations.InsertScriptRunsInsert := by
  unfold Obligations.InsertScriptRunsInsert
  refine ⟨?_, ?_, ?_⟩
  · intro s t bytes rest hs hin hhost ht
    obtain ⟨t', ht', -, -, hrun⟩ := run_commandScript (i := .insert) rfl hs hin hhost
    cases ht'.symm.trans ht
    exact hrun
  · intro s bytes hs hin hhost
    obtain ⟨t, -, hnil, ends, hrun⟩ := run_commandScript (i := .insert) (rest := []) rfl hs hin
      (hhost.trans (List.append_nil _).symm)
    have hended := ended_of_idle (s := { t with readLog := t.readLog ++ [t.status] }) ends.idle hnil ends.stream
    obtain ⟨r, houtcome, hstatus, hbuf, houtput⟩ := outcome_of_ended hended
    have hidle : State.busy { t with readLog := t.readLog ++ [t.status] } = false := (busy_eq_false_iff _).2 ends.idle
    exact ⟨_, hrun, hended, by simp [State.hung, hidle], r, houtcome, hstatus, hbuf, houtput.trans ends.output.1⟩
  · intro s bytes hs hin hhost
    obtain ⟨e, he, hrun, -⟩ := run_openCommand (i := .insert) (rest := []) rfl hs hin (offersOpen_ofByte bytes)
      (by simpa [offerEvents, Function.comp_def] using hhost)
    rw [List.length_map] at hrun
    have hwaits := resume_waits he { s with host := [] }
    have hbusy : State.busy { s with engine := e, inStream := [], host := [] } = true :=
      (busy_eq_true_iff _).2 he.ne_idle
    have hended := not_ended_of_busy hbusy
    exact ⟨_, hrun, by simp [State.hung, hbusy, hwaits], hended, by simp [State.outcome, hended], congrArg _ hwaits⟩

end Sys2Proof.Proofs.Scripts
end

section
/-! The hash chain (40_hash_chain): DIGEST's byte step (O18), NEXTSEED's byte order (O19) and CHAIN's rounds (O20). CHAIN is the
iteration of `nextDigest` from the word's digest (`chain_getElem?`), and NEXTSEED is the header's big-endian bytes reversed
(`nextSeed_reverse`), so that O24's round trip serves it. -/
namespace Sys2Proof.Proofs.HashChain
open Sys2Proof Sys2Proof.Machine Sys2Proof.Proofs.Encoding

/-! ### DIGEST -/

theorem digest_append (s t : List Byte) : digest (s ++ t) = t.foldl digestByte (digest s) :=
  List.foldl_append

/-- Settles O18: a last byte is one more step of the fold. -/
theorem digestMultipliesThenXors : Obligations.DigestMultipliesThenXors := by
  unfold Obligations.DigestMultipliesThenXors
  exact ⟨rfl, fun s b => digest_append s [b]⟩

/-! ### NEXTSEED -/

/-- The two byte orders of a 64-bit value (20_memory R64, R65) are each other's reverse. -/
theorem nextSeed_reverse (h : Word) : (nextSeed h).reverse = be64Bytes h := rfl

/-- Settles O19: read from the last to the first, the seed's bytes are the big-endian bytes of the digest. -/
theorem nextSeedIsLittleEndian : Obligations.NextSeedIsLittleEndian := by
  unfold Obligations.NextSeedIsLittleEndian
  intro h
  obtain ⟨value, -⟩ := headerBitCountRoundTrip h
  exact ⟨rfl, (congrArg beNat (nextSeed_reverse h)).trans value⟩

/-! ### CHAIN -/

theorem chainFrom_eq_iterate (h : Word) (n : Nat) : chainFrom h n = List.iterate nextDigest h n := by
  induction n generalizing h with
  | zero => rfl
  | succ n ih => exact congrArg (h :: ·) (ih (nextDigest h))

/-- The digest of round `i` is `nextDigest` applied `i` times to the word's digest. -/
theorem chain_getElem? (w : List Byte) {k : Byte} {i : Nat} (hi : i < k.toNat) :
    (chain w k)[i]? = some (nextDigest^[i] (digest w)) := by
  rw [chain, chainFrom_eq_iterate, List.getElem?_iterate _ _ _ _ hi]

/-- Settles O20: one more application of `nextDigest` is the digest of the seed of the round before. -/
theorem chainFollowsTheSeeds : Obligations.ChainFollowsTheSeeds := by
  unfold Obligations.ChainFollowsTheSeeds
  intro w k
  refine ⟨chainFrom_length (digest w) k.toNat, fun hk => ?_, fun i h hround hi => ?_⟩
  · have hpos : 0 < k.toNat := Nat.pos_of_ne_zero fun h0 => hk (BitVec.eq_of_toNat_eq h0)
    exact chain_getElem? w hpos
  · have hdigest : nextDigest^[i] (digest w) = h :=
      Option.some.inj ((chain_getElem? w (Nat.lt_of_succ_lt hi)).symm.trans hround)
    calc (chain w k)[i + 1]?
      _ = some (nextDigest^[i + 1] (digest w)) := chain_getElem? w hi
      _ = some (nextDigest h) := by rw [Function.iterate_succ_apply', hdigest]
      _ = some (digest (nextSeed h)) := rfl

end Sys2Proof.Proofs.HashChain
end

section
/-! The bit vector (41_bit_vector): what SETBIT does to the addressed byte and to every bit, and the range check (O22). A
position is its byte index and its bit offset (`word_eq_of_index_offset`), so a bit of BUF other than `p`'s stands in another
byte or at another offset of the same byte. -/
namespace Sys2Proof.Proofs.BitVector
open Sys2Proof Sys2Proof.Machine Sys2Proof.Proofs.Moves

/-! ### Positions -/

theorem bitOffset_eq_mod (p : Word) : bitOffset p = p.toNat % 8 := by
  rw [bitOffset, BitVec.toNat_and]
  exact Nat.and_two_pow_sub_one_eq_mod p.toNat 3

theorem bitOffset_lt (p : Word) : bitOffset p < 8 := by
  rw [bitOffset_eq_mod]
  exact Nat.mod_lt _ (by decide)

theorem word_eq_of_index_offset {p q : Word} (hindex : byteIndex q = byteIndex p) (hoffset : bitOffset q = bitOffset p) :
    q = p := by
  rw [byteIndex_eq_div, byteIndex_eq_div] at hindex
  rw [bitOffset_eq_mod, bitOffset_eq_mod] at hoffset
  exact BitVec.eq_of_toNat_eq (by omega)

/-! ### The byte SETBIT writes -/

theorem getLsbD_or_bit (v : Byte) {i : Nat} (hi : i < 8) (j : Nat) :
    (v ||| (1#8 <<< j)).getLsbD i = (v.getLsbD i || decide (i = j)) := by
  have hbit : (1#8 <<< j).getLsbD i = decide (i = j) := by
    rw [← BitVec.twoPow_eq, BitVec.getLsbD_twoPow]
    by_cases h : i = j
    · simp [h, h ▸ hi]
    · simp [h, Ne.symm h]
  rw [BitVec.getLsbD_or, hbit]

theorem read_setBit_same {l : Nat} {p : Word} {b b' : Memory} (hb : Memory.wf b = true) (h : setBit l p b = some b') :
    Memory.read (byteIndex p) b' = Memory.read (byteIndex p) b ||| (1#8 <<< bitOffset p) := by
  simp only [setBit, Option.ite_none_right_eq_some, Option.some.injEq] at h
  exact h.2 ▸ read_write_same _ _ hb

/-- SETBIT adds the bit of its position and no other. -/
theorem bitAt_setBit {l : Nat} {p : Word} {b b' : Memory} (hb : Memory.wf b = true) (h : setBit l p b = some b')
    (q : Word) : bitAt b' q = (bitAt b q || decide (q = p)) := by
  by_cases hindex : byteIndex q = byteIndex p
  · have hoffset : bitOffset q = bitOffset p ↔ q = p := ⟨word_eq_of_index_offset hindex, congrArg bitOffset⟩
    rw [bitAt, bitAt, hindex, read_setBit_same hb h, getLsbD_or_bit _ (bitOffset_lt q), decide_eq_decide.2 hoffset]
  · have hne : q ≠ p := fun e => hindex (congrArg byteIndex e)
    simp [bitAt, read_setBit_other hindex h, hne]

/-! ### Idempotence -/

/-- Writing back the byte that stands there changes nothing. -/
theorem write_read_same (a : Nat) {b : Memory} (hb : Memory.wf b = true) :
    Memory.write a (Memory.read a b) b = b := by
  refine Memory.ext_read (wf_write a _ hb) hb fun c => ?_
  by_cases hc : c = a
  · rw [hc, read_write_same a _ hb]
  · exact read_write_other hc _ b

theorem setBit_idempotent {l : Nat} {p : Word} {b b' : Memory} (hb : Memory.wf b = true) (h : setBit l p b = some b') :
    setBit l p b' = some b' := by
  have hrange : inRange l p = true := by
    by_contra hout
    simp [(setBit_eq_none l p b).2 (Bool.eq_false_iff.2 hout)] at h
  have hbyte : Memory.read (byteIndex p) b' ||| (1#8 <<< bitOffset p) = Memory.read (byteIndex p) b' := by
    rw [read_setBit_same hb h, BitVec.or_assoc, BitVec.or_self]
  rw [setBit_of_inRange hrange, hbyte, write_read_same _ (wf_setBit hb h)]

/-! ### The range check -/

theorem testBit_eq_none (l : Nat) (p : Word) (b : Memory) : testBit l p b = none ↔ inRange l p = false := by
  simp [testBit]

theorem inRange_eq_false_iff_le (l : Nat) (p : Word) : inRange l p = false ↔ l ≤ byteIndex p := by
  simp [inRange]

/-- Settles O22: a bit at another position is in another byte, which SETBIT leaves, or at another offset of the byte, which the
OR leaves; a second SETBIT writes the byte that stands there. -/
theorem setBitSetsOneBit : Obligations.SetBitSetsOneBit := by
  unfold Obligations.SetBitSetsOneBit
  refine ⟨fun l p b b' hb h => ?_, fun l p b => ?_, fun l p b hp => ?_⟩
  · exact ⟨wf_setBit hb h, bitAt_setBit hb h, setBit_idempotent hb h⟩
  · have hrange := inRange_eq_false_iff_le l p
    exact ⟨(setBit_eq_none l p b).trans hrange, (testBit_eq_none l p b).trans hrange⟩
  · exact testBit_of_inRange (decide_eq_true hp) b

end Sys2Proof.Proofs.BitVector
end

section
/-! INSERT and QUERY (42_filter_engine): what SETBITs of a word's positions do to BUF (`SetBits`, `bitAt_setAll`), and what the
two commands answer on a whole packet, on one that ERR ends and on an open one, each said once as a whole next state. -/
namespace Sys2Proof.Proofs.FilterEngine
open Sys2Proof Sys2Proof.Machine Sys2Proof.Proofs.Moves Sys2Proof.Proofs.Streams Sys2Proof.Proofs.BitVector

/-! ### BUF after some SETBITs -/

theorem inRange_of_setBit {l : Nat} {p : Word} {b c : Memory} (h : setBit l p b = some c) : inRange l p = true := by
  simp only [setBit, Option.ite_none_right_eq_some] at h
  exact h.1

/-- `c` is `b` after some SETBITs, each of a position of `ps` (41_bit_vector R152). -/
def SetBits (l : Nat) (ps : List Word) : Memory → Memory → Prop :=
  Relation.ReflTransGen fun b c => ∃ p ∈ ps, setBit l p b = some c

namespace SetBits
variable {l : Nat} {ps : List Word} {b c : Memory}

theorem refl (b : Memory) : SetBits l ps b b := Relation.ReflTransGen.refl

theorem cons (p : Word) (h : SetBits l ps b c) : SetBits l (p :: ps) b c :=
  Relation.ReflTransGen.mono (fun _ _ ⟨q, hq, hset⟩ => ⟨q, List.mem_cons_of_mem p hq, hset⟩) _ _ h

theorem head {p : Word} {b' : Memory} (hset : setBit l p b = some b') (h : SetBits l ps b' c) : SetBits l (p :: ps) b c :=
  Relation.ReflTransGen.head ⟨p, List.mem_cons_self, hset⟩ (h.cons p)

theorem wf (h : SetBits l ps b c) (hb : Memory.wf b = true) : Memory.wf c = true := by
  induction h with
  | refl => exact hb
  | tail _ hset ih =>
    obtain ⟨p, -, hset⟩ := hset
    exact wf_setBit ih hset

/-- No bit is cleared (42_filter_engine R206). -/
theorem bit_kept (h : SetBits l ps b c) (hb : Memory.wf b = true) {q : Word} (hq : bitAt b q = true) :
    bitAt c q = true := by
  induction h with
  | refl => exact hq
  | tail before hset ih =>
    obtain ⟨p, -, hset⟩ := hset
    simp [bitAt_setBit (wf before hb) hset q, ih]

/-- A bit that is new is one of the positions, and has storage. -/
theorem bit_new (h : SetBits l ps b c) (hb : Memory.wf b = true) {q : Word} (hq : bitAt c q = true) :
    bitAt b q = true ∨ (q ∈ ps ∧ inRange l q = true) := by
  induction h with
  | refl => exact .inl hq
  | tail before hset ih =>
    obtain ⟨p, hp, hset⟩ := hset
    rw [bitAt_setBit (wf before hb) hset q, Bool.or_eq_true, decide_eq_true_eq] at hq
    rcases hq with hq | rfl
    · exact ih hq
    · exact .inr ⟨hp, inRange_of_setBit hset⟩

/-- A byte that is no position's byte stays as it was. -/
theorem read_other (h : SetBits l ps b c) {a : Nat} (ha : ∀ p ∈ ps, a ≠ byteIndex p) :
    Memory.read a c = Memory.read a b := by
  induction h with
  | refl => rfl
  | tail _ hset ih =>
    obtain ⟨p, hp, hset⟩ := hset
    rw [read_setBit_other (ha p hp) hset, ih]

end SetBits

theorem setBits_of_setAll {l i : Nat} {ps : List Word} {b c : Memory} (h : setAll l i ps b = .ok c) : SetBits l ps b c := by
  induction ps generalizing i b with
  | nil =>
    cases h
    exact .refl c
  | cons p ps ih =>
    cases hset : setBit l p b with
    | none => simp [setAll, hset] at h
    | some b' =>
      simp only [setAll, hset] at h
      exact (ih h).head hset

theorem setBits_setSome (l : Nat) (taken : Nat → Bool) (i : Nat) (ps : List Word) (b : Memory) :
    SetBits l ps b (setSome l taken i ps b) := by
  induction ps generalizing i b with
  | nil => exact .refl b
  | cons p ps ih =>
    rw [setSome]
    split
    · cases hset : setBit l p b with
      | none => exact (ih (i + 1) b).cons p
      | some b' => exact (ih (i + 1) b').head hset
    · exact (ih (i + 1) b).cons p

/-- SETBIT of all the positions adds their bits and no other. -/
theorem bitAt_setAll {l i : Nat} {ps : List Word} {b c : Memory} (hb : Memory.wf b = true) (h : setAll l i ps b = .ok c)
    (q : Word) : bitAt c q = (bitAt b q || decide (q ∈ ps)) := by
  induction ps generalizing i b with
  | nil =>
    cases h
    simp
  | cons p ps ih =>
    cases hset : setBit l p b with
    | none => simp [setAll, hset] at h
    | some b' =>
      simp only [setAll, hset] at h
      rw [ih (wf_setBit hb hset) h, bitAt_setBit hb hset]
      simp [Bool.or_assoc]

/-! ### Positions and streams -/

/-- A position has storage only where M is not 0. -/
theorem bitCount_ne_zero_of_inRange {m p : Word} (h : inRange (byteLen m) p = true) : m ≠ 0#64 := by
  rintro rfl
  simp [inRange, byteLen] at h

/-- Where every position has storage there is no round with M = 0 (42_filter_engine R191). -/
theorem not_zeroBitCount {w : List Byte} {k : Byte} {m : Word} (h : ∀ p ∈ positions w k m, inRange (byteLen m) p = true) :
    ¬ (k ≠ 0#8 ∧ m = 0#64) := by
  rintro ⟨hk, hm⟩
  have hpos : 0 < (positions w k m).length := by
    rw [positions_length]
    exact Nat.pos_of_ne_zero fun h0 => hk (BitVec.eq_of_toNat_eq h0)
  exact bitCount_ne_zero_of_inRange (h _ (List.getElem_mem hpos)) hm

theorem position_lt {w : List Byte} {k : Byte} {m p : Word} (hp : p ∈ positions w k m) (hm : m ≠ 0#64) :
    p.toNat < m.toNat := by
  obtain ⟨h, -, rfl⟩ := List.mem_map.1 hp
  rw [position, BitVec.toNat_umod]
  exact Nat.mod_lt _ (Nat.pos_of_ne_zero fun h0 => hm (BitVec.eq_of_toNat_eq h0))

/-- Any stream holds a whole packet in front, or DATA beats only. -/
theorem offers_cases (beats : List InBeat) :
    (∃ w, OffersOpen beats w) ∨ ∃ w term rest, OffersPacket beats w term rest := by
  induction beats with
  | nil => exact .inl ⟨[], rfl⟩
  | cons b beats ih =>
    cases hb : b.beat with
    | endOfPacket => exact .inr ⟨[], .endOfPacket, beats, [], b, rfl, rfl, hb, .inl rfl⟩
    | err => exact .inr ⟨[], .err, beats, [], b, rfl, rfl, hb, .inr rfl⟩
    | data d =>
      rcases ih with ⟨w, hopen⟩ | ⟨w, term, rest, ds, e, rfl, hds, hterm⟩
      · exact .inl ⟨d :: w, congrArg₂ List.cons hb hopen⟩
      · exact .inr ⟨d :: w, term, rest, b :: ds, e, rfl, congrArg₂ List.cons hb hds, hterm⟩

/-- The packet in front of a stream has one word. -/
theorem offersPacket_word_unique {beats : List InBeat} {w w' : List Byte} {term term' : Beat} {rest rest' : List InBeat}
    (h : OffersPacket beats w term rest) (h' : OffersPacket beats w' term' rest') : w = w' := by
  have hw := takeData_short h (n := w.length + w'.length + 1) (by omega)
  have hw' := takeData_short h' (n := w.length + w'.length + 1) (by omega)
  exact congrArg Prod.fst (hw.symm.trans hw')

/-! ### INSERT and QUERY on what the stream offers -/

/-- The command that a word operation serves (40_hash_chain R130). -/
def wordInstr : WordOp → Instr
  | .insert => .insert
  | .query => .query

theorem commandRun_wordInstr (op : WordOp) (s : State) :
    commandRun (.instr (wordInstr op)) s = withChecks (wordInstr op) (wordRun op fnvOffset 0) s := by
  cases op <;> rfl

/-- The state in which the rounds begin: the packet of `w` has been taken (40_hash_chain R136). -/
def atRounds (op : WordOp) (w : List Byte) (rest : List InBeat) (s : State) : State :=
  { s with inStream := rest, engine := .rounds op (digest w) 0 }

section Word
variable {s : State} {w : List Byte} {rest : List InBeat} (op : WordOp)

/-- A usable block takes the command's packet (42_filter_engine R190, R200). -/
theorem exec_word (hs : s.Usable) : exec (wordInstr op) s = .next (wordRun op fnvOffset 0 s) := by
  rw [exec_eq, onAccept_idle hs.idle, commandRun_wordInstr,
    withChecks_pass ((refusal_accept ..).trans (refusal_usable hs _))]
  exact congrArg _ (wordRun_engine ..)

theorem wordRun_packet (h : OffersPacket s.inStream w .endOfPacket rest) :
    wordRun op fnvOffset 0 s = roundsRun op (digest w) 0 (atRounds op w rest s) := by
  rw [wordRun, takeWord_complete h]
  rfl

theorem wordRun_failed (h : OffersPacket s.inStream w .err rest) :
    wordRun op fnvOffset 0 s = raiseError errIo { s with inStream := rest } := by
  rw [wordRun, takeWord_failed h]

theorem wordRun_open (h : OffersOpen s.inStream w) :
    wordRun op fnvOffset 0 s = { s with inStream := [], engine := .word op (digest w) (0 + w.length) } := by
  rw [wordRun, takeWord_open h]
  rfl

theorem roundsRun_zeroBitCount (hk : s.k ≠ 0#8) (hm : s.m = 0#64) (h : Word) (i : Nat) :
    roundsRun op h i s = raiseFault faultZeroBitCount 0 0#64 s :=
  if_pos ⟨hk, hm⟩

/-- K at least 1 and M = 0 is a fault once the packet is taken (42_filter_engine R191, R202). -/
theorem exec_word_zeroBitCount (hs : s.Usable) (hp : OffersPacket s.inStream w .endOfPacket rest) (hk : s.k ≠ 0#8)
    (hm : s.m = 0#64) :
    exec (wordInstr op) s = .next { s with
      inStream := rest, err := 0x20#8, result := false, faulted := true, faultCause := 0x20#8, faultRound := 0x00#8
      faultInfo := 0#64 } := by
  rw [exec_word op hs, wordRun_packet op hp, roundsRun_zeroBitCount (s := atRounds op w rest s) op hk hm]
  simp [raiseFault, atRounds, hs.idle, faultZeroBitCount]

/-- A packet that ERR ends is IO_ERROR (42_filter_engine R190, R200). -/
theorem exec_word_failed (hs : s.Usable) (hp : OffersPacket s.inStream w .err rest) :
    exec (wordInstr op) s = .next { s with inStream := rest, err := 0x05#8, result := false } := by
  rw [exec_word op hs, wordRun_failed op hp]
  simp [raiseError, hs.idle, errIo]

variable (hs : s.Usable) (hp : OffersPacket s.inStream w .endOfPacket rest) (hkm : ¬ (s.k ≠ 0#8 ∧ s.m = 0#64))
include hs hp hkm

theorem exec_insert_rounds : exec .insert s = .next (insertRounds (digest w) 0 (atRounds .insert w rest s)) :=
  (exec_word .insert hs).trans (congrArg _ ((wordRun_packet .insert hp).trans (if_neg hkm)))

theorem exec_query_rounds : exec .query s = .next (queryRounds (digest w) 0 (atRounds .query w rest s)) :=
  (exec_word .query hs).trans (congrArg _ ((wordRun_packet .query hp).trans (if_neg hkm)))

/-- INSERT of a word whose positions all have storage (42_filter_engine R192). -/
theorem exec_insert_ok {b : Memory} (hset : setAll s.bufLen 0 (positions w s.k s.m) s.buf = .ok b) :
    exec .insert s = .next { s with
      inStream := rest, buf := b, insertedCount := s.insertedCount + 1#64, err := 0x00#8, result := false } := by
  rw [exec_insert_rounds hs hp hkm, insertRounds, roundPositions_zero]
  simp only [atRounds, State.bufLen] at hset ⊢
  simp [hset, complete, hs.idle]

/-- INSERT of a word one of whose positions has no storage (42_filter_engine R193). -/
theorem exec_insert_error {j : Nat} {p : Word} (hset : setAll s.bufLen 0 (positions w s.k s.m) s.buf = .error (j, p)) :
    exec .insert s = .next { s with
      inStream := rest, buf := setSome s.bufLen (Config.setTaken s.draws) 0 (positions w s.k s.m) s.buf
      draws := s.draws + 1, err := 0x21#8, result := false, faulted := true, faultCause := 0x21#8
      faultRound := BitVec.ofNat 8 j, faultInfo := p } := by
  rw [exec_insert_rounds hs hp hkm, insertRounds, roundPositions_zero]
  simp only [atRounds, State.bufLen] at hset ⊢
  simp [hset, raiseFault, hs.idle, faultPosRange]

/-- QUERY whose rounds end in an answer (42_filter_engine R200, R201). -/
theorem exec_query_ok {r : Bool} (htest : testAll s.bufLen 0 (positions w s.k s.m) s.buf = .ok r) :
    exec .query s = .next { s with inStream := rest, err := 0x00#8, result := r } := by
  rw [exec_query_rounds hs hp hkm, queryRounds, roundPositions_zero]
  simp only [atRounds, State.bufLen] at htest ⊢
  simp [htest, complete, hs.idle]

/-- QUERY that reaches a round whose position has no storage (42_filter_engine R202). -/
theorem exec_query_error {j : Nat} {p : Word} (htest : testAll s.bufLen 0 (positions w s.k s.m) s.buf = .error (j, p)) :
    exec .query s = .next { s with
      inStream := rest, err := 0x21#8, result := false, faulted := true, faultCause := 0x21#8
      faultRound := BitVec.ofNat 8 j, faultInfo := p } := by
  rw [exec_query_rounds hs hp hkm, queryRounds, roundPositions_zero]
  simp only [atRounds, State.bufLen] at htest ⊢
  simp [htest, raiseFault, hs.idle, faultPosRange]

end Word

end Sys2Proof.Proofs.FilterEngine
end

section
/-! What INSERT and QUERY answer (42_filter_engine R190 to R204): O33 to O35, O37 to O39, O41 and O42. -/
namespace Sys2Proof.Proofs.InsertQuery
open Sys2Proof Sys2Proof.Machine Sys2Proof.Proofs.Moves Sys2Proof.Proofs.Streams Sys2Proof.Proofs.FilterEngine

/-! ### What INSERT and QUERY do on one stream -/

/-- Settles O33: every SETBIT takes effect, and their bits are the positions'. -/
theorem insertSetsItsPositions : Obligations.InsertSetsItsPositions := by
  unfold Obligations.InsertSetsItsPositions
  intro s w rest hs hwf hp hstored
  obtain ⟨b, hset⟩ := (setAll_ok_iff s.bufLen 0 (positions w s.k s.m) s.buf).2 hstored
  exact ⟨b, exec_insert_ok hs hp (not_zeroBitCount hstored) hset, bitAt_setAll hwf hset⟩

/-- Settles O34: the check of K and M comes after the packet and before the rounds. -/
theorem insertZeroBitCount : Obligations.InsertZeroBitCount := by
  unfold Obligations.InsertZeroBitCount
  intro s w rest hs hp hk hm
  exact exec_word_zeroBitCount .insert hs hp hk hm

/-- Settles O35: the lowest round without storage is the one `setAll` reports, and what U2 leaves in BUF is some SETBITs of the
positions. -/
theorem insertPosRange : Obligations.InsertPosRange := by
  unfold Obligations.InsertPosRange
  intro s w rest i p hs hwf hp hm hget hrange hbefore
  have hhigh := (inRange_eq_false_iff s.bufLen p).1 hrange
  have hbelow := position_lt (List.mem_of_getElem? hget) hm
  have hlen : s.bufLen = s.m.toNat / 8 := byteLen_eq_div s.m
  have hset := setAll_first_bad hget hrange hbefore 0 s.buf
  rw [Nat.zero_add] at hset
  have hsome := setBits_setSome s.bufLen (Config.setTaken s.draws) 0 (positions w s.k s.m) s.buf
  exact ⟨by omega, hhigh, _, _, exec_insert_error hs hp (fun h => hm h.2) hset,
    fun q => ⟨hsome.bit_kept hwf, hsome.bit_new hwf⟩⟩

/-- Settles O37: TESTBIT of every position answers 1. -/
theorem queryAnswersOne : Obligations.QueryAnswersOne := by
  unfold Obligations.QueryAnswersOne
  intro s w rest hs hp hset
  exact exec_query_ok hs hp (not_zeroBitCount fun p hmem => (hset p hmem).1) (testAll_true hset 0)

/-- Settles O38: TESTBIT of round i is the last. -/
theorem queryShortCircuits : Obligations.QueryShortCircuits := by
  unfold Obligations.QueryShortCircuits
  intro s w rest i p hs hp hget hrange hbit hbefore
  exact exec_query_ok hs hp (fun h => bitCount_ne_zero_of_inRange hrange h.2) (testAll_false hget hrange hbit hbefore 0)

/-- Settles O39: the check of K and M, and TESTBIT's range check at round i. -/
theorem queryFaults : Obligations.QueryFaults := by
  unfold Obligations.QueryFaults
  refine ⟨fun s w rest hs hp hk hm => exec_word_zeroBitCount .query hs hp hk hm,
    fun s w rest i p hs hp hm hget hrange hbefore => ?_⟩
  have htest := testAll_error hget hrange hbefore 0
  rw [Nat.zero_add] at htest
  exact exec_query_error hs hp (fun h => hm h.2) htest

/-- Settles O42: INSERT and QUERY read their word alike. -/
theorem wordPacketError : Obligations.WordPacketError := by
  unfold Obligations.WordPacketError
  rintro i s w rest (rfl | rfl) hs hp
  · exact exec_word_failed .insert hs hp
  · exact exec_word_failed .query hs hp

/-! ### What QUERY depends on -/

/-- What O41 compares of two blocks after a QUERY (40_hash_chain R135). -/
def AnswerAlike (t v : State) : Prop :=
  t.busy = v.busy ∧ t.inStream = v.inStream ∧ t.buf = v.buf ∧ t.faulted = v.faulted ∧
    (t.busy = false → t.err = v.err ∧ t.result = v.result)

/-- QUERY's rounds read K, M and BUF only. -/
theorem roundsRun_query_alike {s u : State} (hk : s.k = u.k) (hm : s.m = u.m) (hbuf : s.buf = u.buf)
    (hin : s.inStream = u.inStream) (hf : s.faulted = u.faulted) (h : Word) (i : Nat) :
    AnswerAlike (roundsRun .query h i s) (roundsRun .query h i u) := by
  by_cases hkm : s.k ≠ 0#8 ∧ s.m = 0#64
  · rw [roundsRun_zeroBitCount .query hkm.1 hkm.2, roundsRun_zeroBitCount .query (hk ▸ hkm.1) (hm ▸ hkm.2)]
    exact ⟨rfl, hin, hbuf, rfl, fun _ => ⟨rfl, rfl⟩⟩
  · have hs : roundsRun .query h i s = queryRounds h i s := if_neg hkm
    have hu : roundsRun .query h i u = queryRounds h i u := if_neg (hk ▸ hm ▸ hkm)
    have htest : testAll u.bufLen i (roundPositions u h i) u.buf = testAll s.bufLen i (roundPositions s h i) s.buf := by
      simp only [State.bufLen, roundPositions, hk, hm, hbuf]
    rw [hs, hu, queryRounds, queryRounds, htest]
    cases testAll s.bufLen i (roundPositions s h i) s.buf with
    | ok r => exact ⟨rfl, hin, hbuf, hf, fun _ => ⟨rfl, rfl⟩⟩
    | error jp => exact ⟨rfl, hin, hbuf, rfl, fun _ => ⟨rfl, rfl⟩⟩

/-- Settles O41: the packet is read alike, whether it is whole, failed or open, and the rounds read K, M and BUF only. -/
theorem queryDependsOnFilterOnly : Obligations.QueryDependsOnFilterOnly := by
  unfold Obligations.QueryDependsOnFilterOnly
  intro s u t v hs hu hk hm hbuf hin ht hv
  have hf : s.faulted = u.faulted := hs.unfaulted.trans hu.unfaulted.symm
  cases (exec_word .query hs).symm.trans ht
  cases (exec_word .query hu).symm.trans hv
  rcases offers_cases s.inStream with ⟨w, hopen⟩ | ⟨w, term, rest, hp⟩
  · rw [wordRun_open .query hopen, wordRun_open .query (hin ▸ hopen)]
    exact ⟨rfl, rfl, hbuf, hf, nofun⟩
  · obtain ⟨-, -, -, -, -, rfl | rfl⟩ := id hp
    · rw [wordRun_packet .query hp, wordRun_packet .query (hin ▸ hp)]
      exact roundsRun_query_alike (s := atRounds .query w rest s) (u := atRounds .query w rest u) hk hm hbuf rfl hf _ _
    · rw [wordRun_failed .query hp, wordRun_failed .query (hin ▸ hp)]
      exact ⟨rfl, rfl, hbuf, hf, fun _ => ⟨rfl, rfl⟩⟩

end Sys2Proof.Proofs.InsertQuery
end

section
/-! What INSERT and QUERY leave alone (O36, O40): all that they can do to a state, said once (`wordExec_effect`). -/
namespace Sys2Proof.Proofs.WordFrames
open Sys2Proof Sys2Proof.Machine Sys2Proof.Proofs.Moves Sys2Proof.Proofs.Streams Sys2Proof.Proofs.FilterEngine

/-- All that the rounds of a word with positions `ps` can do to a state (42_filter_engine R190 to R202). -/
inductive RoundsEffect (op : WordOp) (ps : List Word) (s : State) : State → Prop
  /-- QUERY answers. -/
  | answer (r : Bool) (query : op = .query) : RoundsEffect op ps s (complete r s)
  /-- INSERT has set its bits and counts one. -/
  | insert {b : Memory} (insert : op = .insert) (sets : SetBits s.bufLen ps s.buf b) :
    RoundsEffect op ps s (complete false { s with buf := b, insertedCount := s.insertedCount + 1#64 })
  /-- A sticky fault; a faulting INSERT may have set some bits (93_implementation_defined U2). -/
  | fault {b : Memory} {d : Nat} {cause : Byte} (round : Nat) (pos : Word)
      (listed : cause = faultZeroBitCount ∨ cause = faultPosRange) (sets : SetBits s.bufLen ps s.buf b)
      (kept : op = .query → b = s.buf ∧ d = s.draws) :
    RoundsEffect op ps s (raiseFault cause round pos { s with buf := b, draws := d })

theorem roundsRun_effect (op : WordOp) (h : Word) (i : Nat) (s : State) :
    RoundsEffect op (roundPositions s h i) s (roundsRun op h i s) := by
  unfold roundsRun
  split
  · exact .fault (b := s.buf) (d := s.draws) 0 0#64 (.inl rfl) (.refl _) fun _ => ⟨rfl, rfl⟩
  · cases op with
    | insert =>
      dsimp only [insertRounds]
      split
      · next b hset => exact .insert rfl (setBits_of_setAll hset)
      · exact .fault _ _ (.inr rfl) (setBits_setSome ..) nofun
    | query =>
      dsimp only [queryRounds]
      split
      · exact .answer _ rfl
      · exact .fault (b := s.buf) (d := s.draws) _ _ (.inr rfl) (.refl _) fun _ => ⟨rfl, rfl⟩

/-- All that INSERT and QUERY can do to a state. -/
inductive WordEffect (op : WordOp) (s : State) : State → Prop
  /-- The command waits for the rest of its packet, or its word was written while BUSY = 1 (10_state R22). -/
  | wait (e : Engine) (ins : List InBeat) : WordEffect op s { s with engine := e, inStream := ins }
  /-- A refusal or an IO_ERROR (42_filter_engine R172, R190, R200). -/
  | error {code : Byte} (rest : List InBeat) (noFault : code ≠ faultZeroBitCount ∧ code ≠ faultPosRange) :
    WordEffect op s (raiseError code { s with inStream := rest })
  /-- The packet of a word has been taken and the rounds have run. -/
  | rounds {w : List Byte} {rest : List InBeat} {t : State} (packet : OffersPacket s.inStream w .endOfPacket rest)
      (effect : RoundsEffect op (positions w s.k s.m) (atRounds op w rest s) t) : WordEffect op s t

theorem wordRun_effect (op : WordOp) (s : State) : WordEffect op s (wordRun op fnvOffset 0 s) := by
  rcases offers_cases s.inStream with ⟨w, hopen⟩ | ⟨w, term, rest, hp⟩
  · rw [wordRun_open op hopen]
    exact .wait _ _
  · obtain ⟨-, -, -, -, -, rfl | rfl⟩ := id hp
    · rw [wordRun_packet op hp]
      have effect := roundsRun_effect op (digest w) 0 (atRounds op w rest s)
      rw [roundPositions_zero] at effect
      exact .rounds hp effect
    · rw [wordRun_failed op hp]
      exact .error rest (by decide)

/-- The drain of a refused command (42_filter_engine R172, R173). -/
theorem drainRun_refuse_effect (op : WordOp) {code : Byte} (hcode : code = errFaulted ∨ code = errNotConfigured)
    (s : State) : WordEffect op s (drainRun (wordInstr op) (.refuse code) 0 s) := by
  rcases offers_cases s.inStream with ⟨w, hopen⟩ | ⟨w, term, rest, hp⟩
  · rw [drainRun_open hopen]
    exact .wait _ _
  · rw [drainRun_packet hp]
    exact .error rest (by rcases hcode with rfl | rfl <;> decide)

theorem withChecks_effect (op : WordOp) (s : State) :
    WordEffect op s (withChecks (wordInstr op) (wordRun op fnvOffset 0) s) := by
  cases hr : refusal (wordInstr op) s with
  | none =>
    rw [withChecks_pass hr]
    exact wordRun_effect op s
  | some code =>
    have hreads : readsPacket (wordInstr op) = true := by cases op <;> rfl
    rw [withChecks_refuse_drain hr hreads]
    exact drainRun_refuse_effect op (refusal_code hr) s

/-- An effect overwrites the hidden state that acceptance gave. -/
theorem WordEffect.of_accept {op : WordOp} {c : Command} {s t : State} (h : WordEffect op (accept c s) t) :
    WordEffect op s t := by
  cases h with
  | wait e ins => exact .wait e ins
  | error rest noFault => exact .error rest noFault
  | rounds packet effect => exact .rounds packet effect

theorem wordExec_effect {op : WordOp} {s t : State} (h : exec (wordInstr op) s = .next t) : WordEffect op s t := by
  rcases exec_cases h with rfl | ⟨-, rfl⟩
  · exact .wait t.engine t.inStream
  · rw [commandRun_wordInstr]
    exact (withChecks_effect op _).of_accept

/-- Settles O36: INSERT waits, errs, sets bits of its positions, or faults, having set some of them. -/
theorem insertFrame : Obligations.InsertFrame := by
  unfold Obligations.InsertFrame
  constructor
  · intro s t h
    cases wordExec_effect (op := .insert) h with
    | wait e ins =>
      exact ⟨rfl, rfl, rfl, rfl, rfl, rfl, rfl, rfl, rfl, rfl, fun _ _ => ⟨rfl, rfl, rfl, rfl⟩,
        fun _ => ⟨rfl, rfl, rfl, rfl, rfl⟩⟩
    | error rest noFault =>
      exact ⟨rfl, rfl, rfl, rfl, rfl, rfl, rfl, rfl, rfl, rfl, fun _ _ => ⟨rfl, rfl, rfl, rfl⟩, nofun⟩
    | rounds packet effect =>
      cases effect with
      | answer r query => cases query
      | insert insert sets =>
        exact ⟨rfl, rfl, rfl, rfl, rfl, rfl, rfl, rfl, rfl, rfl, fun _ _ => ⟨rfl, rfl, rfl, rfl⟩, nofun⟩
      | fault round pos listed sets kept =>
        exact ⟨rfl, rfl, rfl, rfl, rfl, rfl, rfl, rfl, rfl, rfl, fun h0 h1 => (listed.elim h0 h1).elim, nofun⟩
  · intro s t w term rest hp h a ha
    cases wordExec_effect (op := .insert) h with
    | wait | error => rfl
    | rounds packet effect =>
      cases offersPacket_word_unique packet hp
      cases effect with
      | answer => rfl
      | insert insert sets => exact sets.read_other ha
      | fault round pos listed sets kept => exact sets.read_other ha

/-- Settles O40: QUERY waits, errs, answers, or faults with BUF as it was. -/
theorem queryFrame : Obligations.QueryFrame := by
  unfold Obligations.QueryFrame
  intro s t h
  cases wordExec_effect (op := .query) h with
  | wait | error =>
    exact ⟨rfl, rfl, rfl, rfl, rfl, rfl, rfl, rfl, rfl, rfl, rfl, rfl, rfl, fun _ => rfl, fun _ _ => ⟨rfl, rfl, rfl, rfl⟩⟩
  | rounds packet effect =>
    cases effect with
    | answer =>
      exact ⟨rfl, rfl, rfl, rfl, rfl, rfl, rfl, rfl, rfl, rfl, rfl, rfl, rfl, fun _ => rfl,
        fun _ _ => ⟨rfl, rfl, rfl, rfl⟩⟩
    | insert insert => cases insert
    | fault round pos listed sets kept =>
      obtain ⟨rfl, rfl⟩ := kept rfl
      exact ⟨rfl, rfl, rfl, rfl, rfl, rfl, rfl, rfl, rfl, rfl, rfl, rfl, rfl, fun _ => rfl,
        fun h0 h1 => (listed.elim h0 h1).elim⟩

end Sys2Proof.Proofs.WordFrames
end

section
/-! No false negatives (42_filter_engine R205, R206): O58 and O59. A move of the engine that neither builds nor clears a filter
keeps K, M and CFG_VALID and every bit of BUF that is 1 (`resume_grows`), and so does every step of a host that starts no CREATE
and no DECODE and resets nothing (`step_grows`): what INSERT left stays for QUERY to test. -/
namespace Sys2Proof.Proofs.NoFalseNegatives
open Sys2Proof Sys2Proof.Machine Sys2Proof.Proofs.Moves Sys2Proof.Proofs.Streams Sys2Proof.Proofs.RegisterFile
open Sys2Proof.Proofs.Encoding Sys2Proof.Proofs.Scripts Sys2Proof.Proofs.FilterEngine Sys2Proof.Proofs.WordFrames

/-! ### Moves that leave the filter in place -/

/-- The command under way, if any, neither builds nor clears a filter: it is no CREATE, and no DECODE but a refused one. -/
def LeavesFilter : Engine → Prop
  | .idle => True
  | .accepted c => c ≠ .instr .create ∧ c ≠ .instr .decode
  | .word _ _ _ => True
  | .rounds _ _ _ => True
  | .header _ => False
  | .body _ _ _ => False
  | .drain _ fin _ => ∃ code, fin = .refuse code
  | .sending _ => True

/-- The filter is as it was, but for bits of BUF that are 1 now (42_filter_engine R206). -/
structure Grows (s t : State) : Prop where
  k : t.k = s.k
  m : t.m = s.m
  cfgValid : t.cfgValid = s.cfgValid
  wf : Memory.wf s.buf = true → Memory.wf t.buf = true
  bits : Memory.wf s.buf = true → ∀ p, bitAt s.buf p = true → bitAt t.buf p = true
  engine : LeavesFilter t.engine

theorem Grows.trans {s t u : State} (h : Grows s t) (h' : Grows t u) : Grows s u where
  k := h'.k.trans h.k
  m := h'.m.trans h.m
  cfgValid := h'.cfgValid.trans h.cfgValid
  wf hb := h'.wf (h.wf hb)
  bits hb p hp := h'.bits (h.wf hb) p (h.bits hb p hp)
  engine := h'.engine

/-- Registers as they were and BUF after some SETBITs. -/
theorem Grows.of_setBits {s t : State} {l : Nat} {ps : List Word} (sets : SetBits l ps s.buf t.buf)
    (engine : LeavesFilter t.engine) (k : t.k = s.k := by rfl) (m : t.m = s.m := by rfl)
    (cfgValid : t.cfgValid = s.cfgValid := by rfl) : Grows s t :=
  ⟨k, m, cfgValid, sets.wf, fun hb _ => sets.bit_kept hb, engine⟩

/-- The filter's registers and BUF as they were. -/
theorem Grows.of_same {s t : State} (engine : LeavesFilter t.engine) (buf : t.buf = s.buf := by rfl)
    (k : t.k = s.k := by rfl) (m : t.m = s.m := by rfl) (cfgValid : t.cfgValid = s.cfgValid := by rfl) : Grows s t :=
  .of_setBits (l := 0) (ps := []) (buf ▸ .refl _) engine k m cfgValid

/-- The rounds only set bits (42_filter_engine R192, R193). -/
theorem grows_of_roundsEffect {op : WordOp} {ps : List Word} {s t : State} (h : RoundsEffect op ps s t) : Grows s t := by
  cases h with
  | answer => exact .of_same trivial
  | insert insert sets => exact .of_setBits sets trivial
  | fault round pos listed sets => exact .of_setBits sets trivial

theorem wordRun_grows (op : WordOp) (h : Word) (n : Nat) (s : State) : Grows s (wordRun op h n s) := by
  unfold wordRun
  split
  · exact .of_same trivial
  · next h' rest _ =>
    have taken : Grows s { s with inStream := rest, engine := .rounds op h' 0 } := .of_same trivial
    exact taken.trans (grows_of_roundsEffect (roundsRun_effect ..))
  · exact .of_same trivial

theorem drainRun_refuse_grows (i : Instr) (code : Byte) (n : Nat) (s : State) :
    Grows s (drainRun i (.refuse code) n s) := by
  unfold drainRun
  split
  · exact .of_same ⟨code, rfl⟩
  · exact .of_same trivial

theorem sendRun_grows (j : Nat) (s : State) : Grows s (sendRun j s) := by
  unfold sendRun
  dsimp only
  split
  · exact .of_same trivial
  · exact .of_same trivial
  · exact .of_same trivial

theorem withChecks_grows {i : Instr} {work : State → State} {s : State} (h : Grows s (work s)) :
    Grows s (withChecks i work s) := by
  unfold withChecks
  split
  · split
    · exact drainRun_refuse_grows ..
    · exact .of_same trivial
  · exact h

theorem commandRun_grows {c : Command} (hc : c ≠ .instr .create ∧ c ≠ .instr .decode) (s : State) :
    Grows s (commandRun c s) := by
  cases c with
  | illegal => exact .of_same trivial
  | instr i =>
    cases i with
    | create => exact absurd rfl hc.1
    | decode => exact absurd rfl hc.2
    | insert => exact withChecks_grows (wordRun_grows ..)
    | query => exact withChecks_grows (wordRun_grows ..)
    | encode => exact withChecks_grows (sendRun_grows ..)

theorem resume_grows {s : State} (h : LeavesFilter s.engine) : Grows s (resume s) := by
  unfold resume
  split
  · exact .of_same h
  · next c he => exact commandRun_grows (by rwa [he] at h) s
  · exact wordRun_grows ..
  · exact grows_of_roundsEffect (roundsRun_effect ..)
  · next he => simp [he, LeavesFilter] at h
  · next he => simp [he, LeavesFilter] at h
  · next op fin n he =>
    rw [he] at h
    obtain ⟨code, rfl⟩ := h
    exact drainRun_refuse_grows ..
  · exact sendRun_grows ..

/-- Settles O58: none of the three commands builds or clears a filter. -/
theorem monotonicBitGrowth : Obligations.MonotonicBitGrowth := by
  unfold Obligations.MonotonicBitGrowth
  intro i s t hi hwf h p hp
  rcases exec_cases h with rfl | ⟨-, rfl⟩
  · exact hp
  · exact (commandRun_grows (by rcases hi with rfl | rfl | rfl <;> decide) _).bits hwf p hp

/-! ### Steps and runs that leave the filter in place -/

theorem resume_host (s : State) : (resume s).host = s.host := by
  have hkeeps := congrArg State.host (keepsHost_resume s s.host)
  exact hkeeps

theorem settle_grows {o : Bool} {s u : State} (h : Grows s u) (hhost : u.host = s.host) :
    Grows s (settle o u) ∧ (settle o u).host = s.host := by
  rcases settle_cases o u with heq | heq
  · rw [heq]
    exact ⟨h, hhost⟩
  · rw [heq]
    exact ⟨h.trans (resume_grows h.engine), (resume_host u).trans hhost⟩

/-- A write of a word that is not CREATE's and not DECODE's (10_state R22, 42_filter_engine R170). -/
theorem commandWrite_grows {o : Bool} {w : Word} {s t : State} (hs : LeavesFilter s.engine)
    (hw : ¬ (w = encode .create ∨ w = encode .decode)) (h : commandWrite o w s = .next t) :
    Grows s t ∧ t.host = s.host := by
  have accepted (c : Command) (hc : c ≠ .instr .create ∧ c ≠ .instr .decode) :
      Grows s (settle o (accept c s)) ∧ (settle o (accept c s)).host = s.host :=
    settle_grows (.of_same hc) rfl
  unfold commandWrite at h
  split at h
  · cases h
    exact settle_grows (.of_same hs) rfl
  · next hb =>
    have hidle := idle_of_not_busy hb
    split at h
    · next i hdecode =>
      have hword := (decode_eq_ok_iff_eq_encode w i).1 hdecode
      have hi : Command.instr i ≠ .instr .create ∧ Command.instr i ≠ .instr .decode := by
        constructor
        · rintro ⟨⟩
          exact hw (.inl hword)
        · rintro ⟨⟩
          exact hw (.inr hword)
      have hi := accepted (.instr i) hi
      cases o
      · cases (exec_idle hidle i).symm.trans h
        exact hi
      · cases h
        exact hi
    · have hill := accepted .illegal (by decide)
      cases o
      · cases (execIllegal_idle hidle).symm.trans h
        exact hill
      · cases h
        exact hill

theorem hostWrite_grows (idx : BitVec 4) (data : Word) {s : State} (hs : LeavesFilter s.engine) :
    Grows s (hostWrite idx data s) ∧ (hostWrite idx data s).host = s.host := by
  unfold hostWrite
  split
  · exact ⟨.of_same hs, rfl⟩
  · split <;> exact ⟨.of_same hs, rfl⟩

theorem hostTurn_grows {ev : HostEvent} {s t : State} (hs : LeavesFilter s.engine) (hev : KeepsFilter ev)
    (h : hostTurn ev s = .next t) : Grows s t ∧ t.host = s.host := by
  obtain ⟨op, o⟩ := ev
  cases op with
  | offer b =>
    cases h
    exact settle_grows (.of_same hs) rfl
  | answer r =>
    cases h
    exact settle_grows (.of_same hs) rfl
  | reset => cases hev
  | access a =>
    have haccess : registerAccess o a s = .next t := h
    unfold registerAccess at haccess
    split at haccess
    · cases haccess
      obtain ⟨v, d, hread⟩ := hostRead_spec a.idx s
      rw [hread]
      exact settle_grows (.of_same hs) rfl
    · next hdir =>
      split at haccess
      · next hidx =>
        have hwrite := (BitVec.eq_zero_or_eq_one a.dir).resolve_left hdir
        exact commandWrite_grows hs (fun hdata => hev ⟨hwrite, hidx, hdata⟩) haccess
      · cases haccess
        obtain ⟨grows, hhost⟩ := hostWrite_grows a.idx a.data hs
        exact settle_grows grows hhost

theorem step_grows {s t : State} (hs : LeavesFilter s.engine) (hhost : ∀ ev ∈ s.host, KeepsFilter ev)
    (h : step s = .next t) : Grows s t ∧ ∀ ev ∈ t.host, KeepsFilter ev := by
  unfold step at h
  split at h
  · cases h
    exact ⟨resume_grows hs, resume_host s ▸ hhost⟩
  · next ev rest heq =>
    rw [heq, List.forall_mem_cons] at hhost
    have before : Grows s { s with host := rest } := .of_same hs
    obtain ⟨grows, hrest⟩ := hostTurn_grows before.engine hhost.1 h
    exact ⟨before.trans grows, hrest ▸ hhost.2⟩

theorem run_grows {n : Nat} {s u : State} (hs : LeavesFilter s.engine) (hhost : ∀ ev ∈ s.host, KeepsFilter ev)
    (h : Sys2Proof.core.run n s = .next u) : Grows s u := by
  induction n generalizing s with
  | zero =>
    cases h
    exact .of_same hs
  | succ n ih =>
    obtain ⟨t, ht⟩ := step_next s
    obtain ⟨grows, hthost⟩ := step_grows hs hhost ht
    exact grows.trans (ih grows.engine hthost ((run_succ ht n).symm.trans h))

/-! ### What INSERT leaves and QUERY tests -/

theorem holds_grows {w : List Byte} {s t : State} (h : Holds w s) (hb : Memory.wf s.buf = true) (grows : Grows s t) :
    Holds w t := by
  have hlen : t.bufLen = s.bufLen := congrArg byteLen grows.m
  refine ⟨grows.cfgValid.trans h.configured, ?_, ?_⟩
  · rw [grows.k, grows.m, hlen]
    exact h.stored
  · rw [grows.k, grows.m]
    exact fun p hp => grows.bits hb p (h.allSet p hp)

/-- A successful INSERT leaves every position of its word stored and set (42_filter_engine R192). -/
theorem holds_of_insert {s t : State} {w : List Byte} {rest : List InBeat} (hb : Memory.wf s.buf = true) (hs : s.Usable)
    (hp : OffersPacket s.inStream w .endOfPacket rest) (h : exec .insert s = .next t) (herr : t.err = 0x00#8) :
    Holds w t ∧ Memory.wf t.buf = true ∧ t.engine = .idle := by
  by_cases hkm : s.k ≠ 0#8 ∧ s.m = 0#64
  · cases (exec_word_zeroBitCount .insert hs hp hkm.1 hkm.2).symm.trans h
    cases herr
  · cases hset : setAll s.bufLen 0 (positions w s.k s.m) s.buf with
    | error jp =>
      cases (exec_insert_error hs hp hkm hset).symm.trans h
      cases herr
    | ok b =>
      cases (exec_insert_ok hs hp hkm hset).symm.trans h
      have stored := (setAll_ok_iff s.bufLen 0 (positions w s.k s.m) s.buf).1 ⟨b, hset⟩
      refine ⟨⟨hs.configured, stored, fun p hmem => ?_⟩, wf_setAll hb hset, hs.idle⟩
      simp [bitAt_setAll hb hset, hmem]

/-- A QUERY of a word that the filter holds answers 1 (42_filter_engine R205). -/
theorem query_of_holds {u : State} {w : List Byte} {rest : List InBeat} (h : Holds w u) (hu : u.Ready)
    (hp : OffersPacket u.inStream w .endOfPacket rest) :
    exec .query u = .next { u with inStream := rest, err := 0x00#8, result := true } :=
  exec_query_ok { hu with configured := h.configured } hp (not_zeroBitCount h.stored)
    (testAll_true (fun p hmem => ⟨h.stored p hmem, h.allSet p hmem⟩) 0)

/-- Settles O59: INSERT leaves the word held, every later step keeps it held, and QUERY of a held word answers 1. -/
theorem noFalseNegatives : Obligations.NoFalseNegatives := by
  unfold Obligations.NoFalseNegatives
  intro s t u w rest rest' n hinv hs hp hinsert herr hhost hrun hidle hunfaulted hp'
  obtain ⟨holds, hwf, ht⟩ := holds_of_insert hinv.bufWf hs hp hinsert herr
  have grows := run_grows (ht ▸ trivial) hhost hrun
  exact ⟨_, query_of_holds (holds_grows holds hwf grows) ⟨hidle, hunfaulted⟩ hp', rfl, rfl⟩

end Sys2Proof.Proofs.NoFalseNegatives
end

section
/-! The pre-checks' refusals (42_filter_engine R172): O54. -/
namespace Sys2Proof.Proofs.Refusals
open Sys2Proof Sys2Proof.Machine Sys2Proof.Proofs.Streams

/-- Every command begins with the pre-checks. -/
theorem commandRun_withChecks (i : Instr) : ∃ work, ∀ s, commandRun (.instr i) s = withChecks i work s := by
  cases i <;> exact ⟨_, fun _ => rfl⟩

/-- A refused command with a packet takes it, and reports the code (42_filter_engine R173). -/
theorem exec_refused_packet {i : Instr} {s : State} {code : Byte} {w : List Byte} {term : Beat} {rest : List InBeat}
    (hs : s.engine = .idle) (hr : refusal i s = some code) (hi : readsPacket i = true)
    (hp : OffersPacket s.inStream w term rest) :
    exec i s = .next { s with inStream := rest, err := code, result := false } := by
  obtain ⟨work, hwork⟩ := commandRun_withChecks i
  rw [exec_eq, onAccept_idle hs, hwork, withChecks_refuse_drain ((refusal_accept ..).trans hr) hi,
    drainRun_packet (by exact hp)]
  simp [finishPacket, raiseError, accept, hs]

/-- A refused command that reads no packet reports the code at once (70_reset_and_hazards R295). -/
theorem exec_refused {i : Instr} {s : State} {code : Byte} (hs : s.engine = .idle) (hr : refusal i s = some code)
    (hi : readsPacket i = false) : exec i s = .next { s with err := code, result := false } := by
  obtain ⟨work, hwork⟩ := commandRun_withChecks i
  rw [exec_eq, onAccept_idle hs, hwork, withChecks_refuse ((refusal_accept ..).trans hr) hi]
  simp [raiseError, accept, hs]

/-- Settles O54: FAULTED is checked before CFG_VALID, and a refusal drains a packet exactly where the command reads one. -/
theorem refusedCommands : Obligations.RefusedCommands := by
  unfold Obligations.RefusedCommands
  constructor
  · intro s i bytes term rest hi hs hp
    have hreads := (readsPacket_iff i).2 hi
    refine ⟨fun hf => exec_refused_packet hs (refusal_faulted hf i) hreads hp, fun hf hc hne => ?_⟩
    have hneeds : needsFilter i = true := by
      rcases hi with rfl | rfl | rfl
      · rfl
      · rfl
      · exact absurd rfl hne
    exact exec_refused_packet hs (refusal_unconfigured hf hneeds hc) hreads hp
  · intro s i hi hs
    have hreads : readsPacket i = false := by rcases hi with rfl | rfl <;> rfl
    refine ⟨fun hf => exec_refused hs (refusal_faulted hf i) hreads, ?_⟩
    rintro hf hc rfl
    exact exec_refused hs (refusal_unconfigured hf rfl hc) hreads

end Sys2Proof.Proofs.Refusals
end

section
/-! CREATE (42_filter_engine R180 to R185): what it does for each outcome of the sizing (O28 to O30) and what it leaves alone
(O32). -/
namespace Sys2Proof.Proofs.Create
open Sys2Proof Sys2Proof.Machine Sys2Proof.Proofs.Streams

/-- CREATE passes its pre-check in any ready block. -/
theorem exec_create_ready {s : State} (hs : s.Ready) : exec .create s = .next (createWork (accept (.instr .create) s)) :=
  (onAccept_idle hs.idle ..).trans (congrArg _ (withChecks_pass ((refusal_accept ..).trans (refusal_ready hs rfl)) _))

/-- Settles O28: the sizes fit, and BUF is CLEARALL's. -/
theorem createBuildsEmptyFilter : Obligations.CreateBuildsEmptyFilter := by
  unfold Obligations.CreateBuildsEmptyFilter
  intro s k m hs hsize hfits
  refine ⟨clearAll, ?_, fun _ => rfl⟩
  rw [exec_create_ready hs]
  simp [createWork, hsize, Nat.not_lt.2 hfits, complete, configure, accept, hs.idle]

/-- A failed precondition, or an estimate that does not convert, gives no sizes (42_filter_engine R182). -/
theorem sizing_eq_none {ln : Word → Word} {n p : Word}
    (h : F64.zero.lt (F64.ofBits n) = false ∨ F64.zero.lt (F64.ofBits p) = false ∨ (F64.ofBits p).lt F64.one = false ∨
      F64.zero.le (bitCountF ln n p) = false ∨ (bitCountF ln n p).lt F64.twoPow64 = false ∨
      F64.zero.le (hashRoundsF ln n p) = false ∨ (hashRoundsF ln n p).lt F64.twoPow8 = false) :
    sizing ln n p = none := by
  rcases h with h | h | h | h | h | h | h <;> simp [sizing, argsInRange, h]

/-- Settles O29: CREATE without sizes only reports. -/
theorem createRejectsBadParam : Obligations.CreateRejectsBadParam := by
  unfold Obligations.CreateRejectsBadParam
  intro s hs h
  rw [exec_create_ready hs]
  simp [createWork, sizing_eq_none h, raiseError, accept, hs.idle, errBadParam]

/-- Settles O30: CREATE beyond the storage only reports. -/
theorem createRejectsOverCapacity : Obligations.CreateRejectsOverCapacity := by
  unfold Obligations.CreateRejectsOverCapacity
  intro s k m hs hsize hover
  rw [exec_create_ready hs]
  simp [createWork, hsize, hover, raiseError, accept, hs.idle, errCapacity]

/-- CREATE reports an error or holds a new filter. -/
theorem createRun_cases (s : State) :
    (∃ code, createRun s = raiseError code s) ∨ ∃ k m b, createRun s = complete false (configure k m b s) := by
  rcases withChecks_cases (i := .create) rfl createWork s with hrefused | hwork
  · exact .inl hrefused
  · rw [createRun, hwork, createWork]
    split
    · exact .inl ⟨_, rfl⟩
    · split
      · exact .inl ⟨_, rfl⟩
      · exact .inr ⟨_, _, _, rfl⟩

/-- Settles O32: an error changes ERR and RESULT, a new filter its own registers and BUF. -/
theorem createFrame : Obligations.CreateFrame := by
  unfold Obligations.CreateFrame
  intro s t h
  rcases exec_cases h with rfl | ⟨-, rfl⟩
  · exact ⟨rfl, rfl, rfl, rfl, rfl, rfl, rfl, rfl, rfl, rfl, rfl, rfl, rfl, fun _ => ⟨rfl, rfl, rfl, rfl, fun _ => rfl⟩⟩
  · rcases createRun_cases (accept (.instr .create) s) with ⟨code, hrun⟩ | ⟨k, m, b, hrun⟩
    · simp only [commandRun, hrun]
      exact ⟨rfl, rfl, rfl, rfl, rfl, rfl, rfl, rfl, rfl, rfl, rfl, rfl, rfl, fun _ => ⟨rfl, rfl, rfl, rfl, fun _ => rfl⟩⟩
    · simp only [commandRun, hrun]
      exact ⟨rfl, rfl, rfl, rfl, rfl, rfl, rfl, rfl, rfl, rfl, rfl, rfl, rfl, fun herr => absurd rfl herr⟩

end Sys2Proof.Proofs.Create
end

section
/-! CREATE's sizes (42_filter_engine R181 to R183): O27. A quotient of binary64 is a rounding, so dividing it by 8 is exact
(`isRounding_value_eq`), unless it lies so far below 1 that both truncations are 0 (`isRounding_lt_one`). -/
namespace Sys2Proof.Proofs.Sizing
open Sys2Proof Sys2Proof.Machine Sys2Proof.Proofs.Moves Sys2Proof.Proofs.Binary64

/-! ### Truncation and comparison as numbers -/

/-- Truncation is the floor of the magnitude. -/
theorem truncToNat_fin (s : Bool) (m : Nat) (e : Int) : (F64.fin s m e).truncToNat = ⌊(m : ℚ) * 2 ^ e⌋₊ := by
  rw [F64.truncToNat]
  split
  case isTrue he =>
    obtain ⟨g, rfl⟩ := Int.eq_ofNat_of_zero_le he
    have hpow : (m : ℚ) * 2 ^ (g : Int) = ((m * 2 ^ g : Nat) : ℚ) := by simp
    rw [hpow, Nat.floor_natCast, Int.toNat_natCast]
  case isFalse he =>
    have hpow : (2 : ℚ) ^ e = ((2 ^ (-e).toNat : Nat) : ℚ)⁻¹ := by
      rw [Nat.cast_pow, Nat.cast_ofNat, ← zpow_natCast, ← zpow_neg, Int.toNat_of_nonneg (by omega), neg_neg]
    rw [hpow, ← div_eq_mul_inv, Nat.floor_div_eq_div]

/-- A power of two over a smaller one is a natural number. -/
theorem zpow_eq_pow_toNat_mul {g e : Int} (h : g ≤ e) : (2 : ℚ) ^ e = 2 ^ (e - g).toNat * 2 ^ g := by
  rw [← zpow_natCast, Int.toNat_of_nonneg (by omega), ← zpow_add₀ two_ne_zero, sub_add_cancel]

/-- Below a power of two, as numbers. -/
theorem fin_lt_twoPow {m j : Nat} {e : Int} (h : (F64.fin false m e).lt (.fin false 1 j) = true) :
    (m : ℚ) * 2 ^ e < 2 ^ j := by
  simp only [F64.lt, signedMant, decide_eq_true_eq, Bool.false_eq_true, if_false, Nat.cast_lt, Nat.one_mul] at h
  have hscaled : (m : ℚ) * 2 ^ (e - min e j).toNat < 2 ^ ((j : Int) - min e j).toNat := by exact_mod_cast h
  calc (m : ℚ) * 2 ^ e = m * 2 ^ (e - min e j).toNat * 2 ^ min e j := by
        rw [zpow_eq_pow_toNat_mul (min_le_left e j), mul_assoc]
    _ < 2 ^ ((j : Int) - min e j).toNat * 2 ^ min e j := by gcongr
    _ = 2 ^ j := by rw [← zpow_eq_pow_toNat_mul (min_le_right e j), zpow_natCast]

/-- A value at least 0 is +infinity, or finite, and with the sign set it is a zero. -/
theorem zero_le_cases {x : F64} (h : F64.zero.le x = true) :
    x = .inf false ∨ ∃ s m e, x = .fin s m e ∧ (s = true → m = 0) := by
  cases x with
  | nan => simp [F64.le, F64.isNan] at h
  | inf s =>
    cases s with
    | false => exact .inl rfl
    | true => simp [F64.le, F64.isNan, F64.lt, F64.zero] at h
  | fin s m e =>
    refine .inr ⟨s, m, e, rfl, ?_⟩
    rintro rfl
    by_contra hm
    simp [F64.le, F64.isNan, F64.lt, F64.zero, signedMant] at h
    omega

/-- A value from 0 up to a power of two is finite, with a magnitude below that power. -/
theorem finite_of_bounds {x : F64} {j : Nat} (hle : F64.zero.le x = true) (hlt : x.lt (.fin false 1 j) = true) :
    ∃ s m e, x = .fin s m e ∧ (m : ℚ) * 2 ^ e < 2 ^ j := by
  rcases zero_le_cases hle with rfl | ⟨s, m, e, rfl, hsign⟩
  · simp [F64.lt] at hlt
  · refine ⟨s, m, e, rfl, ?_⟩
    cases s with
    | false => exact fin_lt_twoPow hlt
    | true => simp [hsign rfl]

/-- A size that converts is not cut off by its register. -/
theorem toNat_ofNat_trunc {x : F64} {j : Nat} (hle : F64.zero.le x = true) (hlt : x.lt (.fin false 1 j) = true) :
    (BitVec.ofNat j x.truncToNat).toNat = x.truncToNat := by
  obtain ⟨s, m, e, rfl, hvalue⟩ := finite_of_bounds hle hlt
  rw [truncToNat_fin, BitVec.toNat_ofNat, Nat.mod_eq_of_lt]
  rw [Nat.floor_lt (by positivity)]
  exact_mod_cast hvalue

/-! ### Roundings as numbers -/

/-- A natural number within half a unit of another is that one. -/
theorem nat_eq_of_within_half {m n : Nat} (hbelow : (m : ℚ) - 1 / 2 ≤ n) (habove : (n : ℚ) ≤ m + 1 / 2) : m = n := by
  have hlo : (m : ℚ) < n + 1 := by linarith
  have hhi : (n : ℚ) < m + 1 := by linarith
  have hlo : m < n + 1 := by exact_mod_cast hlo
  have hhi : n < m + 1 := by exact_mod_cast hhi
  omega

/-- A significand of 53 bits at a lower exponent is at least half a unit below 2^52 units. -/
theorem value_le_of_exponent_lt {m : Nat} {e e' : Int} (hm : m < 2 ^ 53) (he : e' < e) :
    (m : ℚ) * 2 ^ e' ≤ (2 ^ 52 - 1 / 2) * 2 ^ e := by
  have hcast : (m : ℚ) + 1 ≤ 2 ^ 53 := by exact_mod_cast hm
  have hmant : (m : ℚ) ≤ 2 ^ 53 - 1 := by linarith
  calc (m : ℚ) * 2 ^ e' ≤ (2 ^ 53 - 1) * 2 ^ (e - 1) := by
        gcongr
        · norm_num
        · omega
    _ = (2 ^ 52 - 1 / 2) * 2 ^ e := by
        rw [zpow_sub_one₀ two_ne_zero]
        ring

/-- Above the least exponent a rounding has a significand of 53 bits. -/
theorem isRounding_mant_ge {num den m : Nat} {e : Int} (h : IsRounding num den m e) (he : -1074 < e) : 2 ^ 52 ≤ m := by
  by_contra hlt
  have := h.subnormal (not_le.1 hlt)
  omega

section Rounding
variable {num den m : Nat} {e : Int} (hden : 0 < den) (h : IsRounding num den m e)
include hden h

/-- A rounding is within half a unit. -/
theorem isRounding_bounds : ((m : ℚ) - 1 / 2) * 2 ^ e ≤ num / den ∧ (num / den : ℚ) ≤ (m + 1 / 2) * 2 ^ e := by
  have hsnd : (0 : ℚ) < (scaledFraction num den e).2 := by exact_mod_cast scaledFraction_snd_pos hden num e
  have hpow : (0 : ℚ) < 2 ^ e := by positivity
  have habove : (2 * (scaledFraction num den e).1 : ℚ) ≤ (2 * m + 1) * (scaledFraction num den e).2 := by
    exact_mod_cast h.nearest.le_half_above
  have hbelow : (2 * m * (scaledFraction num den e).2 : ℚ) ≤
      2 * (scaledFraction num den e).1 + (scaledFraction num den e).2 := by
    exact_mod_cast h.nearest.le_half_below
  rw [← le_div_iff₀ hpow, ← div_le_iff₀ hpow, ← scaledFraction_div, le_div_iff₀ hsnd, div_le_iff₀ hsnd]
  constructor <;> linarith

/-- At the foot of a binade it is within a quarter of a unit from below. -/
theorem isRounding_foot_bound (hm : m = 2 ^ 52) (he : -1074 < e) : ((m : ℚ) - 1 / 4) * 2 ^ e ≤ num / den := by
  have hsnd : (0 : ℚ) < (scaledFraction num den e).2 := by exact_mod_cast scaledFraction_snd_pos hden num e
  have hfoot : (4 * m * (scaledFraction num den e).2 : ℚ) ≤
      4 * (scaledFraction num den e).1 + (scaledFraction num den e).2 := by
    exact_mod_cast h.foot hm he
  rw [← le_div_iff₀ (by positivity), ← scaledFraction_div, le_div_iff₀ hsnd]
  linarith

/-- A rational with a significand of 53 bits at an exponent that is not too small is its own rounding. -/
theorem isRounding_value_eq {m' : Nat} {e' : Int} (hm' : m' < 2 ^ 53) (he' : -1074 ≤ e')
    (hx : (num / den : ℚ) = m' * 2 ^ e') : (m : ℚ) * 2 ^ e = m' * 2 ^ e' := by
  have hpow : (0 : ℚ) < 2 ^ e := by positivity
  obtain ⟨hbelow, habove⟩ := isRounding_bounds hden h
  rw [hx] at hbelow habove
  rcases le_or_gt e e' with hle | hgt
  · have hunits : (m' : ℚ) * 2 ^ e' = (m' * 2 ^ (e' - e).toNat : Nat) * 2 ^ e := by
      rw [zpow_eq_pow_toNat_mul hle, Nat.cast_mul, Nat.cast_pow, Nat.cast_ofNat, mul_assoc]
    rw [hunits, mul_le_mul_iff_left₀ hpow] at hbelow habove
    rw [hunits, nat_eq_of_within_half hbelow habove]
  · have hsmall := value_le_of_exponent_lt hm' hgt
    rcases (isRounding_mant_ge h (by omega)).eq_or_lt with heq | hlt
    · have hfoot := isRounding_foot_bound hden h heq.symm (by omega)
      rw [hx, ← heq] at hfoot
      push_cast at hfoot
      linarith
    · have hcast : (2 : ℚ) ^ 52 + 1 ≤ m := by exact_mod_cast hlt
      have : ((2 : ℚ) ^ 52 + 1 / 2) * 2 ^ e ≤ (m - 1 / 2) * 2 ^ e := by
        gcongr
        linarith
      linarith

/-- A rational below 1/2 rounds to less than 1. -/
theorem isRounding_lt_one (hx : (num / den : ℚ) < 1 / 2) : (m : ℚ) * 2 ^ e < 1 := by
  rcases le_or_gt e (-53) with he | he
  · have hm : (m : ℚ) < 2 ^ 53 := by exact_mod_cast h.mant_lt
    calc (m : ℚ) * 2 ^ e < 2 ^ 53 * 2 ^ e := by gcongr
      _ ≤ 2 ^ 53 * 2 ^ (-53 : Int) := by gcongr; norm_num
      _ = 1 := by norm_num
  · exfalso
    have hm : (2 : ℚ) ^ 52 ≤ m := by exact_mod_cast isRounding_mant_ge h (by omega)
    have hhalf : (1 / 2 : ℚ) ≤ (m - 1 / 2) * 2 ^ e := by
      calc (1 / 2 : ℚ) ≤ (2 ^ 52 - 1 / 2) * 2 ^ (-52 : Int) := by norm_num
        _ ≤ (m - 1 / 2) * 2 ^ e := by
          gcongr
          · linarith
          · norm_num
          · omega
    linarith [(isRounding_bounds hden h).1]

end Rounding

/-! ### Quotients -/

/-- A finite quotient has a significand of 53 bits (00_scope R10). -/
theorem div_mant_lt {a b : F64} {s : Bool} {m : Nat} {e : Int} (h : a.div b = .fin s m e) : m < 2 ^ 53 := by
  cases a with
  | nan => cases h
  | inf => cases b <;> cases h
  | fin s₁ m₁ e₁ =>
    cases b with
    | nan => cases h
    | inf =>
      cases h
      decide
    | fin s₂ m₂ e₂ =>
      rw [F64.div] at h
      split at h
      · split at h <;> cases h
      · next hm₂ =>
        obtain ⟨m', e', hpack, hround⟩ := roundQuot_eq_pack (s₁ != s₂) (m₁ * 2 ^ (e₁ - e₂).toNat)
          (Nat.mul_pos (Nat.pos_of_ne_zero hm₂) (Nat.two_pow_pos (-(e₁ - e₂)).toNat))
        obtain ⟨-, rfl, -⟩ := eq_of_pack_eq_fin (hpack.symm.trans h)
        exact hround.mant_lt

/-- The quotient of a finite value by 8 is a rounding of an eighth of its magnitude, which is finite too. -/
theorem div_eight_eq {s : Bool} {m : Nat} {e : Int} (hlt : (m : ℚ) * 2 ^ e < 2 ^ 64) :
    ∃ (num den m' : Nat) (e' : Int), 0 < den ∧ (num / den : ℚ) = m * 2 ^ (e - 3) ∧ IsRounding num den m' e' ∧
      (F64.fin s m e).div (.fin false 1 3) = .fin (s != false) m' e' := by
  have hden : 0 < 1 * 2 ^ (-(e - 3)).toNat := Nat.mul_pos Nat.one_pos (Nat.two_pow_pos _)
  have hx : ((m * 2 ^ (e - 3).toNat : Nat) / (1 * 2 ^ (-(e - 3)).toNat : Nat) : ℚ) = m * 2 ^ (e - 3) := by
    have hscaled := scaledFraction_div m 1 (-(e - 3))
    rw [scaledFraction, neg_neg, zpow_neg, div_inv_eq_mul, Nat.cast_one, div_one] at hscaled
    exact hscaled
  obtain ⟨m', e', hpack, hround⟩ := roundQuot_eq_pack (s != false) (m * 2 ^ (e - 3).toNat) hden
  refine ⟨_, _, m', e', hden, hx, hround, ?_⟩
  have he' : ¬ 971 < e' := by
    intro hover
    have hbig : ((2 ^ 54 - 1 : Nat) * 2 ^ 970 * (1 * 2 ^ (-(e - 3)).toNat : Nat) : ℚ) ≤ (m * 2 ^ (e - 3).toNat : Nat) := by
      exact_mod_cast hround.overflow hover
    rw [← le_div_iff₀ (by exact_mod_cast hden), hx] at hbig
    have hle : (m : ℚ) * 2 ^ (e - 3) ≤ m * 2 ^ e := by gcongr; norm_num; omega
    have hhuge : (1 : ℚ) * 2 ^ 64 ≤ (2 ^ 54 - 1 : Nat) * 2 ^ 970 := by gcongr <;> norm_num
    rw [one_mul] at hhuge
    exact absurd (hhuge.trans (hbig.trans hle)) (not_le.2 hlt)
  rw [F64.div, if_neg one_ne_zero, hpack, F64.pack, if_neg he']

/-- Dividing by 8 and truncating is truncating and dividing by 8. -/
theorem trunc_div_eight {s : Bool} {m : Nat} {e : Int} (hm : m < 2 ^ 53) (hlt : (m : ℚ) * 2 ^ e < 2 ^ 64) :
    ((F64.fin s m e).div (.fin false 1 3)).truncToNat = (F64.fin s m e).truncToNat / 8 := by
  obtain ⟨num, den, m', e', hden, hx, hround, hdiv⟩ := div_eight_eq (s := s) hlt
  have heighth : (m : ℚ) * 2 ^ (e - 3) = m * 2 ^ e / 8 := by
    rw [zpow_sub₀ two_ne_zero]
    norm_num
    ring
  rw [hdiv, truncToNat_fin, truncToNat_fin]
  rcases le_or_gt (-1071) e with he | he
  · have hexact := isRounding_value_eq hden hround (e' := e - 3) hm (by omega) hx
    rw [hexact, heighth]
    exact Nat.floor_div_ofNat _ 8
  · have hsmall : (m : ℚ) * 2 ^ e < 1 := by
      have hm : (m : ℚ) < 2 ^ 53 := by exact_mod_cast hm
      calc (m : ℚ) * 2 ^ e ≤ m * 2 ^ (-53 : Int) := by gcongr; norm_num; omega
        _ < 2 ^ 53 * 2 ^ (-53 : Int) := by gcongr
        _ = 1 := by norm_num
    have hfloor : ⌊(m : ℚ) * 2 ^ e⌋₊ = 0 := Nat.floor_eq_zero.2 hsmall
    rw [hfloor, Nat.zero_div, Nat.floor_eq_zero]
    refine isRounding_lt_one hden hround ?_
    rw [hx, heighth]
    linarith

/-- What sizes that convert are (42_filter_engine R181, R183). -/
theorem sizing_eq_some {ln : Word → Word} {n p : Word} {k : Byte} {m : Word} (h : sizing ln n p = some (k, m)) :
    (F64.zero.le (bitCountF ln n p) = true ∧ (bitCountF ln n p).lt F64.twoPow64 = true) ∧
    (F64.zero.le (hashRoundsF ln n p) = true ∧ (hashRoundsF ln n p).lt F64.twoPow8 = true) ∧
    k = BitVec.ofNat 8 (hashRoundsF ln n p).truncToNat ∧ m = BitVec.ofNat 64 (bitCountF ln n p).truncToNat := by
  simp only [sizing, Option.ite_none_right_eq_some, Bool.and_eq_true, Option.some.injEq, Prod.mk.injEq] at h
  obtain ⟨-, ⟨⟨⟨hb0, hb1⟩, hh0⟩, hh1⟩, rfl, rfl⟩ := h
  exact ⟨⟨hb0, hb1⟩, ⟨hh0, hh1⟩, rfl, rfl⟩

/-- Settles O27: the sizes' checks keep the truncations within the registers, and the quotient by 8 is exact or below 1. -/
theorem lengthIsFloorOfEstimate : Obligations.LengthIsFloorOfEstimate := by
  unfold Obligations.LengthIsFloorOfEstimate
  intro ln n p k m h
  obtain ⟨⟨hb0, hb1⟩, ⟨hh0, hh1⟩, rfl, rfl⟩ := sizing_eq_some h
  have hbits := toNat_ofNat_trunc hb0 hb1
  refine ⟨toNat_ofNat_trunc hh0 hh1, hbits, ?_⟩
  rw [byteLen_eq_div, hbits]
  obtain ⟨s, mant, e, heq, hlt⟩ := finite_of_bounds hb0 hb1
  rw [heq, trunc_div_eight (div_mant_lt heq) hlt]

end Sys2Proof.Proofs.Sizing
end

section
/-! The stored filter's bytes (30_encoding R99 to R105, 43_codec R221, R222): O44, and the fields that DECODE reads from a
header. -/
namespace Sys2Proof.Proofs.StoredFilter
open Sys2Proof Sys2Proof.Machine Sys2Proof.Proofs.Moves Sys2Proof.Proofs.Encoding

/-- The 16 header bytes of a stored filter, byte 6 free: DECODE ignores it (30_encoding R100 to R103). -/
def header (magic : Magic) (b6 k : Byte) (m : Word) : List Byte :=
  magic.bytes ++ [0x00#8, 0x01#8, b6, k] ++ be64Bytes m

/-- BUF's L bytes in index order (43_codec R222). -/
def bodyBytes (s : State) : List Byte := (List.range s.bufLen).map fun i => Memory.read i s.buf

/-! ### The layout -/

/-- ENCODE writes version 1 and K's upper byte as 0x00 (43_codec R221). -/
theorem headerBytes_eq_header (s : State) : headerBytes s = header s.params.magic 0x00#8 s.k s.m := rfl

theorem storedFilter_eq (s : State) : storedFilter s = header s.params.magic 0x00#8 s.k s.m ++ bodyBytes s := by
  have hheader : (List.range headerLen).map (storedByte s) = headerBytes s := rfl
  have hbody (i : Nat) : storedByte s (headerLen + i) = Memory.read i s.buf := by
    simp [storedByte, readByte]
  simp [storedFilter, storedLen, List.range_add, hheader, hbody, headerBytes_eq_header, bodyBytes]

@[simp] theorem bodyBytes_length (s : State) : (bodyBytes s).length = s.bufLen := by
  simp [bodyBytes]

/-- A byte sequence of L bytes that BUF reads as is the stored filter's body. -/
theorem bodyBytes_eq {s : State} {body : List Byte} (hlen : body.length = s.bufLen)
    (hread : ∀ i, Memory.read i s.buf = body.getD i 0x00#8) : bodyBytes s = body := by
  refine List.ext_getElem (by rw [bodyBytes_length, hlen]) fun i _ hi => ?_
  simp [bodyBytes, hread, hi]

/-- A canonical BUF of L bytes is what LOADBYTE of the stored filter's body builds (43_codec R234). -/
theorem loadAll_bodyBytes {s : State} (hwf : Memory.wf s.buf = true) (hbelow : Memory.below s.bufLen s.buf = true) :
    loadAll (bodyBytes s) = s.buf := by
  refine Memory.ext_read (wf_loadAll _) hwf fun a => ?_
  rw [read_loadAll]
  rcases Nat.lt_or_ge a s.bufLen with ha | ha
  · simp [bodyBytes, ha]
  · rw [read_of_below ha hbelow, List.getD_eq_default _ _ (by rwa [bodyBytes_length])]

/-- Settles O44: the header's fields written out, and BUF's bytes. -/
theorem storedFilterLayout : Obligations.StoredFilterLayout := by
  unfold Obligations.StoredFilterLayout
  exact storedFilter_eq

/-! ### The fields of a header -/

theorem beNat_concat (bs : List Byte) (b : Byte) : beNat (bs ++ [b]) = beNat bs * 256 + b.toNat := by
  simp [beNat]

theorem beNat_lt (bs : List Byte) : beNat bs < 256 ^ bs.length := by
  induction bs using List.reverseRecOn with
  | nil => exact Nat.one_pos
  | append_singleton bs b ih =>
    rw [beNat_concat, List.length_append, List.length_singleton, pow_succ]
    omega

/-- Version 1 is the bytes 0x00 0x01 and no others (30_encoding R101). -/
theorem headerVersion_eq_version_iff {hdr : List Byte} (hlen : hdr.length = headerLen) :
    headerVersion hdr = version ↔ (hdr.drop 4).take 2 = [0x00#8, 0x01#8] := by
  have htwo : ((hdr.drop 4).take 2).length = 2 := by simp [hlen, headerLen]
  obtain ⟨a, b, hab⟩ := List.length_eq_two.1 htwo
  simp only [headerVersion, version, hab, beNat, List.foldl_cons, List.foldl_nil, List.cons.injEq, and_true]
  bv_omega

/-- A header's M has the bitCount field's value, and so the byte length bitCount / 8 (30_encoding R103). -/
theorem byteLen_headerM {hdr : List Byte} (hlen : hdr.length = headerLen) :
    byteLen (headerM hdr) = beNat (hdr.drop 8) / 8 := by
  have hsize : (hdr.drop 8).length = 8 := by rw [List.length_drop, hlen, headerLen]
  have hlt : beNat (hdr.drop 8) < 2 ^ 64 := by simpa [hsize] using beNat_lt (hdr.drop 8)
  rw [byteLen_eq_div, headerM, List.take_of_length_le hsize.le, BitVec.toNat_ofNat, Nat.mod_eq_of_lt hlt]

section Header
variable (magic : Magic) (b6 k : Byte) (m : Word)

@[simp] theorem header_length : (header magic b6 k m).length = headerLen := rfl

@[simp] theorem header_take_magic : (header magic b6 k m).take 4 = magic.bytes := rfl

@[simp] theorem headerVersion_header : headerVersion (header magic b6 k m) = version :=
  (headerVersion_eq_version_iff rfl).2 rfl

@[simp] theorem headerK_header : headerK (header magic b6 k m) = k := rfl

@[simp] theorem headerM_header : headerM (header magic b6 k m) = m := by
  have hfield : ((header magic b6 k m).drop 8).take 8 = be64Bytes m := rfl
  have hvalue : beNat (be64Bytes m) = m.toNat := (headerBitCountRoundTrip m).1
  rw [headerM, hfield, hvalue, BitVec.ofNat_toNat, BitVec.setWidth_eq]

end Header

end Sys2Proof.Proofs.StoredFilter
end

section
/-! ENCODE (43_codec R220 to R226): what it delivers when its beats are taken or one fails (O43, O45), and what it leaves alone
(O47). -/
namespace Sys2Proof.Proofs.Encode
open Sys2Proof Sys2Proof.Machine Sys2Proof.Proofs.Streams

/-- The codec state that a command which completes with ERR = 0x00 has reached (43_codec R226, R237). -/
theorem codecReached_of_exec {i : Instr} {s t : State} (hs : s.engine = .idle) (h : exec i s = .next t)
    (hidle : t.engine = .idle) (herr : t.err = 0x00#8) :
    (accept (.instr i) s).codecReached = finalCodecState (.instr i) := by
  cases (exec_idle hs i).symm.trans h
  simp [State.codecReached, (busy_eq_false_iff _).2 hidle, herr, Engine.opcode]

/-- ENCODE of a usable block ends as the offering of its beats does (43_codec R220, R223). -/
theorem exec_encode {s : State} {beats : List OutBeat} {stop : SendStop} {left : List Response} (hs : s.Usable)
    (hsend : sendBeats (storedByte s) (storedLen s) 0 s.answers = (beats, stop, left)) :
    exec .encode s = .next (stopSending stop { s with outLog := s.outLog ++ beats, answers := left }) := by
  have hpass : encodeRun (accept (.instr .encode) s) = sendRun 0 (accept (.instr .encode) s) :=
    withChecks_pass ((refusal_accept ..).trans (refusal_usable hs .encode)) _
  have hrun := sendRun_eq 0 s.outLog s.answers (.accepted (.instr .encode)) s
  rw [hsend] at hrun
  exact (exec_idle hs.idle _).trans (congrArg _ (hpass.trans hrun))

/-- With 16 + L answers that take, ENCODE delivers the stored filter's beats (43_codec R220). -/
theorem exec_encode_sent {s : State} {as : List Response} (hs : s.Usable)
    (has : s.answers = List.replicate (16 + s.bufLen) Response.take ++ as) :
    exec .encode s = .next { s with
      answers := as, outLog := s.outLog ++ storedBeats s, err := 0x00#8, result := false } := by
  have hlen : storedLen s = 0 + (15 + s.bufLen) + 1 := by rw [storedLen, headerLen]; omega
  have hcount : 16 + s.bufLen = 15 + s.bufLen + 1 := by omega
  have hsend : sendBeats (storedByte s) (storedLen s) 0 s.answers = (storedBeats s, .sent, as) := by
    rw [has, storedBeats_eq, hcount, hlen, sendBeats_sent, Nat.zero_add]
  rw [exec_encode hs hsend]
  simp [stopSending, complete, hs.idle]

theorem storedBeats_map_data (s : State) : (storedBeats s).map OutBeat.data = storedFilter s := by
  simp [storedBeats, storedFilter]

/-- Settles O43: the beats are the stored filter's. -/
theorem encodeDeliversStoredFilter : Obligations.EncodeDeliversStoredFilter := by
  unfold Obligations.EncodeDeliversStoredFilter
  intro s as hs has
  have hexec := exec_encode_sent hs has
  refine ⟨storedBeats s, hexec, storedBeats_map_data s, fun j b hj => ?_, codecReached_of_exec hs.idle hexec hs.idle rfl⟩
  obtain ⟨-, rfl⟩ := List.getElem?_eq_some_iff.1 hj
  simp only [storedBeats, List.getElem_map, List.getElem_range, decide_eq_true_eq, storedLen, headerLen]
  omega

/-- Settles O45: the beats before the failing one have been taken. -/
theorem encodeWriteFailure : Obligations.EncodeWriteFailure := by
  unfold Obligations.EncodeWriteFailure
  intro s n as hs hn has
  have hlen : n < storedLen s := hn
  have hsend : sendBeats (storedByte s) (storedLen s) 0 s.answers = ((storedBeats s).take n, .failed, as) := by
    rw [has, sendBeats_failed _ (by rwa [Nat.zero_add]), storedBeats_take hlen.le]
  rw [exec_encode hs hsend]
  simp [stopSending, raiseError, hs.idle, errIo]

/-- All that ENCODE can do to a state. -/
inductive EncodeEffect (s : State) : State → Prop
  | mk (err : Byte) (result : Bool) (engine : Engine) (answers : List Response) (beats : List OutBeat) :
    EncodeEffect s { s with
      err := err, result := result, engine := engine, answers := answers, outLog := s.outLog ++ beats }

/-- A refused ENCODE, and one whose word was written while BUSY = 1, deliver nothing. -/
theorem EncodeEffect.of_nothing_sent (s : State) (err : Byte) (result : Bool) (engine : Engine) :
    EncodeEffect s { s with err := err, result := result, engine := engine } := by
  simpa using EncodeEffect.mk (s := s) err result engine s.answers []

theorem sendRun_effect (s : State) : EncodeEffect s (sendRun 0 s) := by
  rw [sendRun]
  dsimp only
  split <;> exact .mk ..

theorem encodeRun_effect (s : State) : EncodeEffect s (encodeRun s) := by
  rcases withChecks_cases (i := .encode) rfl (sendRun 0) s with ⟨code, hrun⟩ | hrun
  · rw [encodeRun, hrun]
    exact .of_nothing_sent s code false .idle
  · rw [encodeRun, hrun]
    exact sendRun_effect s

/-- An effect overwrites the hidden state that acceptance gave. -/
theorem EncodeEffect.of_accept {c : Command} {s t : State} (h : EncodeEffect (accept c s) t) : EncodeEffect s t := by
  cases h
  exact .mk ..

theorem encodeExec_effect {s t : State} (h : exec .encode s = .next t) : EncodeEffect s t := by
  rcases exec_cases h with rfl | ⟨-, rfl⟩
  · exact .of_nothing_sent t t.err t.result t.engine
  · exact (encodeRun_effect _).of_accept

/-- Settles O47: ENCODE ends or waits, and the beats taken are appended. -/
theorem encodeFrame : Obligations.EncodeFrame := by
  unfold Obligations.EncodeFrame
  intro s t h
  cases encodeExec_effect h with
  | mk err result engine answers beats => exact ⟨rfl, fun _ => rfl, beats, rfl⟩

end Sys2Proof.Proofs.Encode
end

section
/-! DECODE (43_codec R230 to R240): O48 to O53. A packet is read in two parts, the header and the body (`headerRun_filled`,
`bodyRun_filled`), either of which may be cut short; a failure of either, or of a check, is `failDecode`. What DECODE can do on
any stream is said once (`decodeExec_effect`). -/
namespace Sys2Proof.Proofs.Decode
open Sys2Proof Sys2Proof.Machine Sys2Proof.Proofs.Moves Sys2Proof.Proofs.Streams Sys2Proof.Proofs.Refusals
open Sys2Proof.Proofs.FilterEngine Sys2Proof.Proofs.StoredFilter Sys2Proof.Proofs.Encode

/-! ### A packet read in parts -/

/-- The first bytes of a packet are DATA beats, and the other bytes are a packet after them. -/
theorem offersPacket_append {beats rest : List InBeat} {w w' : List Byte} {term : Beat}
    (h : OffersPacket beats (w ++ w') term rest) :
    ∃ ds beats', beats = ds ++ beats' ∧ ds.map InBeat.beat = w.map Beat.data ∧ OffersPacket beats' w' term rest := by
  obtain ⟨ds, e, rfl, hds, hterm⟩ := h
  rw [List.map_append] at hds
  obtain ⟨ds₁, ds₂, rfl, h₁, h₂⟩ := List.map_eq_append_iff.1 hds
  exact ⟨ds₁, ds₂ ++ e :: rest, List.append_assoc .., h₁, ds₂, e, rfl, h₂, hterm⟩

/-- The code of a packet cut short: `code` at END, IO_ERROR at ERR (43_codec R231, R234). -/
def shortCode (code : Byte) (term : Beat) : Byte := if term = .endOfPacket then code else errIo

section Run
variable {s : State} {term : Beat} {rest : List InBeat}

theorem headerRun_filled {hdr more : List Byte} (hlen : hdr.length = headerLen)
    (hp : OffersPacket s.inStream (hdr ++ more) term rest) :
    ∃ beats, OffersPacket beats more term rest ∧ headerRun [] s = validateHeader hdr { s with inStream := beats } := by
  obtain ⟨ds, beats, hin, hds, hmore⟩ := offersPacket_append hp
  have htake := takeData_filled hds beats
  rw [hlen, ← hin] at htake
  exact ⟨beats, hmore, by simp [headerRun, htake]⟩

theorem headerRun_short {bytes : List Byte} (hlen : bytes.length < headerLen)
    (hp : OffersPacket s.inStream bytes term rest) :
    headerRun [] s = failDecode (shortCode errTruncHeader term) { s with inStream := rest } := by
  have htake := takeData_short hp hlen
  by_cases hterm : term = .endOfPacket <;> simp [headerRun, htake, hterm, shortCode]

/-- After a whole body the rest of the packet is drained (43_codec R234, R235). -/
theorem bodyRun_filled {k : Byte} {m : Word} {body extra : List Byte} (hlen : body.length = byteLen m)
    (hp : OffersPacket s.inStream (body ++ extra) term rest) :
    bodyRun k m [] s = finishPacket (.load k m body) { s with inStream := rest } := by
  obtain ⟨ds, beats, hin, hds, hextra⟩ := offersPacket_append hp
  have htake := takeData_filled hds beats
  rw [hlen, ← hin] at htake
  have hdrain := drainRun_packet (s := { s with inStream := beats }) hextra .decode (.load k m body)
  simp [bodyRun, htake, hdrain]

theorem bodyRun_short {k : Byte} {m : Word} {body : List Byte} (hlen : body.length < byteLen m)
    (hp : OffersPacket s.inStream body term rest) :
    bodyRun k m [] s = failDecode (shortCode errTruncBody term) { s with inStream := rest } := by
  have htake := takeData_short hp hlen
  by_cases hterm : term = .endOfPacket <;> simp [bodyRun, htake, hterm, shortCode]

/-- A header of this format with a body that fits passes the checks (43_codec R232, R233). -/
theorem validateHeader_header {b6 k : Byte} {m : Word} (hcap : byteLen m ≤ s.params.maxBufBytes) :
    validateHeader (header s.params.magic b6 k m) s = bodyRun k m [] s := by
  simp [validateHeader, Nat.not_lt.2 hcap]

/-- A valid header leads to the body behind it. -/
theorem headerRun_header {b6 k : Byte} {m : Word} {more : List Byte} (hcap : byteLen m ≤ s.params.maxBufBytes)
    (hp : OffersPacket s.inStream (header s.params.magic b6 k m ++ more) term rest) :
    ∃ beats, OffersPacket beats more term rest ∧ headerRun [] s = bodyRun k m [] { s with inStream := beats } := by
  obtain ⟨beats, hmore, hrun⟩ := headerRun_filled rfl hp
  exact ⟨beats, hmore, hrun.trans (validateHeader_header (s := { s with inStream := beats }) hcap)⟩

/-! ### DECODE of a ready block -/

/-- DECODE passes its pre-check in any ready block. -/
theorem exec_decode (hs : s.Ready) : exec .decode s = .next (headerRun [] s) :=
  (onAccept_idle hs.idle ..).trans (congrArg _
    ((withChecks_pass ((refusal_accept ..).trans (refusal_ready hs rfl)) _).trans (headerRun_engine ..)))

/-- DECODE of a valid stored filter loads it (43_codec R234, R235). -/
theorem exec_decode_load (hs : s.Ready) {b6 k : Byte} {m : Word} {body extra : List Byte} (hlen : body.length = byteLen m)
    (hcap : byteLen m ≤ s.params.maxBufBytes)
    (hp : OffersPacket s.inStream (header s.params.magic b6 k m ++ (body ++ extra)) term rest) :
    exec .decode s = .next { s with
      inStream := rest, k := k, m := m, buf := loadAll body, insertedCount := 0#64, cfgValid := true, err := 0x00#8
      result := false } := by
  obtain ⟨beats, hbody, hrun⟩ := headerRun_header hcap hp
  rw [exec_decode hs, hrun, bodyRun_filled (s := { s with inStream := beats }) hlen hbody]
  simp [finishPacket, complete, configure, hs.idle]

/-- A failed DECODE leaves no filter (43_codec R236). -/
theorem exec_decode_fail (hs : s.Ready) {code : Byte} (hrun : headerRun [] s = failDecode code { s with inStream := rest }) :
    ∃ (b : Memory) (d : Nat), exec .decode s = .next { s with
      inStream := rest, k := 0#8, m := 0#64, insertedCount := 0#64, cfgValid := false, buf := b, draws := d, err := code
      result := false } := by
  refine ⟨freeBuf s, s.draws + 1, ?_⟩
  rw [exec_decode hs, hrun]
  simp [failDecode, finishPacket, raiseError, unconfigure, freeBuf, hs.idle]

end Run

/-- Settles O48: the header's fields are K and M, and LOADBYTE of the body is BUF. -/
theorem decodeLoadsFilter : Obligations.DecodeLoadsFilter := by
  unfold Obligations.DecodeLoadsFilter
  intro s b6 k m body extra term rest hs hlen hcap hp
  rw [List.append_assoc] at hp
  have hexec := exec_decode_load hs hlen hcap hp
  refine ⟨loadAll body, hexec, read_loadAll body, ?_, codecReached_of_exec hs.idle hexec hs.idle rfl⟩
  rw [storedFilter_eq, bodyBytes_eq hlen (read_loadAll body)]
  rfl

/-- Settles O49: the terminator comes before the header is whole. -/
theorem decodeShortHeader : Obligations.DecodeShortHeader := by
  unfold Obligations.DecodeShortHeader
  intro s bytes term rest hs hlen hp
  exact exec_decode_fail hs (headerRun_short hlen hp)

/-- Settles O50: the first check that fails drains the packet. -/
theorem decodeRejectsHeader : Obligations.DecodeRejectsHeader := by
  unfold Obligations.DecodeRejectsHeader
  intro s hdr more term rest hs hlen hp code hcode
  obtain ⟨beats, hmore, hrun⟩ := headerRun_filled hlen hp
  have hreject : validateHeader hdr { s with inStream := beats } =
      drainRun .decode (.fail code) headerLen { s with inStream := beats } := by
    have hversion := headerVersion_eq_version_iff hlen
    have hbytes := byteLen_headerM hlen
    rcases hcode with ⟨hmagic, rfl⟩ | ⟨hmagic, hver, rfl⟩ | ⟨hmagic, hver, hcap, rfl⟩
    · simp [validateHeader, hmagic, errBadMagic]
    · simp [validateHeader, hmagic, hversion, hver, errBadVersion]
    · simp [validateHeader, hmagic, hversion, hver, hbytes, hcap, errCapacity]
  exact exec_decode_fail hs (hrun.trans (hreject.trans (drainRun_packet hmore ..)))

/-- Settles O51: the terminator comes before the body is whole. -/
theorem decodeShortBody : Obligations.DecodeShortBody := by
  unfold Obligations.DecodeShortBody
  intro s b6 k m body term rest hs hlen hcap hp
  obtain ⟨beats, hbody, hrun⟩ := headerRun_header hcap hp
  exact exec_decode_fail hs (hrun.trans (bodyRun_short (s := { s with inStream := beats }) hlen hbody))

/-! ### All that DECODE can do -/

/-- The codes of a DECODE failure (43_codec R236). -/
def failureCodes : List Byte := [errTruncHeader, errBadMagic, errBadVersion, errTruncBody, errIo, errCapacity]

/-- All that the work of a DECODE past its pre-check can do to a state. -/
inductive DecodeEffect (s : State) : State → Prop
  /-- DECODE waits for the rest of its packet. -/
  | wait {e : Engine} (ins : List InBeat) (busy : e ≠ .idle) : DecodeEffect s { s with engine := e, inStream := ins }
  /-- A failure (43_codec R236). -/
  | fail {code : Byte} (rest : List InBeat) (listed : code ∈ failureCodes) :
    DecodeEffect s (failDecode code { s with inStream := rest })
  /-- A stored filter has been loaded (43_codec R234). -/
  | load (k : Byte) (m : Word) (b : Memory) (rest : List InBeat) :
    DecodeEffect s (complete false (configure k m b { s with inStream := rest }))

/-- The beats taken so far are no part of the effect. -/
theorem DecodeEffect.of_inStream {s t : State} {ins : List InBeat} (h : DecodeEffect { s with inStream := ins } t) :
    DecodeEffect s t := by
  cases h with
  | wait ins' busy => exact .wait ins' busy
  | fail rest listed => exact .fail rest listed
  | load k m b rest => exact .load k m b rest

theorem drainRun_fail_effect {code : Byte} (listed : code ∈ failureCodes) (n : Nat) (s : State) :
    DecodeEffect s (drainRun .decode (.fail code) n s) := by
  unfold drainRun
  split
  · exact .wait _ nofun
  · exact .fail _ listed

theorem drainRun_load_effect (k : Byte) (m : Word) (body : List Byte) (n : Nat) (s : State) :
    DecodeEffect s (drainRun .decode (.load k m body) n s) := by
  unfold drainRun
  split
  · exact .wait _ nofun
  · exact .load ..

theorem bodyRun_effect (k : Byte) (m : Word) (got : List Byte) (s : State) : DecodeEffect s (bodyRun k m got s) := by
  unfold bodyRun
  dsimp only
  split
  · exact (drainRun_load_effect ..).of_inStream
  · exact .wait _ nofun
  · exact .fail _ (by decide)
  · exact .fail _ (by decide)

theorem validateHeader_effect (hdr : List Byte) (s : State) : DecodeEffect s (validateHeader hdr s) := by
  unfold validateHeader
  split
  · exact drainRun_fail_effect (by decide) ..
  · split
    · exact drainRun_fail_effect (by decide) ..
    · split
      · exact drainRun_fail_effect (by decide) ..
      · exact bodyRun_effect ..

theorem headerRun_effect (got : List Byte) (s : State) : DecodeEffect s (headerRun got s) := by
  unfold headerRun
  dsimp only
  split
  · exact (validateHeader_effect ..).of_inStream
  · exact .wait _ nofun
  · exact .fail _ (by decide)
  · exact .fail _ (by decide)

theorem decodeExec_effect {s t : State} (hs : s.Ready) (h : exec .decode s = .next t) : DecodeEffect s t := by
  cases (exec_decode hs).symm.trans h
  exact headerRun_effect [] s

/-- A DECODE refused because of a fault waits for its packet's end or reports FAULTED (42_filter_engine R172). -/
theorem exec_decode_faulted {s t : State} (hs : s.engine = .idle) (hf : s.faulted = true) (h : exec .decode s = .next t) :
    (∃ e ins, e ≠ .idle ∧ t = { s with engine := e, inStream := ins }) ∨
      ∃ rest, t = { s with inStream := rest, err := 0x14#8, result := false } := by
  rcases offers_cases s.inStream with ⟨w, hopen⟩ | ⟨w, term, rest, hp⟩
  · obtain ⟨move, reads, hexec⟩ := exec_readsOn (i := .decode) rfl hs
    obtain ⟨e, he, -, hwait, -⟩ := (reads.data hopen).waits
    rw [List.append_nil] at hwait
    cases (hexec s.inStream).symm.trans h
    exact .inl ⟨e, [], he.ne_idle, hwait⟩
  · cases (exec_refused_packet hs (refusal_faulted hf .decode) rfl hp).symm.trans h
    exact .inr ⟨rest, rfl⟩

/-- Settles O52: of DECODE's ends only a failure has a code other than 0x00. -/
theorem decodeFailureUnconfigures : Obligations.DecodeFailureUnconfigures := by
  unfold Obligations.DecodeFailureUnconfigures
  constructor
  · intro s t hs h hb herr
    cases decodeExec_effect hs h with
    | wait ins busy => exact absurd ((busy_eq_false_iff _).1 hb) busy
    | fail rest listed => exact ⟨rfl, rfl, rfl, rfl, rfl, hs.unfaulted, listed⟩
    | load => exact absurd rfl herr
  · intro s t hs hf h hb
    rcases exec_decode_faulted hs hf h with ⟨e, ins, busy, rfl⟩ | ⟨rest, rfl⟩
    · exact absurd ((busy_eq_false_iff _).1 hb) busy
    · rfl

/-- Settles O53: only a failure and a load, both in an unfaulted block, write the filter's registers and BUF. -/
theorem decodeFrame : Obligations.DecodeFrame := by
  unfold Obligations.DecodeFrame
  intro s t h
  rcases exec_cases h with rfl | ⟨hs, -⟩
  · simp
  · cases hf : s.faulted with
    | true =>
      rcases exec_decode_faulted hs hf h with ⟨e, ins, -, rfl⟩ | ⟨rest, rfl⟩
      · simp [hf]
      · have hidle : s.busy = false := (busy_eq_false_iff s).2 hs
        exact ⟨rfl, rfl, hf, rfl, rfl, rfl, rfl, rfl, rfl, rfl, rfl, fun hb => absurd (hidle.symm.trans hb) nofun,
          fun _ => ⟨rfl, rfl, rfl, rfl, rfl, fun _ => rfl⟩⟩
    | false =>
      cases decodeExec_effect ⟨hs, hf⟩ h with
      | wait => simp [hf]
      | fail => exact ⟨rfl, rfl, hf, rfl, rfl, rfl, rfl, rfl, rfl, rfl, rfl, nofun, nofun⟩
      | load => exact ⟨rfl, rfl, hf, rfl, rfl, rfl, rfl, rfl, rfl, rfl, rfl, nofun, nofun⟩

end Sys2Proof.Proofs.Decode
end

section
/-! What ENCODE delivers, DECODE loads back (43_codec R241): O60. -/
namespace Sys2Proof.Proofs.CodecRoundTrip
open Sys2Proof Sys2Proof.Machine Sys2Proof.Proofs.StoredFilter Sys2Proof.Proofs.Encode Sys2Proof.Proofs.Decode

/-- Settles O60: the beats are the header and BUF's L bytes, and in canonical form these bytes are all of BUF. -/
theorem encodeDecodeRoundTrip : Obligations.EncodeDecodeRoundTrip := by
  unfold Obligations.EncodeDecodeRoundTrip
  intro s t u as beats rest hinv hs has ht hout hu hparams hp
  cases (exec_encode_sent hs has).symm.trans ht
  obtain rfl : storedBeats s = beats := List.append_cancel_left hout
  obtain ⟨hcap, hbelow⟩ := hinv.filter hs.configured
  rw [storedBeats_map_data, storedFilter_eq, ← hparams, ← List.append_nil (bodyBytes s)] at hp
  rw [exec_decode_load hu (bodyBytes_length s) (hparams ▸ hcap) hp, loadAll_bodyBytes hinv.bufWf hbelow]

end Sys2Proof.Proofs.CodecRoundTrip
end

section
/-! A held fault (60_exceptions R263): O8. While FAULTED = 1 every command stops at its pre-checks (42_filter_engine R172), so the
engine only takes beats and reports (`resume_held`), and of the host's interactions only a reset reaches the fault fields or the
filter (`hostTurn_held`). -/
namespace Sys2Proof.Proofs.HeldFault
open Sys2Proof Sys2Proof.Machine Sys2Proof.Proofs.Moves Sys2Proof.Proofs.Refusals

/-! ### The hidden states of a faulted block -/

/-- No command is past its pre-checks: none runs, or one has done nothing yet, or is refused and drains its packet. -/
inductive BeforeWork : Engine → Prop
  | idle : BeforeWork .idle
  | accepted (c : Command) : BeforeWork (.accepted c)
  | refusing (op : Instr) (code : Byte) (n : Nat) : BeforeWork (.drain op (.refuse code) n)

theorem beforeWork_of_engineOk {s : State} (hok : EngineOk s) (hf : s.faulted = true) : BeforeWork s.engine := by
  have working {P : Prop} (h : s.faulted = false) : P := absurd (h.symm.trans hf) Bool.false_ne_true
  cases he : s.engine with
  | idle => exact .idle
  | accepted c => exact .accepted c
  | drain op fin n =>
    obtain ⟨-, hfin⟩ := engineOk_at hok he
    cases fin with
    | refuse code => exact .refusing op code n
    | fail | load => exact working hfin.1
  | word | rounds | header | body | sending => exact working (engineOk_at hok he).1

/-! ### Moves that hold the fault -/

/-- The second state has the first one's FAULTED, fault fields, filter registers and BUF, and runs no command past its
pre-checks. ARG_N, ARG_P, ERR, RESULT, the streams and what the host does and gets may differ. -/
inductive FaultHeld (s : State) : State → Prop
  | mk {n p : Word} {code : Byte} {result : Bool} {e : Engine} {ins : List InBeat} {ans : List Response}
      {reads : List Word} {host : List HostEvent} {draws : Nat} (engine : BeforeWork e) :
    FaultHeld s { s with
      argN := n, argP := p, err := code, result := result, engine := e, inStream := ins, answers := ans, readLog := reads
      host := host, draws := draws }

theorem FaultHeld.trans {s t u : State} (h : FaultHeld s t) (h' : FaultHeld t u) : FaultHeld s u := by
  cases h
  cases h' with
  | mk engine => exact .mk engine

theorem FaultHeld.engine {s t : State} (h : FaultHeld s t) : BeforeWork t.engine := by
  cases h with
  | mk engine => exact engine

theorem FaultHeld.faulted {s t : State} (h : FaultHeld s t) : t.faulted = s.faulted := by
  cases h
  rfl

/-! ### The engine -/

theorem raiseError_held (code : Byte) (s : State) : FaultHeld s (raiseError code s) := .mk .idle

/-- A refused command waits for its packet's end, and then only reports (42_filter_engine R173). -/
theorem drainRun_refuse_held (i : Instr) (code : Byte) (n : Nat) (s : State) :
    FaultHeld s (drainRun i (.refuse code) n s) := by
  unfold drainRun
  split
  · exact .mk (.refusing i code _)
  · exact .mk .idle

/-- A faulted block refuses every command (42_filter_engine R172). -/
theorem withChecks_held {s : State} (hf : s.faulted = true) (i : Instr) (work : State → State) :
    FaultHeld s (withChecks i work s) := by
  have hr := refusal_faulted hf i
  cases hp : readsPacket i with
  | true =>
    rw [withChecks_refuse_drain hr hp]
    exact drainRun_refuse_held ..
  | false =>
    rw [withChecks_refuse hr hp]
    exact raiseError_held ..

theorem commandRun_held {s : State} (hf : s.faulted = true) (c : Command) : FaultHeld s (commandRun c s) := by
  cases c with
  | illegal => exact raiseError_held ..
  | instr i =>
    obtain ⟨work, hwork⟩ := commandRun_withChecks i
    rw [hwork]
    exact withChecks_held hf i work

/-- The engine's next move of a faulted block. -/
theorem resume_held {s : State} (hf : s.faulted = true) (he : BeforeWork s.engine) : FaultHeld s (resume s) := by
  have same : FaultHeld s s := .mk he
  unfold resume
  generalize s.engine = e at he
  cases he with
  | idle => exact same
  | accepted c => exact commandRun_held hf c
  | refusing op code n => exact drainRun_refuse_held ..

theorem settle_held {s u : State} (hf : s.faulted = true) (h : FaultHeld s u) (o : Bool) : FaultHeld s (settle o u) := by
  rcases settle_cases o u with heq | heq
  · rw [heq]
    exact h
  · rw [heq]
    exact h.trans (resume_held (h.faulted.trans hf) h.engine)

/-! ### The host's interactions -/

/-- A CMD write is ignored, or a command is accepted (10_state R22, 42_filter_engine R170). -/
theorem commandWrite_held {o : Bool} {w : Word} {s : State} (he : BeforeWork s.engine) :
    ∃ u, FaultHeld s u ∧ commandWrite o w s = .next (settle o u) := by
  have accepted (c : Command) : FaultHeld s (accept c s) := .mk (.accepted c)
  unfold commandWrite
  split
  · exact ⟨s, .mk he, rfl⟩
  · next hb =>
    have hidle := idle_of_not_busy hb
    split
    · next i _ =>
      refine ⟨_, accepted (.instr i), ?_⟩
      cases o
      · exact exec_idle hidle i
      · rfl
    · refine ⟨_, accepted .illegal, ?_⟩
      cases o
      · exact execIllegal_idle hidle
      · rfl

theorem hostWrite_held (idx : BitVec 4) (data : Word) {s : State} (he : BeforeWork s.engine) :
    FaultHeld s (hostWrite idx data s) := by
  unfold hostWrite
  split
  · exact .mk he
  · split <;> exact .mk he

/-- Only a reset reaches what a fault holds. -/
theorem hostTurn_held {ev : HostEvent} {s : State} (hev : ev.op ≠ .reset) (he : BeforeWork s.engine) :
    ∃ u, FaultHeld s u ∧ hostTurn ev s = .next (settle ev.overlap u) := by
  obtain ⟨op, o⟩ := ev
  cases op with
  | offer b => exact ⟨_, .mk he, rfl⟩
  | answer r => exact ⟨_, .mk he, rfl⟩
  | reset => exact absurd rfl hev
  | access a =>
    dsimp only [hostTurn, registerAccess]
    split
    · obtain ⟨v, d, hread⟩ := hostRead_spec a.idx s
      exact ⟨_, hread ▸ .mk he, rfl⟩
    · split
      · exact commandWrite_held he
      · exact ⟨_, hostWrite_held a.idx a.data he, rfl⟩

/-- A step without a reset holds a fault. -/
theorem step_held {s t : State} (hf : s.faulted = true) (he : BeforeWork s.engine)
    (hhost : ∀ ev rest, s.host = ev :: rest → ev.op ≠ .reset) (h : step s = .next t) : FaultHeld s t := by
  unfold step at h
  split at h
  · cases h
    exact resume_held hf he
  · next ev rest heq =>
    obtain ⟨u, held, hturn⟩ := hostTurn_held (s := { s with host := rest }) (hhost ev rest heq) he
    cases hturn.symm.trans h
    exact settle_held hf (.trans (.mk he) held) _

/-- Settles O8: the invariant shuts out every hidden state past the pre-checks, and from the others a step without a reset
holds the fault. -/
theorem onlyResetClearsFault : Obligations.OnlyResetClearsFault := by
  unfold Obligations.OnlyResetClearsFault
  intro s t hinv hf hhost hstep
  cases step_held hf (beforeWork_of_engineOk hinv.engineOk hf) hhost hstep
  exact ⟨hf, rfl, rfl, rfl, rfl, rfl, rfl, rfl, rfl⟩

end Sys2Proof.Proofs.HeldFault
end

section
/-! Reset (70_reset_and_hazards): asserting `rst` (O2). -/
namespace Sys2Proof.Proofs.Reset
open Sys2Proof Sys2Proof.Machine Sys2Proof.Proofs.Moves Sys2Proof.Proofs.RegisterFile

/-- A reset is the whole step, with `overlap` or without: it leaves the engine idle, so no move follows it (R290). -/
theorem step_reset {s : State} {o : Bool} {rest : List HostEvent} (h : s.host = { op := .reset, overlap := o } :: rest) :
    step s = .next (resetBlock (cutInput { s with host := rest })) := by
  simp only [step, h, hostTurn, settle_idle (resetBlock_engine _)]

/-- Settles O2: the step is `resetBlock` of a state that differs from `s` in its host list and in the beats `cutInput` drops,
and the next move of an idle block takes no beat, so the bound on the dropped beats is 0 there. -/
theorem resetInteractionGivesResetState : Obligations.ResetInteractionGivesResetState := by
  unfold Obligations.ResetInteractionGivesResetState
  intro s o rest h
  obtain ⟨n, hn, hcut⟩ := cutInput_spec { s with host := rest }
  refine ⟨freeBuf s, s.draws + 1, n, hn, fun hidle => ?_, ?_⟩
  · have hstay : resume { s with host := rest } = { s with host := rest } := resume_idle hidle
    rw [hstay, Nat.sub_self] at hn
    exact Nat.le_zero.1 hn
  · rw [step_reset h, hcut]
    rfl

end Sys2Proof.Proofs.Reset
end

section
/-! POSITION (40_hash_chain R134): the remainder by M (O21). -/
namespace Sys2Proof.Proofs.Position
open Sys2Proof Sys2Proof.Machine

theorem position_toNat (m h : Word) : (position m h).toNat = h.toNat % m.toNat := BitVec.toNat_umod

theorem one_shiftLeft_toNat {j : Nat} (hj : j < 64) : (1#64 <<< j).toNat = 2 ^ j := by
  rw [← BitVec.twoPow_eq, BitVec.toNat_twoPow_of_lt hj]

/-- M = 2^j keeps the low j bits: the mask's value is 2^j - 1. -/
theorem position_one_shiftLeft (h : Word) {j : Nat} (hj : j < 64) :
    position (1#64 <<< j) h = h &&& ((1#64 <<< j) - 1#64) := by
  have hone : 1#64 ≤ 1#64 <<< j := by
    rw [BitVec.le_def, one_shiftLeft_toNat hj]
    exact Nat.one_le_two_pow
  apply BitVec.eq_of_toNat_eq
  rw [position_toNat, BitVec.toNat_and, BitVec.toNat_sub_of_le hone, one_shiftLeft_toNat hj]
  exact (Nat.and_two_pow_sub_one_eq_mod h.toNat j).symm

/-- Settles O21: the machine's remainder is that of the naturals, and a power of two masks. -/
theorem positionReducesModM : Obligations.PositionReducesModM := by
  unfold Obligations.PositionReducesModM
  intro m h hm
  have hpos : 0 < m.toNat := by bv_omega
  have hbelow : (position m h).toNat < m.toNat := by
    rw [position_toNat]
    exact Nat.mod_lt _ hpos
  exact ⟨hbelow, position_toNat m h, BitVec.umod_one, fun _ hj => position_one_shiftLeft h hj⟩

end Sys2Proof.Proofs.Position
end

section
/-! CREATE(10, 0.1) (42_filter_engine R187): the spec's worked example for every LN that comes close to the logarithm (O31).
The sizing reads LN at 2.0 and at p only, so five patterns at each are all the LNs there are to check. -/
namespace Sys2Proof.Proofs.CreateExample
open Sys2Proof Sys2Proof.Machine Sys2Proof.Proofs.Create

/-- The sizing depends on LN at 2.0 and at p alone (42_filter_engine R183). -/
theorem sizing_congr {ln ln' : Word → Word} {n p : Word} (htwo : ln twoBits = ln' twoBits) (hp : ln p = ln' p) :
    sizing ln n p = sizing ln' n p := by
  have hbits : bitCountF ln n p = bitCountF ln' n p := by simp only [bitCountF, htwo, hp]
  have hrounds : hashRoundsF ln n p = hashRoundsF ln' n p := by simp only [hashRoundsF, hbits, htwo]
  rw [sizing, sizing, hbits, hrounds]

/-- An LN with the values given at 2.0 and at every other argument. -/
def lnOfValues (atTwo atOther : Word) : Word → Word := fun x => if x = twoBits then atTwo else atOther

theorem sizing_eq_lnOfValues {ln : Word → Word} {n p : Word} (hp : p ≠ twoBits) :
    sizing ln n p = sizing (lnOfValues (ln twoBits) (ln p)) n p :=
  sizing_congr (if_pos rfl).symm (if_neg hp).symm

/-- A word in a range of five is the range's start and an offset. -/
theorem exists_offset {w : Word} {start : Nat} (hlo : start ≤ w.toNat) (hhi : w.toNat ≤ start + 4) :
    ∃ i : Fin 5, w = BitVec.ofNat 64 (start + i) :=
  ⟨⟨w.toNat - start, by omega⟩, by simp [Nat.add_sub_cancel' hlo]⟩

/-- The estimates of 10.0 and 0.1 truncate to 3 and 47 at all 25 pairs of patterns within two units of the correctly rounded
logarithms of 2.0 and 0.1. -/
theorem sizing_ten_tenth_of_offsets : ∀ i j : Fin 5,
    sizing (lnOfValues (BitVec.ofNat 64 (0x3FE62E42FEFA39ED + i)) (BitVec.ofNat 64 (0xC0026BB1BBB55513 + j)))
      0x4024000000000000#64 0x3FB999999999999A#64 = some (3#8, 47#64) := by
  decide +kernel

/-- 42_filter_engine R187 for every LN within two units at 2.0 and at 0.1. -/
theorem sizing_ten_tenth {ln : Word → Word}
    (htwo : 0x3FE62E42FEFA39ED ≤ (ln twoBits).toNat ∧ (ln twoBits).toNat ≤ 0x3FE62E42FEFA39F1)
    (htenth : 0xC0026BB1BBB55513 ≤ (ln 0x3FB999999999999A#64).toNat ∧
      (ln 0x3FB999999999999A#64).toNat ≤ 0xC0026BB1BBB55517) :
    sizing ln 0x4024000000000000#64 0x3FB999999999999A#64 = some (3#8, 47#64) := by
  obtain ⟨i, hi⟩ := exists_offset htwo.1 htwo.2
  obtain ⟨j, hj⟩ := exists_offset htenth.1 htenth.2
  rw [sizing_eq_lnOfValues (by decide), hi, hj]
  exact sizing_ten_tenth_of_offsets i j

/-- Settles O31: the sizes are the example's, five bytes fit, and a block with no fault held shows CFG_VALID alone. -/
theorem createTenTenthSizes : Obligations.CreateTenTenthSizes := by
  unfold Obligations.CreateTenTenthSizes
  intro s hinv hs hn hp hcap htwoLo htwoHi htenthLo htenthHi
  rw [hp] at htenthLo htenthHi
  have hsize : sizing s.params.ln s.argN s.argP = some (3#8, 47#64) := by
    rw [hn, hp]
    exact sizing_ten_tenth ⟨htwoLo, htwoHi⟩ ⟨htenthLo, htenthHi⟩
  obtain ⟨b, hexec, -⟩ := createBuildsEmptyFilter s 3#8 47#64 hs hsize hcap
  obtain ⟨hcause, hround, -⟩ := hinv.noFault hs.unfaulted
  have hlen : byteLen 47#64 = 5 := by decide
  refine ⟨_, hexec, rfl, rfl, hlen, rfl, rfl, ?_⟩
  simp only [State.status, State.busy, hs.idle, hs.unfaulted, hcause, hround]
  rfl

end Sys2Proof.Proofs.CreateExample
end
